-- ==== Sys2Proof/Word.lean ====
section
/-! DEFINITION. The two word types of the machine: "A byte is 8 bits" (R6), "All visible registers are 32-bit" (R20). -/

namespace Sys2Proof

/-- One byte of memory or of the instruction stream (R6). -/
abbrev Byte := BitVec 8

/-- A register value, an address, or any value of the default width (R7, R20, R40). -/
abbrev Word := BitVec 32

end Sys2Proof
end

