-- ==== Sys2Proof/Syntax.lean ====
section
/-! DEFINITION. Instructions and operands as syntax: one constructor of `Instr` per row of spec/opcode_table.json.
An operand is the spec's descriptor (R64, R72 to R84): what the bytes say, not how they spell it. -/

namespace Sys2Proof

/-- The sixteen registers, by the mnemonics of the register table (R20). `pR`, `pB`, `pS` and `pc` are
registers 0xC, 0xD, 0xE and 0xF (R21). -/
inductive Reg where
  | r0 | r1 | r2 | r3 | r4 | r5 | r6 | r7 | r8 | r9 | rA | rB | pR | pB | pS | pc
deriving DecidableEq, Repr, Inhabited

/-- What a 2-bit `<rsz>`, `<isz>` or `<val>` field says: a number from 1 to 4 (R67). -/
inductive Size where
  | b1 | b2 | b3 | b4
deriving DecidableEq, Repr, Inhabited

/-- The descriptors of the address modes other than Scale, one constructor per mode. -/
inductive Body where
  /-- Nybble Immediate (R72). -/
  | nyb (v : BitVec 4)
  /-- 1-4 byte immediate (R73): `n` bytes, value `v` zero-extended. -/
  | imm (n : Size) (v : Word)
  /-- Register (R74): the low `n` bytes of `r`. -/
  | reg (r : Reg) (n : Size)
  /-- Register Indirect (R75). -/
  | regInd (r : Reg) (n : Size)
  /-- Memory Indirect (R76): `a` is the address of the pointer. -/
  | memInd (a : Word)
  /-- Index (R77). -/
  | index (r rs2 : Reg)
  /-- Displacement (R78). -/
  | disp (r : Reg) (d : Word)
  /-- Absolute (R79). -/
  | abs (a : Word)
  /-- Increment, use then increment (R80). -/
  | postInc (r : Reg) (v : Size)
  /-- Decrement, decrement then use (R81). -/
  | preDec (r : Reg) (v : Size)
  /-- Preemptive Increment, increment then use (R83). -/
  | preInc (r : Reg) (v : Size)
  /-- Delayed Decrement, use then decrement (R84). -/
  | postDec (r : Reg) (v : Size)
deriving DecidableEq, Repr

/-- The class of an operand (R89). -/
inductive OperandClass where
  | imm | reg | mem
deriving DecidableEq, Repr, Inhabited

/-- A descriptor: a plain mode, or Scale with its second, non-scale operand (R82). -/
inductive Desc where
  | plain (b : Body)
  | scale (r : Reg) (s : Size) (inner : Body)
deriving DecidableEq, Repr

/-- An operand: the sign-extension mark and the descriptor (R64). -/
structure Operand where
  sx : Bool
  desc : Desc
deriving DecidableEq, Repr

/-- The operand list of an instruction whose forms are {1, 2} (R62). -/
inductive OneOrTwo where
  | one (a : Operand)
  | two (a b : Operand)
deriving DecidableEq, Repr

/-- The operand list of an instruction whose forms are {2, 3} (R62). -/
inductive TwoOrThree where
  | two (a b : Operand)
  | three (a b c : Operand)
deriving DecidableEq, Repr

/-- The operand list of an instruction whose forms are {2, 3, 4} (R62). -/
inductive TwoToFour where
  | two (a b : Operand)
  | three (a b c : Operand)
  | four (a b c d : Operand)
deriving DecidableEq, Repr

/-- The thirty defined opcodes (R90). -/
inductive Opcode where
  | hlt | nop | clr | dmp | out
  | add | sub | mul | div | mod | and | or | xor | cmp | inc | dec
  | mov | swp | cpy
  | jmp | jal | ret | beq | bne | bgt | bge | bie | bde | bao | bac
deriving DecidableEq, Repr

/-- An instruction: its opcode and as many operands as one of its forms has. -/
inductive Instr where
  | hlt
  | nop
  | clr (dst : Operand)
  | dmp (src : Operand)
  | out (ops : OneOrTwo)
  | add (ops : TwoOrThree)
  | sub (ops : TwoOrThree)
  | mul (ops : TwoToFour)
  | div (ops : TwoToFour)
  | mod (dst src1 src2 : Operand)
  | and (ops : TwoOrThree)
  | or (ops : TwoOrThree)
  | xor (ops : TwoOrThree)
  | cmp (ops : OneOrTwo)
  | inc (dst : Operand)
  | dec (dst : Operand)
  | mov (dst src : Operand)
  | swp (dst src : Operand)
  | cpy (ops : TwoToFour)
  | jmp (target : Operand)
  | jal (target : Operand)
  | ret
  | beq (ops : TwoOrThree)
  | bne (ops : TwoOrThree)
  | bgt (ops : TwoOrThree)
  | bge (ops : TwoOrThree)
  | bie (ops : TwoOrThree)
  | bde (ops : TwoOrThree)
  | bao (target : Operand)
  | bac (target : Operand)
  /-- An opcode byte that no row of the tables lists: "Unspecified opcodes are noop" (R106). -/
  | unspecified (opc : Byte)
deriving DecidableEq, Repr

/-- The number a size field stands for, in bytes (R67). -/
def Size.bytes : Size → Nat
  | .b1 => 1
  | .b2 => 2
  | .b3 => 3
  | .b4 => 4

/-- The operands of a list of one or two, in order. -/
def OneOrTwo.toList : OneOrTwo → List Operand
  | .one a => [a]
  | .two a b => [a, b]

/-- The operands of a list of two or three, in order. -/
def TwoOrThree.toList : TwoOrThree → List Operand
  | .two a b => [a, b]
  | .three a b c => [a, b, c]

/-- The operands of a list of two to four, in order. -/
def TwoToFour.toList : TwoToFour → List Operand
  | .two a b => [a, b]
  | .three a b c => [a, b, c]
  | .four a b c d => [a, b, c, d]

/-- The operands of an instruction, in the order they stand in it (R60). -/
def Instr.operands : Instr → List Operand
  | .hlt => []
  | .nop => []
  | .clr a => [a]
  | .dmp a => [a]
  | .out ops => ops.toList
  | .add ops => ops.toList
  | .sub ops => ops.toList
  | .mul ops => ops.toList
  | .div ops => ops.toList
  | .mod a b c => [a, b, c]
  | .and ops => ops.toList
  | .or ops => ops.toList
  | .xor ops => ops.toList
  | .cmp ops => ops.toList
  | .inc a => [a]
  | .dec a => [a]
  | .mov a b => [a, b]
  | .swp a b => [a, b]
  | .cpy ops => ops.toList
  | .jmp a => [a]
  | .jal a => [a]
  | .ret => []
  | .beq ops => ops.toList
  | .bne ops => ops.toList
  | .bgt ops => ops.toList
  | .bge ops => ops.toList
  | .bie ops => ops.toList
  | .bde ops => ops.toList
  | .bao a => [a]
  | .bac a => [a]
  | .unspecified _ => []

/-- What the opcode byte of an instruction is: a defined opcode, or a byte that is none (R90). -/
inductive Head where
  | defined (o : Opcode)
  | unspecified (b : Byte)
deriving DecidableEq, Repr

/-- The head of an instruction. -/
def Instr.head : Instr → Head
  | .hlt => .defined .hlt
  | .nop => .defined .nop
  | .clr _ => .defined .clr
  | .dmp _ => .defined .dmp
  | .out _ => .defined .out
  | .add _ => .defined .add
  | .sub _ => .defined .sub
  | .mul _ => .defined .mul
  | .div _ => .defined .div
  | .mod _ _ _ => .defined .mod
  | .and _ => .defined .and
  | .or _ => .defined .or
  | .xor _ => .defined .xor
  | .cmp _ => .defined .cmp
  | .inc _ => .defined .inc
  | .dec _ => .defined .dec
  | .mov _ _ => .defined .mov
  | .swp _ _ => .defined .swp
  | .cpy _ => .defined .cpy
  | .jmp _ => .defined .jmp
  | .jal _ => .defined .jal
  | .ret => .defined .ret
  | .beq _ => .defined .beq
  | .bne _ => .defined .bne
  | .bgt _ => .defined .bgt
  | .bge _ => .defined .bge
  | .bie _ => .defined .bie
  | .bde _ => .defined .bde
  | .bao _ => .defined .bao
  | .bac _ => .defined .bac
  | .unspecified b => .unspecified b

end Sys2Proof
end

