-- ==== Sys2Proof/Config.lean ====
section
/-! DEFINITION. What an implementation fixes (the parameters of 00_scope R5), the launch values the model names, and
the free values. The parameters are plain data that a launch supplies and no step writes, so that a statement about
every state is a statement about every value of every parameter. -/

namespace Sys2Proof

/-- A run of implemented byte addresses: `size` of them from `base` up (R47). -/
structure Region where
  base : Nat
  size : Nat
deriving DecidableEq, Repr

/-- `DIV3_MOD_RULE`: which operands of a 3-operand DIV receive the remainder (R5, R114). -/
inductive Div3ModRule where
  | literal
  | firstNonImm
deriving DecidableEq, Repr

/-- `RET_PS_RULE`: how RET restores pS (R5, R142). -/
inductive RetPsRule where
  | literal
  | arithmetic
deriving DecidableEq, Repr

/-- `FLAG_WRITE`: any value, the default of R27, or the customary instantiation that R123 offers. -/
inductive FlagRule where
  | free
  | customary
deriving DecidableEq, Repr

/-- The instructions that write the two flags (R27). -/
inductive FlagOp where
  | add | sub | mul | div | mod | and | or | xor | cmp | inc | dec | bie | bde
deriving DecidableEq, Repr

/-- `SCALE_RESOLVE`: not given, the default of R5, or given (R82). What it is when given are the free functions
`Config.scaleClass`, `Config.scaleResolve`, `Config.scaleWrites` and `Config.scaleWritten` (log 9). -/
inductive ScaleRule where
  | refuse
  | given
deriving DecidableEq, Repr

/-- What `SCALE_RESOLVE` answers beside its class: by the class, an immediate `value` of 4 bits (`nybble`) or of `size`
bytes, the low `size` bytes of `reg`, or `size` bytes at address `value`; and the addresses it has read (R82, R86). -/
structure ScaleAnswer where
  nybble : Bool
  size : Size
  reg : Reg
  value : Word
  reads : List Word
deriving DecidableEq, Repr, Inhabited

/-- The parameters of R5 that a run keeps, but for XLEN and NREGS, which the source fixes (log 18). The launch values
are arguments of `State.launch`. -/
structure Params where
  /-- `ALEN`: there are 2^ALEN addresses (R40, D17, log 18). -/
  alen : Nat
  /-- `MEM_MAP`, the set of implemented byte addresses (R47). -/
  memMap : List Region
  /-- `COMPARE_SIGNED` (R146, R147). -/
  compareSigned : Bool
  /-- `MULDIV_SIGNED` (R113, R122). -/
  mulDivSigned : Bool
  /-- `FLAG_WRITE` (R27, R123). -/
  flagRule : FlagRule
  /-- `DIV3_MOD_RULE` (R114). -/
  div3ModRule : Div3ModRule
  /-- `RET_PS_RULE` (R142). -/
  retPsRule : RetPsRule
  /-- `SCALE_RESOLVE` (R82, R89). -/
  scaleRule : ScaleRule
deriving DecidableEq, Repr

/-- The defaults of R5. `MEM_MAP` has none there: all 2^32 addresses is the model's own
(DESIGN CHOICE, unsafe, log 2). -/
def Params.default : Params where
  alen := 32
  memMap := [⟨0, 2 ^ 32⟩]
  compareSigned := true
  mulDivSigned := true
  flagRule := .free
  div3ModRule := .literal
  retPsRule := .literal
  scaleRule := .refuse

/-- What a byte of memory that no entry lists reads as. R34 leaves `INIT_MEM` open: zero is the model's own
(DESIGN CHOICE, unsafe, log 6). -/
def Config.unlistedByte : Byte := 0

/-- `ENTRY_PC` of the reset state. R34 leaves it open: zero is the model's own (DESIGN CHOICE, unsafe, log 3). -/
def Config.entryPc : Word := 0

/-- The value of registers 0x0 to 0xE in the reset state. R34 leaves `INIT_REGS` open: zero is the model's own
(DESIGN CHOICE, unsafe, log 4). -/
def Config.initReg : Word := 0

/-- The value of both flags in the reset state. R34 leaves `INIT_FLAGS` open: clear is the model's own
(DESIGN CHOICE, unsafe, log 5). -/
def Config.initFlag : Bool := false

/-- FREE VALUE (safe, log 7): the overflow flag that draw number `n` gives, after the instruction `op` on the
values `a` and `b` with a destination of the given size. It has no value in Lean: R27 lets the flag be any value. -/
opaque Config.freeOverflow : Nat → FlagOp → Word → Word → Size → Bool

/-- FREE VALUE (safe, log 7): the carry flag that draw number `n` gives, as `Config.freeOverflow`. -/
opaque Config.freeCarry : Nat → FlagOp → Word → Word → Size → Bool

/-- FREE VALUE (safe, log 9): the class that `SCALE_RESOLVE`, where it is given, has for a Scale descriptor
`Scale(r, s, inner)`. R89 makes the class a property of the descriptor. -/
opaque Config.scaleClass : Reg → Size → Body → OperandClass

/-- FREE VALUE (safe, log 9): what `SCALE_RESOLVE(r, s, inner)` answers when the registers and the bytes of memory are
as given. R82 forbids assuming any formula. -/
opaque Config.scaleResolve : Reg → Size → Body → (Reg → Word) → (Word → Byte) → ScaleAnswer

/-- FREE VALUE (safe, log 9): the registers that `SCALE_RESOLVE(r, s, inner)` may write, as an address mode may (R86). -/
opaque Config.scaleWrites : Reg → Size → Body → List Reg

/-- FREE VALUE (safe, log 9): what `SCALE_RESOLVE(r, s, inner)` writes to each of them. -/
opaque Config.scaleWritten : Reg → Size → Body → (Reg → Word) → (Word → Byte) → Reg → Word

end Sys2Proof
end

