-- ==== Sys2Proof/Machine/State.lean ====
section
/-! DEFINITION. The whole state of the machine (10_state.md, R20 to R34), the reasons a step can stop, the launch
state and the reset state. -/

namespace Sys2Proof.Machine

/-- The nine reasons of R160, a closed list. A fault ends the run. Every one of them is SAFE: the source gives the
machine no behaviour there, and nothing is claimed of a faulted run (R161). -/
inductive Fault where
  /-- An operand list ends at a count that the instruction does not list (R63). Raised by decoding. Safe. -/
  | operandCount
  /-- A null byte after a sign-extend byte, or a Scale whose second operand is null, marked or a Scale (R64, R82).
  Raised by decoding. Safe. -/
  | malformedOperand
  /-- A control code 0x02 to 0x0F in an operand slot (R65). Raised by decoding. Safe. -/
  | reservedControlCode
  /-- A fixed sub-field that is not 00, or a register byte whose high nibble is not 0 (R68, R71). Raised by
  decoding. Safe. -/
  | reservedEncoding
  /-- A type byte of mode 1110 or 1111 (R85). Raised by decoding. Safe. -/
  | undefinedMode
  /-- An operand of a class the form does not list (R89). Raised by the class check. Safe. -/
  | operandClass
  /-- A Scale operand, `SCALE_RESOLVE` not being given (R82, R89). Raised by the class check. Safe (log 9). -/
  | scaleUnmodelled
  /-- The divisor of DIV or MOD is zero (R114, R115). Safe. -/
  | divideByZero
  /-- A fetch, read or write touches an address outside `MEM_MAP` (R41, R42, R47). Safe. -/
  | memoryAccess
deriving DecidableEq, Repr

/-- Why there is no next state although nothing is at fault. -/
inductive Refusal where
  /-- An instruction without a meaning in this model: no arm of `exec` answers it. Safe. -/
  | notModelled (mnemonic : String)
  /-- The processor is halted: it takes no step (R29, R94, R184). Raised by `step`. Safe (log 11). -/
  | halted
  /-- A C string copy with no limit that finds no zero byte however long it goes on: the instruction never ends,
  and R133 has it treated as a hang. Raised by CPY alone. Safe (log 12). -/
  | copyNeverEnds
  /-- A run of sign-extend bytes that fills the whole address space. The loop of R64 needs a bound to be a
  function; no state's fetch reaches it (stated as `RefusalsAreHaltOrEndlessCopy`). Raised by decoding. Safe (log 13). -/
  | endlessPrefixes
deriving DecidableEq, Repr

/-- The register file (R20). PC is register 0xF of it (R24). -/
structure Regs where
  r0 : Word
  r1 : Word
  r2 : Word
  r3 : Word
  r4 : Word
  r5 : Word
  r6 : Word
  r7 : Word
  r8 : Word
  r9 : Word
  rA : Word
  rB : Word
  pR : Word
  pB : Word
  pS : Word
  pc : Word
deriving DecidableEq, Repr

/-- The ALU overflow flag and the ALU carry flag (R26). -/
structure Flags where
  ovf : Bool
  carry : Bool
deriving DecidableEq, Repr

/-- Memory: (address, byte) pairs in rising order of address, none equal to what an unlisted address reads as. -/
abbrev Memory := List Host.Cell

/-- The canonical form of memory: addresses strictly rising and below 2^32, no entry equal to what an unlisted
address reads as. -/
abbrev Memory.wf (m : Memory) : Prop :=
  m.Pairwise (fun c d => c.1 < d.1) ∧ ∀ c ∈ m, c.1 < 2 ^ 32 ∧ c.2 ≠ Config.unlistedByte

/-- The whole state of the machine (the head of 10_state.md). -/
structure State where
  /-- The sixteen registers (R20). -/
  regs : Regs
  /-- The two flags (R26). -/
  flags : Flags
  /-- The one memory space (R40). -/
  mem : Memory
  /-- HLT has been executed (R29). -/
  halted : Bool
  /-- The values DMP has dumped, oldest first (R30). -/
  trace : List Word
  /-- The (port, value) pairs OUT has sent, oldest first (R31). -/
  output : List (Word × Word)
  /-- The fault the run is in (R32). -/
  fault : Option Fault
  /-- The parameters of R5, supplied by the launch (log 1). -/
  params : Params
  /-- The model's own: how many pairs of free flag values have been drawn (log 7). -/
  draws : Nat
deriving DecidableEq, Repr

/-- The launch state of R180: what the host supplies (`params`, `ENTRY_PC`, `INIT_REGS`, `INIT_FLAGS`, `INIT_MEM`),
and the spec's own start values for the rest (R34). `INIT_REGS` gives registers 0x0 to 0xE: its `pc` is not used. -/
def State.launch (params : Params) (entryPc : Word) (initRegs : Regs) (initFlags : Flags) (initMem : Memory) : State where
  regs := { initRegs with pc := entryPc }
  flags := initFlags
  mem := initMem
  halted := false
  trace := []
  output := []
  fault := none
  params := params
  draws := 0

/-- Registers that all hold the reset value the model names (log 4). -/
def Regs.initial : Regs :=
  let v := Config.initReg
  ⟨v, v, v, v, v, v, v, v, v, v, v, v, v, v, v, v⟩

/-- The machine right after reset: the launch state at the values the model names where R34 leaves them open
(DESIGN CHOICE, unsafe, logs 2 to 6). -/
def State.reset : State :=
  State.launch Params.default Config.entryPc Regs.initial ⟨Config.initFlag, Config.initFlag⟩ []

end Sys2Proof.Machine
end

