-- ==== Sys2Proof/Machine/Ops.lean ====
section
/-! DEFINITION. The named operations over registers, memory, the halted bit, the two output channels and the fault
record (10_state.md, 20_memory.md, 60_exceptions.md R160). The machine has no exception to take and none to return
from (R162, R164): `State.raise` is what `raise Fault(reason)` does to the state. -/

namespace Sys2Proof.Machine

/-! ## Registers (R20, R21) -/

/-- `x[i]`. -/
def Regs.get (g : Regs) : Reg → Word
  | .r0 => g.r0
  | .r1 => g.r1
  | .r2 => g.r2
  | .r3 => g.r3
  | .r4 => g.r4
  | .r5 => g.r5
  | .r6 => g.r6
  | .r7 => g.r7
  | .r8 => g.r8
  | .r9 => g.r9
  | .rA => g.rA
  | .rB => g.rB
  | .pR => g.pR
  | .pB => g.pB
  | .pS => g.pS
  | .pc => g.pc

/-- `x[i] <- v`. -/
def Regs.set (g : Regs) (r : Reg) (v : Word) : Regs :=
  match r with
  | .r0 => { g with r0 := v }
  | .r1 => { g with r1 := v }
  | .r2 => { g with r2 := v }
  | .r3 => { g with r3 := v }
  | .r4 => { g with r4 := v }
  | .r5 => { g with r5 := v }
  | .r6 => { g with r6 := v }
  | .r7 => { g with r7 := v }
  | .r8 => { g with r8 := v }
  | .r9 => { g with r9 := v }
  | .rA => { g with rA := v }
  | .rB => { g with rB := v }
  | .pR => { g with pR := v }
  | .pB => { g with pB := v }
  | .pS => { g with pS := v }
  | .pc => { g with pc := v }

/-- `x[i]` of the machine. -/
def State.reg (s : State) (r : Reg) : Word := s.regs.get r

/-- `x[i] <- v` of the machine. Register 0xF is the program counter: writing it is a jump (R25). -/
def State.setReg (s : State) (r : Reg) (v : Word) : State := { s with regs := s.regs.set r v }

/-- Several registers written, each with its value. -/
def State.setRegs (s : State) (f : Reg → Word) : List Reg → State
  | [] => s
  | r :: rest => (s.setReg r (f r)).setRegs f rest

/-- `pc <- target` (R24). -/
def State.jump (s : State) (target : Word) : State := s.setReg .pc target

/-- `pc <- pc + len` modulo 2^32 (R24). -/
def State.advancePc (s : State) (len : Nat) : State := s.jump (s.reg .pc + BitVec.ofNat 32 len)

/-! ## Memory (R40 to R47) -/

/-- The byte at an address. -/
def Memory.read : Memory → Nat → Byte
  | [], _ => Config.unlistedByte
  | c :: rest, a => if c.1 = a then c.2 else Memory.read rest a

/-- A memory in which the address is not listed. -/
def Memory.erase (m : Memory) (a : Nat) : Memory := m.filter fun c => c.1 != a

/-- List an address, in its place, in a memory that does not list it. -/
def Memory.insert : Memory → Nat → Byte → Memory
  | [], a, v => [(a, v)]
  | c :: rest, a, v => if a < c.1 then (a, v) :: c :: rest else c :: Memory.insert rest a v

/-- Write one byte and keep the canonical form: the value that an unlisted address reads as is not listed. -/
def Memory.write (m : Memory) (a : Nat) (v : Byte) : Memory :=
  if v = Config.unlistedByte then m.erase a else (m.erase a).insert a v

/-- Whether a region holds an address. -/
def regionHolds (r : Region) (a : Word) : Bool := decide (r.base ≤ a.toNat) && decide (a.toNat < r.base + r.size)

/-- Whether there is an address, one of 2^ALEN (R40, D17), and `MEM_MAP` holds it (R47). -/
def State.implemented (s : State) (a : Word) : Bool :=
  decide (a.toNat < 2 ^ s.params.alen) && s.params.memMap.any fun r => regionHolds r a

/-- Whether `MEM_MAP` holds the `n` addresses from `a` on, modulo 2^32 (R41, R42). -/
def State.accessOk (s : State) : Word → Nat → Bool
  | _, 0 => true
  | a, n + 1 => s.implemented a && s.accessOk (a + 1) n

/-- The byte of memory at an address, implemented or not. -/
def State.byteAt (s : State) (a : Word) : Byte := s.mem.read a.toNat

/-- The `n` bytes from `a` on, the byte at the lowest address least significant (R41). -/
def State.bytesAt (s : State) : Word → Nat → Word
  | _, 0 => 0
  | a, n + 1 => (s.byteAt a).setWidth 32 ||| (s.bytesAt (a + 1) n <<< 8)

/-- The low `n` bytes of `v` written from `a` on, the least significant at the lowest address (R42). -/
def Memory.writeBytes (m : Memory) : Word → Nat → Word → Memory
  | _, 0, _ => m
  | a, n + 1, v => Memory.writeBytes (m.write a.toNat (v.setWidth 8)) (a + 1) n (v >>> 8)

/-- `MemRead(addr, n)`, zero-extended to 32 bits (R41). -/
def memRead (a : Word) (n : Nat) (s : State) : Except Fault Word :=
  if s.accessOk a n then .ok (s.bytesAt a n) else .error .memoryAccess

/-- `MemWrite(addr, n, v)`: all of its bytes or none (R42). -/
def memWrite (a : Word) (n : Nat) (v : Word) (s : State) : Except Fault State :=
  if s.accessOk a n then .ok { s with mem := s.mem.writeBytes a n v } else .error .memoryAccess

/-! ## Halting, output, faults (R29 to R32) -/

/-- `halted <- true` (R29). -/
def State.halt (s : State) : State := { s with halted := true }

/-- `Trace(v)` (R30). -/
def State.dump (s : State) (v : Word) : State := { s with trace := s.trace ++ [v] }

/-- `Output(port, v)` (R31). -/
def State.send (s : State) (port v : Word) : State := { s with output := s.output ++ [(port, v)] }

/-- What `raise Fault(reason)` writes: the fault record (R32, R160). -/
def State.raise (s : State) (r : Fault) : State := { s with fault := some r }

/-- The outcome of an execution: the state it leaves, or the fault it raises, which ends the run (R160). -/
def finish : Except Fault State → Host.Outcome State Fault Refusal
  | .ok s => .next s
  | .error r => .fault r

end Sys2Proof.Machine
end

