-- ==== Sys2Proof/Machine/Operands.lean ====
section
/-! DEFINITION. From descriptor to value: operand classes and their check (R89), resolution (R86, R72 to R84), and the
reading and storing of a location (R87, R88). -/

namespace Sys2Proof.Machine

/-! ## Classes (R89) -/

/-- What a form asks of one of its operands (R89). -/
inductive Requirement where
  | any
  | regOrMem
  | mem
deriving DecidableEq, Repr

/-- The class of a descriptor other than Scale, by its mode's name (R89). -/
def bodyClass : Body → OperandClass
  | .nyb _ => .imm
  | .imm _ _ => .imm
  | .reg _ _ => .reg
  | .regInd _ _ => .mem
  | .memInd _ => .mem
  | .index _ _ => .mem
  | .disp _ _ => .mem
  | .abs _ => .mem
  | .postInc _ _ => .mem
  | .preDec _ _ => .mem
  | .preInc _ _ => .mem
  | .postDec _ _ => .mem

/-- The class of an operand. A Scale operand has the class its `SCALE_RESOLVE` result has, and none where the parameter
is not given (R89). -/
def operandClass (p : Params) (o : Operand) : Option OperandClass :=
  match o.desc with
  | .plain b => some (bodyClass b)
  | .scale r n inner =>
    match p.scaleRule with
    | .refuse => none
    | .given => some (Config.scaleClass r n inner)

/-- Whether a class meets a requirement (R89). -/
def meets : OperandClass → Requirement → Bool
  | _, .any => true
  | .imm, .regOrMem => false
  | .reg, .regOrMem => true
  | .mem, .regOrMem => true
  | .imm, .mem => false
  | .reg, .mem => false
  | .mem, .mem => true

/-- The check of one operand: without `SCALE_RESOLVE` a Scale operand is refused in any slot (R82, R89). -/
def checkOperand (p : Params) (o : Operand) (q : Requirement) : Except Fault Unit :=
  match operandClass p o with
  | none => .error .scaleUnmodelled
  | some c => if meets c q then .ok () else .error .operandClass

/-- The check of a form's operands, in order: the first that fails gives the reason (R89). -/
def checkOperands (p : Params) : List (Operand × Requirement) → Except Fault Unit
  | [] => .ok ()
  | (o, q) :: rest => do
    checkOperand p o q
    checkOperands p rest

/-- Whether an operand is an immediate (`IsImm`, R89). -/
def isImm (p : Params) (o : Operand) : Bool := operandClass p o == some .imm

/-! ## Locations (R86) -/

/-- Where an operand's data is, its sign-extension mark left aside (R86). -/
inductive Place where
  /-- `ImmLoc(width, value)`, the width in bits. -/
  | imm (width : Nat) (value : Word)
  /-- `RegLoc(r, n)`: the low `n` bytes of a register. -/
  | reg (r : Reg) (n : Size)
  /-- `MemLoc(addr, n)`. -/
  | mem (addr : Word) (n : Size)
deriving DecidableEq, Repr

/-- A location, which remembers the mark of its operand (R86). -/
structure Location where
  sx : Bool
  place : Place
deriving DecidableEq, Repr

/-- A 2-bit size field's number as a 32-bit amount (R80). -/
def amount (v : Size) : Word := BitVec.ofNat 32 v.bytes

/-- What `Resolve` makes of a descriptor other than Scale: its place, and the state with the mode's register side
effect done once (R72 to R84). -/
def resolveBody (b : Body) (s : State) : Except Fault (Place × State) :=
  match b with
  | .nyb v => .ok (.imm 4 (v.setWidth 32), s)
  | .imm n v => .ok (.imm (8 * n.bytes) v, s)
  | .reg r n => .ok (.reg r n, s)
  | .regInd r n => .ok (.mem (s.reg r) n, s)
  | .memInd a => do
    let p ← memRead a 4 s
    .ok (.mem p .b4, s)
  | .index r rs2 => .ok (.mem (s.reg r + s.reg rs2) .b4, s)
  | .disp r d => .ok (.mem (s.reg r + d) .b4, s)
  | .abs a => .ok (.mem a .b4, s)
  | .postInc r v => .ok (.mem (s.reg r) v, s.setReg r (s.reg r + amount v))
  | .preDec r v => .ok (.mem (s.reg r - amount v) v, s.setReg r (s.reg r - amount v))
  | .preInc r v => .ok (.mem (s.reg r + amount v) v, s.setReg r (s.reg r + amount v))
  | .postDec r v => .ok (.mem (s.reg r) v, s.setReg r (s.reg r - amount v))

/-- The place that an answer of `SCALE_RESOLVE` is, in its class (R82, R86). -/
def scalePlace (c : OperandClass) (a : ScaleAnswer) : Place :=
  match c with
  | .imm => .imm (if a.nybble then 4 else 8 * a.size.bytes) a.value
  | .reg => .reg a.reg a.size
  | .mem => .mem a.value a.size

/-- `SCALE_RESOLVE(r, s, inner)`, given: its place, and the state with its register side effects done once; a read
outside `MEM_MAP` faults (R41, R82, R86). -/
def resolveScale (r : Reg) (n : Size) (inner : Body) (s : State) : Except Fault (Place × State) :=
  let a := Config.scaleResolve r n inner s.reg s.byteAt
  if a.reads.all s.implemented then
    .ok (scalePlace (Config.scaleClass r n inner) a,
      s.setRegs (Config.scaleWritten r n inner s.reg s.byteAt) (Config.scaleWrites r n inner))
  else .error .memoryAccess

/-- What `Resolve` makes of a descriptor. Without `SCALE_RESOLVE` the class check has refused a Scale operand before
(R82). -/
def resolveDesc (d : Desc) (s : State) : Except Fault (Place × State) :=
  match d with
  | .plain b => resolveBody b s
  | .scale r n inner =>
    match s.params.scaleRule with
    | .refuse => .error .scaleUnmodelled
    | .given => resolveScale r n inner s

/-- `Resolve(op)`: the location remembers the mark (R86). -/
def resolve (o : Operand) (s : State) : Except Fault (Location × State) := do
  let (p, s) ← resolveDesc o.desc s
  .ok (⟨o.sx, p⟩, s)

/-- Two operands resolved in order (R86). -/
def resolve2 (a b : Operand) (s : State) : Except Fault (Location × Location × State) := do
  let (la, s) ← resolve a s
  let (lb, s) ← resolve b s
  .ok (la, lb, s)

/-- Three operands resolved in order (R86). -/
def resolve3 (a b c : Operand) (s : State) : Except Fault (Location × Location × Location × State) := do
  let (la, s) ← resolve a s
  let (lb, s) ← resolve b s
  let (lc, s) ← resolve c s
  .ok (la, lb, lc, s)

/-- Four operands resolved in order (R86). -/
def resolve4 (a b c d : Operand) (s : State) :
    Except Fault (Location × Location × Location × Location × State) := do
  let (la, s) ← resolve a s
  let (lb, s) ← resolve b s
  let (lc, s) ← resolve c s
  let (ld, s) ← resolve d s
  .ok (la, lb, lc, ld, s)

/-! ## Values (R87, R88) -/

/-- The widening of the low `w` bits of a value to 32: by sign under the mark, by zeros without it (R7, R87). -/
def widen (sx : Bool) (w : Nat) (raw : Word) : Word :=
  if sx then (raw.setWidth w).signExtend 32 else (raw.setWidth w).setWidth 32

/-- `Val(L)` (R87). -/
def val (l : Location) (s : State) : Except Fault Word :=
  match l.place with
  | .imm w v => .ok (widen l.sx w v)
  | .reg r n => .ok (widen l.sx (8 * n.bytes) (s.reg r))
  | .mem a n => do
    let raw ← memRead a n.bytes s
    .ok (widen l.sx (8 * n.bytes) raw)

/-- The low `n` bytes of a 32-bit value set, the others clear. -/
def lowMask (n : Size) : Word := BitVec.ofNat 32 (2 ^ (8 * n.bytes) - 1)

/-- `old[31:8n] ++ v[8n-1:0]` (R88). -/
def mergeLow (n : Size) (old v : Word) : Word := (old &&& ~~~ lowMask n) ||| (v &&& lowMask n)

/-- `Store(L, v)` (R88). A store to an immediate is not reachable: the class check refuses it first (log 19). -/
def store (l : Location) (v : Word) (s : State) : Except Fault State :=
  match l.place with
  | .imm _ _ => .error .operandClass
  | .reg r n => .ok (s.setReg r (mergeLow n (s.reg r) v))
  | .mem a n => memWrite a n.bytes v s

/-- `EA(L)`, not defined but for a memory location (R86): the class check refuses the others first (log 19). -/
def effectiveAddress (l : Location) : Except Fault Word :=
  match l.place with
  | .mem a _ => .ok a
  | .reg _ _ => .error .operandClass
  | .imm _ _ => .error .operandClass

/-- `width / 8` of an immediate of 8, 16, 24 or 32 bits; none of another width (R86). -/
def sizeOfWidth (w : Nat) : Option Size :=
  match w with
  | 8 => some .b1
  | 16 => some .b2
  | 24 => some .b3
  | 32 => some .b4
  | _ => none

/-- `size(L)`; a nybble immediate has none (R8, R86). -/
def locSize (l : Location) : Option Size :=
  match l.place with
  | .reg _ n => some n
  | .mem _ n => some n
  | .imm w _ => sizeOfWidth w

/-- The size of a destination, which is a register or a memory location and has one (R86, R89). A nybble immediate, which
no instruction stores to, answers 4 (log 19). -/
def destSize (l : Location) : Size := (locSize l).getD .b4

end Sys2Proof.Machine
end

