-- ==== Sys2Proof/Machine/Flags.lean ====
section
/-! DEFINITION. `FLAG_WRITE`: what an instruction of the arithmetic group, BIE or BDE leaves in the two flags (R27, R123). -/

namespace Sys2Proof.Machine

/-- The width in bits of a destination of a given size (R123). -/
def widthOf (n : Size) : Nat := 8 * n.bytes

/-- `v mod 2^W` (R123). -/
def lowValue (n : Size) (v : Word) : Nat := v.toNat % 2 ^ widthOf n

/-- The two's complement reading of the low `W` bits (R123). -/
def lowSigned (n : Size) (v : Word) : Int := (v.setWidth (widthOf n)).toInt

/-- `msb(v) = v[W-1]` (R123). -/
def topBit (n : Size) (v : Word) : Bool := v.getLsbD (widthOf n - 1)

/-- The customary flags after an addition whose low bits are those of `a + b` (R123). -/
def addFlags (n : Size) (a b : Word) : Flags where
  carry := decide (2 ^ widthOf n ≤ lowValue n a + lowValue n b)
  ovf := topBit n a == topBit n b && topBit n (a + b) != topBit n a

/-- The customary flags after a subtraction: the carry is a borrow (R123). -/
def subFlags (n : Size) (a b : Word) : Flags where
  carry := decide (lowValue n a < lowValue n b)
  ovf := topBit n a != topBit n b && topBit n (a - b) != topBit n a

/-- The customary flags after a multiplication: whether the product of the two low parts does not fit `W` bits, as
unsigned numbers for the carry and as signed ones for the overflow (R123; DESIGN CHOICE which product, log 8). -/
def mulFlags (n : Size) (a b : Word) : Flags where
  carry := decide (2 ^ widthOf n ≤ lowValue n a * lowValue n b)
  ovf :=
    let p := lowSigned n a * lowSigned n b
    decide (p < -(2 ^ (widthOf n - 1) : Int)) || decide ((2 ^ (widthOf n - 1) : Int) ≤ p)

/-- The customary instantiation of `FLAG_WRITE`, row by row (R123). -/
def customaryFlags (op : FlagOp) (a b : Word) (n : Size) : Flags :=
  match op with
  | .add | .inc | .bie => addFlags n a b
  | .sub | .dec | .bde => subFlags n a b
  | .mul => mulFlags n a b
  | .div | .mod | .and | .or | .xor | .cmp => ⟨false, false⟩

/-- A free pair of flags: the draw's number and the instruction's data give it no value (R27, log 7). -/
def freeFlags (draw : Nat) (op : FlagOp) (a b : Word) (n : Size) : Flags :=
  ⟨Config.freeOverflow draw op a b n, Config.freeCarry draw op a b n⟩

/-- `flags <- FLAG_WRITE(op, a, b, n)` (R27). A free pair uses up one draw. -/
def writeFlags (op : FlagOp) (a b : Word) (n : Size) (s : State) : State :=
  match s.params.flagRule with
  | .customary => { s with flags := customaryFlags op a b n }
  | .free => { s with flags := freeFlags s.draws op a b n, draws := s.draws + 1 }

end Sys2Proof.Machine
end

