-- ==== Sys2Proof/Machine/Arithmetic.lean ====
section
/-! DEFINITION. The meanings of ADD, SUB, MUL, DIV, MOD, AND, OR, XOR, CMP, INC and DEC (41_arithmetic_logic.md). -/

namespace Sys2Proof.Machine

/-! ## The two-source instructions (R110) -/

/-- The locations of the ADD operand forms (R110). -/
structure BinPlaces where
  dst : Location
  src1 : Location
  src2 : Location
deriving DecidableEq, Repr

/-- `BinForm(count)`: classes checked, operands resolved in order (R110). -/
def resolveBin (ops : TwoOrThree) (s : State) : Except Fault (BinPlaces × State) :=
  match ops with
  | .two a b => do
    checkOperands s.params [(a, .regOrMem), (b, .any)]
    let (la, lb, s) ← resolve2 a b s
    .ok (⟨la, la, lb⟩, s)
  | .three a b c => do
    checkOperands s.params [(a, .regOrMem), (b, .any), (c, .any)]
    let (la, lb, lc, s) ← resolve3 a b c s
    .ok (⟨la, lb, lc⟩, s)

/-- An instruction of the ADD operand forms that stores `f` of its two source values and writes the flags
(R111, R112, R116 to R118). -/
def execBin (op : FlagOp) (f : Word → Word → Word) (ops : TwoOrThree) (s : State) :
    Host.Outcome State Fault Refusal :=
  finish do
    let (l, s) ← resolveBin ops s
    let a ← val l.src1 s
    let b ← val l.src2 s
    let s ← store l.dst (f a b) s
    .ok (writeFlags op a b (destSize l.dst) s)

/-- ADD (R111). -/
def execAdd (ops : TwoOrThree) (s : State) : Host.Outcome State Fault Refusal :=
  execBin .add (fun a b => a + b) ops s

/-- SUB (R112): first source minus second. -/
def execSub (ops : TwoOrThree) (s : State) : Host.Outcome State Fault Refusal :=
  execBin .sub (fun a b => a - b) ops s

/-- AND (R116). -/
def execAnd (ops : TwoOrThree) (s : State) : Host.Outcome State Fault Refusal :=
  execBin .and (fun a b => a &&& b) ops s

/-- OR (R117). -/
def execOr (ops : TwoOrThree) (s : State) : Host.Outcome State Fault Refusal :=
  execBin .or (fun a b => a ||| b) ops s

/-- XOR (R118). -/
def execXor (ops : TwoOrThree) (s : State) : Host.Outcome State Fault Refusal :=
  execBin .xor (fun a b => a ^^^ b) ops s

/-! ## MUL (R113) -/

/-- The locations of a MUL: `ovf` is there in the 4-operand form alone (R113). -/
structure MulPlaces where
  dst : Location
  ovf : Option Location
  src1 : Location
  src2 : Location
deriving DecidableEq, Repr

/-- The operand forms of MUL (R113). -/
def resolveMul (ops : TwoToFour) (s : State) : Except Fault (MulPlaces × State) :=
  match ops with
  | .two a b => do
    checkOperands s.params [(a, .regOrMem), (b, .any)]
    let (la, lb, s) ← resolve2 a b s
    .ok (⟨la, none, la, lb⟩, s)
  | .three a b c => do
    checkOperands s.params [(a, .regOrMem), (b, .any), (c, .any)]
    let (la, lb, lc, s) ← resolve3 a b c s
    .ok (⟨la, none, lb, lc⟩, s)
  | .four a b c d => do
    checkOperands s.params [(a, .regOrMem), (b, .regOrMem), (c, .any), (d, .any)]
    let (la, lb, lc, ld, s) ← resolve4 a b c d s
    .ok (⟨la, some lb, lc, ld⟩, s)

/-- The 64-bit product `P`, signed or unsigned as `MULDIV_SIGNED` says (R113). -/
def product (signed : Bool) (a b : Word) : BitVec 64 :=
  if signed then BitVec.ofInt 64 (a.toInt * b.toInt) else BitVec.ofNat 64 (a.toNat * b.toNat)

/-- `P[W+31:W]` for a destination of size `n` (R113). -/
def productHigh (p : BitVec 64) (n : Size) : Word := p.extractLsb' (8 * n.bytes) 32

/-- A store to each of some locations, in order, of one value. -/
def storeAll (v : Word) : List Location → State → Except Fault State
  | [], s => .ok s
  | l :: rest, s => do
    let s ← store l v s
    storeAll v rest s

/-- MUL (R113). -/
def execMul (ops : TwoToFour) (s : State) : Host.Outcome State Fault Refusal :=
  finish do
    let (l, s) ← resolveMul ops s
    let a ← val l.src1 s
    let b ← val l.src2 s
    let p := product s.params.mulDivSigned a b
    let s ← store l.dst (p.extractLsb' 0 32) s
    let s ← storeAll (productHigh p (destSize l.dst)) l.ovf.toList s
    .ok (writeFlags .mul a b (destSize l.dst) s)

/-! ## DIV and MOD (R114, R115, R122) -/

/-- `DivRem(a, b)` for `b /= 0`: rounded toward zero, the remainder with the sign of the dividend, on signed or
unsigned values as `MULDIV_SIGNED` says (R122). -/
def divRem (signed : Bool) (a b : Word) : Word × Word :=
  if signed then
    let q := a.toInt.tdiv b.toInt
    (BitVec.ofInt 32 q, BitVec.ofInt 32 (a.toInt - q * b.toInt))
  else
    let q := a.toNat / b.toNat
    (BitVec.ofNat 32 q, BitVec.ofNat 32 (a.toNat - q * b.toNat))

/-- Where a DIV's results go: the quotient to one location or none, the remainder to the locations listed, in
order (R114). -/
structure DivPlaces where
  quotient : Option Location
  remainder : List Location
  src1 : Location
  src2 : Location
deriving DecidableEq, Repr

/-- The remainder's locations in a 3-operand DIV, by `DIV3_MOD_RULE` (R114, C9). -/
def div3Remainder (rule : Div3ModRule) (imm2 imm3 : Bool) (l2 l3 : Location) : List Location :=
  match rule with
  | .literal => (if imm2 then [] else [l2]) ++ (if imm3 || imm2 then [] else [l3])
  | .firstNonImm => if imm2 then (if imm3 then [] else [l3]) else [l2]

/-- The operand forms of DIV. The 2-operand form with two immediates is refused with the class check (R114, D47). -/
def resolveDiv (ops : TwoToFour) (s : State) : Except Fault (DivPlaces × State) :=
  match ops with
  | .two a b => do
    checkOperands s.params [(a, .any), (b, .any)]
    let imm1 := isImm s.params a
    let imm2 := isImm s.params b
    if imm1 && imm2 then .error .operandClass
    else
      let (la, lb, s) ← resolve2 a b s
      .ok (⟨if imm1 then none else some la, if imm2 then [] else [lb], la, lb⟩, s)
  | .three a b c => do
    checkOperands s.params [(a, .regOrMem), (b, .any), (c, .any)]
    let p := s.params
    let (la, lb, lc, s) ← resolve3 a b c s
    .ok (⟨some la, div3Remainder p.div3ModRule (isImm p b) (isImm p c) lb lc, lb, lc⟩, s)
  | .four a b c d => do
    checkOperands s.params [(a, .regOrMem), (b, .regOrMem), (c, .any), (d, .any)]
    let (la, lb, lc, ld, s) ← resolve4 a b c d s
    .ok (⟨some la, [lb], lc, ld⟩, s)

/-- The size FLAG_WRITE is given after a DIV: that of the quotient's location, or 4 if there is none (R114). -/
def quotientSize : Option Location → Size
  | some l => destSize l
  | none => .b4

/-- DIV (R114). -/
def execDiv (ops : TwoToFour) (s : State) : Host.Outcome State Fault Refusal :=
  finish do
    let (l, s) ← resolveDiv ops s
    let a ← val l.src1 s
    let b ← val l.src2 s
    if b = 0 then .error .divideByZero
    else
      let qr := divRem s.params.mulDivSigned a b
      let s ← storeAll qr.1 l.quotient.toList s
      let s ← storeAll qr.2 l.remainder s
      .ok (writeFlags .div a b (quotientSize l.quotient) s)

/-- MOD (R115). -/
def execMod (dst src1 src2 : Operand) (s : State) : Host.Outcome State Fault Refusal :=
  finish do
    checkOperands s.params [(dst, .regOrMem), (src1, .any), (src2, .any)]
    let (l1, l2, l3, s) ← resolve3 dst src1 src2 s
    let a ← val l2 s
    let b ← val l3 s
    if b = 0 then .error .divideByZero
    else
      let s ← store l1 (divRem s.params.mulDivSigned a b).2 s
      .ok (writeFlags .mod a b (destSize l1) s)

/-! ## CMP, INC, DEC (R119 to R121) -/

/-- The destination and the source of a CMP (R119). -/
def resolveCmp (ops : OneOrTwo) (s : State) : Except Fault (Location × Location × State) :=
  match ops with
  | .one a => do
    checkOperands s.params [(a, .regOrMem)]
    let (l, s) ← resolve a s
    .ok (l, l, s)
  | .two a b => do
    checkOperands s.params [(a, .regOrMem), (b, .any)]
    resolve2 a b s

/-- CMP (R119): bitwise complement, not a compare (C8). -/
def execCmp (ops : OneOrTwo) (s : State) : Host.Outcome State Fault Refusal :=
  finish do
    let (d, l, s) ← resolveCmp ops s
    let a ← val l s
    let s ← store d (~~~ a) s
    .ok (writeFlags .cmp a 0 (destSize d) s)

/-- An instruction that stores `f` of its operand's value back and writes the flags (R120, R121). -/
def execUpdate (op : FlagOp) (f : Word → Word) (dst : Operand) (s : State) : Host.Outcome State Fault Refusal :=
  finish do
    checkOperands s.params [(dst, .regOrMem)]
    let (l, s) ← resolve dst s
    let a ← val l s
    let s ← store l (f a) s
    .ok (writeFlags op a 1 (destSize l) s)

/-- INC (R120). -/
def execInc (dst : Operand) (s : State) : Host.Outcome State Fault Refusal :=
  execUpdate .inc (fun a => a + 1) dst s

/-- DEC (R121). -/
def execDec (dst : Operand) (s : State) : Host.Outcome State Fault Refusal :=
  execUpdate .dec (fun a => a - 1) dst s

end Sys2Proof.Machine
end

