-- ==== Sys2Proof/Machine/ChangeOfLocation.lean ====
section
/-! DEFINITION. The meanings of JMP, JAL, RET, the branches, BIE, BDE, BAO and BAC (43_change_of_location.md). PC already
holds the address of the next instruction, so that not branching is doing nothing. -/

namespace Sys2Proof.Machine

/-- A branch taken or not (R143). -/
def branchIf (taken : Bool) (target : Word) (s : State) : State := if taken then s.jump target else s

/-- The address a one-operand jump names: a Mem operand's effective address (R140). -/
def resolveTarget (target : Operand) (s : State) : Except Fault (Word × State) := do
  checkOperands s.params [(target, .mem)]
  let (l, s) ← resolve target s
  let t ← effectiveAddress l
  .ok (t, s)

/-- JMP (R140). -/
def execJmp (target : Operand) (s : State) : Host.Outcome State Fault Refusal :=
  finish do
    let (t, s) ← resolveTarget target s
    .ok (s.jump t)

/-- The RTL of JAL, line by line, with the target already resolved (R141). -/
def call (t : Word) (s : State) : Except Fault State := do
  let sp := s.reg .pS
  let s ← memWrite (sp - 4) 4 (s.reg .pB) s
  let s := s.setReg .pB (sp - 4)
  let s ← memWrite (sp - 8) 4 (s.reg .pR) s
  let s := s.setReg .pS (sp - 8)
  let s := s.setReg .pR (s.reg .pc)
  .ok (s.jump t)

/-- JAL (R141). -/
def execJal (target : Operand) (s : State) : Host.Outcome State Fault Refusal :=
  finish do
    let (t, s) ← resolveTarget target s
    call t s

/-- The value RET gives pS, by `RET_PS_RULE` (R142, C4). -/
def returnedStackPointer (bp : Word) (s : State) : Except Fault Word :=
  match s.params.retPsRule with
  | .literal => memRead (bp + 4) 4 s
  | .arithmetic => .ok (bp + 4)

/-- RET (R142): the old pB addresses every read. -/
def execRet (s : State) : Host.Outcome State Fault Refusal :=
  finish do
    let bp := s.reg .pB
    let s := s.jump (s.reg .pR)
    let r ← memRead (bp - 4) 4 s
    let s := s.setReg .pR r
    let sp ← returnedStackPointer bp s
    let s := s.setReg .pS sp
    let b ← memRead bp 4 s
    .ok (s.setReg .pB b)

/-! ## Branches that compare (R143 to R147) -/

/-- The locations of a comparing branch: in the 2-operand form `src2` is an immediate 0 (R143, R148). -/
structure BranchPlaces where
  src1 : Location
  src2 : Option Location
  target : Location
deriving DecidableEq, Repr

/-- `BranchForm(count)`, with what the first operand must be: any operand for BEQ to BGE, Reg or Mem for BIE and
BDE (R143, R148). -/
def resolveBranch (q : Requirement) (ops : TwoOrThree) (s : State) : Except Fault (BranchPlaces × State) :=
  match ops with
  | .two a t => do
    checkOperands s.params [(a, q), (t, .mem)]
    let (la, lt, s) ← resolve2 a t s
    .ok (⟨la, none, lt⟩, s)
  | .three a b t => do
    checkOperands s.params [(a, q), (b, .any), (t, .mem)]
    let (la, lb, lt, s) ← resolve3 a b t s
    .ok (⟨la, some lb, lt⟩, s)

/-- The value compared with: an immediate 0 where there is no second source (R143). -/
def valOrZero (l : Option Location) (s : State) : Except Fault Word :=
  match l with
  | some l => val l s
  | none => .ok 0

/-- A branch that compares two values and writes no flag (R143). -/
def execCompare (cond : Word → Word → Bool) (ops : TwoOrThree) (s : State) : Host.Outcome State Fault Refusal :=
  finish do
    let (l, s) ← resolveBranch .any ops s
    let a ← val l.src1 s
    let b ← valOrZero l.src2 s
    let t ← effectiveAddress l.target
    .ok (branchIf (cond a b) t s)

/-- `a > b` as `COMPARE_SIGNED` says (R146). -/
def greater (signed : Bool) (a b : Word) : Bool :=
  if signed then decide (a.toInt > b.toInt) else decide (a.toNat > b.toNat)

/-- `a >= b` as `COMPARE_SIGNED` says (R147). -/
def greaterEq (signed : Bool) (a b : Word) : Bool :=
  if signed then decide (a.toInt ≥ b.toInt) else decide (a.toNat ≥ b.toNat)

/-- BEQ (R144). -/
def execBeq (ops : TwoOrThree) (s : State) : Host.Outcome State Fault Refusal :=
  execCompare (fun a b => decide (a = b)) ops s

/-- BNE (R145). -/
def execBne (ops : TwoOrThree) (s : State) : Host.Outcome State Fault Refusal :=
  execCompare (fun a b => decide (a ≠ b)) ops s

/-- BGT (R146). -/
def execBgt (ops : TwoOrThree) (s : State) : Host.Outcome State Fault Refusal :=
  execCompare (greater s.params.compareSigned) ops s

/-- BGE (R147). -/
def execBge (ops : TwoOrThree) (s : State) : Host.Outcome State Fault Refusal :=
  execCompare (greaterEq s.params.compareSigned) ops s

/-! ## Loop branches (R148, R149) -/

/-- A loop branch: store `f` of the first operand, compare what was stored, read again, with the second source,
read after the store; write the flags (R148, R149, D39). -/
def execLoop (op : FlagOp) (f : Word → Word) (ops : TwoOrThree) (s : State) : Host.Outcome State Fault Refusal :=
  finish do
    let (l, s) ← resolveBranch .regOrMem ops s
    let old ← val l.src1 s
    let s ← store l.src1 (f old) s
    let a ← val l.src1 s
    let b ← valOrZero l.src2 s
    let t ← effectiveAddress l.target
    .ok (writeFlags op old 1 (destSize l.src1) (branchIf (decide (a = b)) t s))

/-- BIE (R148). -/
def execBie (ops : TwoOrThree) (s : State) : Host.Outcome State Fault Refusal :=
  execLoop .bie (fun a => a + 1) ops s

/-- BDE (R149). -/
def execBde (ops : TwoOrThree) (s : State) : Host.Outcome State Fault Refusal :=
  execLoop .bde (fun a => a - 1) ops s

/-! ## Branches on a flag (R150, R151) -/

/-- A jump if a flag is set; the flag is not cleared (R150, R151). -/
def execFlagBranch (flag : Bool) (target : Operand) (s : State) : Host.Outcome State Fault Refusal :=
  finish do
    let (t, s) ← resolveTarget target s
    .ok (branchIf flag t s)

/-- BAO (R150). -/
def execBao (target : Operand) (s : State) : Host.Outcome State Fault Refusal :=
  execFlagBranch s.flags.ovf target s

/-- BAC (R151). -/
def execBac (target : Operand) (s : State) : Host.Outcome State Fault Refusal :=
  execFlagBranch s.flags.carry target s

end Sys2Proof.Machine
end

