-- ==== Sys2Proof/Machine/CpuControl.lean ====
section
/-! DEFINITION. The meanings of HLT, NOP, CLR, DMP, OUT and the unspecified opcodes (40_cpu_control.md). Every meaning
here and in the other families is the class check, the resolution and the "execute" line of R94: `step` has decoded the
instruction and advanced PC. -/

namespace Sys2Proof.Machine

/-- HLT (R100). -/
def execHlt (s : State) : Host.Outcome State Fault Refusal := .next s.halt

/-- NOP (R101): nothing beyond the advance of PC. -/
def execNop (s : State) : Host.Outcome State Fault Refusal := .next s

/-- CLR (R102): `Store(L1, 0)`. -/
def execClr (dst : Operand) (s : State) : Host.Outcome State Fault Refusal :=
  finish do
    checkOperands s.params [(dst, .regOrMem)]
    let (l, s) ← resolve dst s
    store l 0 s

/-- DMP (R103): `Trace(Val(L1))`. -/
def execDmp (src : Operand) (s : State) : Host.Outcome State Fault Refusal :=
  finish do
    checkOperands s.params [(src, .any)]
    let (l, s) ← resolve src s
    let v ← val l s
    .ok (s.dump v)

/-- OUT (R104): the value of operand 1 to the port that operand 2 gives, or to port 0. -/
def execOut (ops : OneOrTwo) (s : State) : Host.Outcome State Fault Refusal :=
  match ops with
  | .one src =>
    finish do
      checkOperands s.params [(src, .any)]
      let (l, s) ← resolve src s
      let v ← val l s
      .ok (s.send 0 v)
  | .two src dst =>
    finish do
      checkOperands s.params [(src, .any), (dst, .any)]
      let (l1, l2, s) ← resolve2 src dst s
      let v ← val l1 s
      let port ← val l2 s
      .ok (s.send port v)

/-- An unspecified opcode (R106): nothing beyond the advance of PC, whatever the byte. -/
def execUnspecified (_opc : Byte) (s : State) : Host.Outcome State Fault Refusal := .next s

end Sys2Proof.Machine
end

