-- ==== Sys2Proof/Machine/MemoryManagement.lean ====
section
/-! DEFINITION. The meanings of MOV, SWP and CPY (42_memory_management.md). -/

namespace Sys2Proof.Machine

/-- MOV (R130): `Store(L1, Val(L2))`. -/
def execMov (dst src : Operand) (s : State) : Host.Outcome State Fault Refusal :=
  finish do
    checkOperands s.params [(dst, .regOrMem), (src, .any)]
    let (l1, l2, s) ← resolve2 dst src s
    let v ← val l2 s
    store l1 v s

/-- SWP (R131): both values are read before either is stored. -/
def execSwp (dst src : Operand) (s : State) : Host.Outcome State Fault Refusal :=
  finish do
    checkOperands s.params [(dst, .regOrMem), (src, .regOrMem)]
    let (l1, l2, s) ← resolve2 dst src s
    let a ← val l1 s
    let b ← val l2 s
    let s ← store l1 b s
    store l2 a s

/-! ## CPY (R132, R133) -/

/-- What ends a copy: a zero byte, or a count that has been reached (R132). -/
inductive CopyKind where
  | cString
  | counted (total : Nat)
deriving DecidableEq, Repr

/-- A copy as its operands ask for it: block addresses, kind, and limit (0: no limit). -/
structure CopyPlan where
  dst : Word
  src : Word
  kind : CopyKind
  limit : Nat
deriving DecidableEq, Repr

/-- The kind a selector asks for; a Pascal string's length word is read once, here (R132). -/
def copyKind (sel src : Word) (s : State) : Except Fault CopyKind :=
  if sel = 0 then .ok .cString
  else if sel = 1 then do
    let n ← memRead src 4 s
    .ok (.counted (4 + n.toNat))
  else .ok (.counted sel.toNat)

/-- The lines of R132 before the loop. -/
def copyPlan (ops : TwoToFour) (s : State) : Except Fault (CopyPlan × State) :=
  match ops with
  | .two a b => do
    checkOperands s.params [(a, .mem), (b, .mem)]
    let (l1, l2, s) ← resolve2 a b s
    let d ← effectiveAddress l1
    let f ← effectiveAddress l2
    .ok (⟨d, f, .cString, 0⟩, s)
  | .three a b c => do
    checkOperands s.params [(a, .mem), (b, .mem), (c, .any)]
    let (l1, l2, l3, s) ← resolve3 a b c s
    let d ← effectiveAddress l1
    let f ← effectiveAddress l2
    let sel ← val l3 s
    let k ← copyKind sel f s
    .ok (⟨d, f, k, 0⟩, s)
  | .four a b c e => do
    checkOperands s.params [(a, .mem), (b, .mem), (c, .any), (e, .any)]
    let (l1, l2, l3, l4, s) ← resolve4 a b c e s
    let d ← effectiveAddress l1
    let f ← effectiveAddress l2
    let sel ← val l3 s
    let lim ← val l4 s
    let k ← copyKind sel f s
    .ok (⟨d, f, k, lim.toNat⟩, s)

/-- Whether the loop of R132 stops at its head when `n` bytes have been copied. -/
def copyDone (p : CopyPlan) (n : Nat) : Bool :=
  (decide (p.limit ≠ 0) && decide (n = p.limit)) || decide (p.kind = .counted n)

/-- Byte number `n` of a copy moved: the byte, and the state after its write (R132). -/
def copyByte (p : CopyPlan) (n : Nat) (s : State) : Except Fault (Byte × State) := do
  let v ← memRead (p.src + BitVec.ofNat 32 n) 1 s
  let s ← memWrite (p.dst + BitVec.ofNat 32 n) 1 v s
  .ok (v.setWidth 8, s)

/-- The loop of R132 from byte `n` on, for at most `fuel` more bytes. -/
def copyLoop (p : CopyPlan) : Nat → Nat → State → Host.Outcome State Fault Refusal
  | fuel, n, s =>
    if copyDone p n then .next s
    else
      match fuel with
      | 0 => .refused .copyNeverEnds
      | fuel + 1 =>
        match copyByte p n s with
        | .error r => .fault r
        | .ok (b, s) =>
          if p.kind = .cString ∧ b = 0 then .next s
          else copyLoop p fuel (n + 1) s

/-- How many bytes the loop may take. A counted copy takes its count. A C string copy that has found no zero byte in
2^32 bytes has read every byte there is and finds none later: it never ends (R133, log 12). -/
def copyFuel : CopyKind → Nat
  | .cString => 2 ^ 32
  | .counted total => total

/-- CPY (R132). -/
def execCpy (ops : TwoToFour) (s : State) : Host.Outcome State Fault Refusal :=
  match copyPlan ops s with
  | .error r => .fault r
  | .ok (p, s) => copyLoop p (copyFuel p.kind) 0 s

end Sys2Proof.Machine
end

