-- ==== Sys2Proof/Machine/Dispatch.lean ====
section
/-! DEFINITION. The dispatch: one arm per constructor of `Instr`, each one call of its meaning. -/

namespace Sys2Proof.Machine

/-- What an instruction does to a state whose PC already holds the address of the next instruction (R94). -/
def exec (i : Instr) (s : State) : Host.Outcome State Fault Refusal :=
  match i with
  | .hlt => Sys2Proof.Machine.execHlt s
  | .nop => Sys2Proof.Machine.execNop s
  | .clr dst => Sys2Proof.Machine.execClr dst s
  | .dmp src => Sys2Proof.Machine.execDmp src s
  | .out ops => Sys2Proof.Machine.execOut ops s
  | .add ops => Sys2Proof.Machine.execAdd ops s
  | .sub ops => Sys2Proof.Machine.execSub ops s
  | .mul ops => Sys2Proof.Machine.execMul ops s
  | .div ops => Sys2Proof.Machine.execDiv ops s
  | .mod dst src1 src2 => Sys2Proof.Machine.execMod dst src1 src2 s
  | .and ops => Sys2Proof.Machine.execAnd ops s
  | .or ops => Sys2Proof.Machine.execOr ops s
  | .xor ops => Sys2Proof.Machine.execXor ops s
  | .cmp ops => Sys2Proof.Machine.execCmp ops s
  | .inc dst => Sys2Proof.Machine.execInc dst s
  | .dec dst => Sys2Proof.Machine.execDec dst s
  | .mov dst src => Sys2Proof.Machine.execMov dst src s
  | .swp dst src => Sys2Proof.Machine.execSwp dst src s
  | .cpy ops => Sys2Proof.Machine.execCpy ops s
  | .jmp target => Sys2Proof.Machine.execJmp target s
  | .jal target => Sys2Proof.Machine.execJal target s
  | .ret => Sys2Proof.Machine.execRet s
  | .beq ops => Sys2Proof.Machine.execBeq ops s
  | .bne ops => Sys2Proof.Machine.execBne ops s
  | .bgt ops => Sys2Proof.Machine.execBgt ops s
  | .bge ops => Sys2Proof.Machine.execBge ops s
  | .bie ops => Sys2Proof.Machine.execBie ops s
  | .bde ops => Sys2Proof.Machine.execBde ops s
  | .bao target => Sys2Proof.Machine.execBao target s
  | .bac target => Sys2Proof.Machine.execBac target s
  | .unspecified opc => Sys2Proof.Machine.execUnspecified opc s

end Sys2Proof.Machine
end

