-- ==== Sys2Proof/WellFormed.lean ====
section
/-! DEFINITION. Which terms of `Instr` stand for an instruction that has bytes: an immediate fits the bytes it is
written in (R73), and an unspecified opcode is one of the bytes the tables leave out (R90, R106). The class of an
operand is no matter of form: the step checks it and faults (R89). -/

namespace Sys2Proof

/-- An immediate of `n` bytes holds a value of `n` bytes (R73). -/
def Body.wf : Body → Bool
  | .imm n v => decide (v.toNat < 2 ^ (8 * n.bytes))
  | _ => true

/-- A descriptor's immediates fit, those of a Scale's second operand too. -/
def Desc.wf : Desc → Bool
  | .plain b => b.wf
  | .scale _ _ inner => inner.wf

/-- An operand's immediates fit. -/
def Operand.wf (o : Operand) : Bool := o.desc.wf

/-- The 226 unspecified opcode bytes: 0x05 to 0x0F, 0x1B to 0x1F, 0x23 to 0x30, 0x3C to 0xFF (R90, R106). -/
def isUnspecified (b : Byte) : Bool :=
  let n := b.toNat
  (decide (0x05 ≤ n) && decide (n ≤ 0x0F)) || (decide (0x1B ≤ n) && decide (n ≤ 0x1F)) ||
  (decide (0x23 ≤ n) && decide (n ≤ 0x30)) || decide (0x3C ≤ n)

/-- The opcode byte of an `unspecified` term is an unspecified one. -/
def Instr.opcodeOk : Instr → Bool
  | .unspecified b => isUnspecified b
  | _ => true

/-- An instruction that has bytes: its opcode byte is its own and every operand fits. -/
def Instr.wf (i : Instr) : Bool := i.opcodeOk && i.operands.all Operand.wf

end Sys2Proof
end

