-- ==== Sys2Proof/Decode.lean ====
section
/-! DEFINITION. The decoder of 30_encoding.md (R60 to R92), total on any source of bytes and rejecting by name, and after it the
encoder written from the same tables. -/

namespace Sys2Proof

/-! ## The opcode map (R62, R90) -/

/-- The opcode byte of a defined opcode (R90). -/
def Opcode.byte : Opcode → Byte
  | .hlt => 0x00
  | .nop => 0x01
  | .clr => 0x02
  | .dmp => 0x03
  | .out => 0x04
  | .add => 0x10
  | .sub => 0x11
  | .mul => 0x12
  | .div => 0x13
  | .mod => 0x14
  | .and => 0x15
  | .or => 0x16
  | .xor => 0x17
  | .cmp => 0x18
  | .inc => 0x19
  | .dec => 0x1A
  | .mov => 0x20
  | .swp => 0x21
  | .cpy => 0x22
  | .jmp => 0x31
  | .jal => 0x32
  | .ret => 0x33
  | .beq => 0x34
  | .bne => 0x35
  | .bgt => 0x36
  | .bge => 0x37
  | .bie => 0x38
  | .bde => 0x39
  | .bao => 0x3A
  | .bac => 0x3B

/-- `Forms(opc)`: the operand counts the descriptions list (R62). -/
def Opcode.forms : Opcode → List Nat
  | .hlt | .nop | .ret => [0]
  | .clr | .dmp | .inc | .dec | .jmp | .jal | .bao | .bac => [1]
  | .out | .cmp => [1, 2]
  | .mov | .swp => [2]
  | .add | .sub | .and | .or | .xor | .beq | .bne | .bgt | .bge | .bie | .bde => [2, 3]
  | .mod => [3]
  | .mul | .div | .cpy => [2, 3, 4]

/-- `MaxOps(opc)`: the largest operand count (R62). -/
def Opcode.maxOps : Opcode → Nat
  | .hlt | .nop | .ret => 0
  | .clr | .dmp | .inc | .dec | .jmp | .jal | .bao | .bac => 1
  | .out | .cmp | .mov | .swp => 2
  | .add | .sub | .and | .or | .xor | .beq | .bne | .bgt | .bge | .bie | .bde | .mod => 3
  | .mul | .div | .cpy => 4

/-- The defined opcodes, in the order of the tables (R90). -/
def Opcode.all : List Opcode :=
  [.hlt, .nop, .clr, .dmp, .out,
   .add, .sub, .mul, .div, .mod, .and, .or, .xor, .cmp, .inc, .dec,
   .mov, .swp, .cpy,
   .jmp, .jal, .ret, .beq, .bne, .bgt, .bge, .bie, .bde, .bao, .bac]

/-- The defined opcode a byte is, none for an unspecified one (R61, R90). -/
def Opcode.ofByte (b : Byte) : Option Opcode :=
  Opcode.all.find? fun o => o.byte == b

/-! ## The source of bytes, and how decoding fails -/

/-- The bytes of an instruction by their distance from its opcode byte; none where a byte cannot be read. -/
abbrev Source := Nat → Option Byte

/-- Why decoding stops. All but the last two are reasons of R160 by the same names. -/
inductive DecodeError where
  | operandCount
  | malformedOperand
  | reservedControlCode
  | reservedEncoding
  | undefinedMode
  /-- A byte that the instruction needs cannot be read (R41: `MemoryAccess` on a fetch). -/
  | unreadable
  /-- More sign-extend bytes in a row than there are addresses: never met in memory (log 13). -/
  | endlessPrefixes
deriving DecidableEq, Repr

/-- The byte at `p`, and the place after it. -/
def readByte (src : Source) (p : Nat) : Except DecodeError (Byte × Nat) :=
  match src p with
  | some b => .ok (b, p + 1)
  | none => .error .unreadable

/-- `n` bytes at `p`, the least significant first, zero-extended (R41, R43). -/
def readImm (src : Source) : Nat → Nat → Except DecodeError (Word × Nat)
  | 0, p => .ok (0, p)
  | n + 1, p => do
    let (b, p) ← readByte src p
    let (rest, p) ← readImm src n p
    .ok (b.setWidth 32 ||| (rest <<< 8), p)

/-! ## The fields of an operand type byte (R66, R67) -/

/-- `mode = b[7:4]`. -/
def modeBits (b : Byte) : BitVec 4 := b.extractLsb' 4 4

/-- `b[3:0]`: the `<Code>` of a control code, the value of a nybble immediate. -/
def lowNibble (b : Byte) : BitVec 4 := b.extractLsb' 0 4

/-- `f1 = b[3:2]`. -/
def field1 (b : Byte) : BitVec 2 := b.extractLsb' 2 2

/-- `f2 = b[1:0]`. -/
def field2 (b : Byte) : BitVec 2 := b.extractLsb' 0 2

/-- Field value `f` means `f + 1` (R67, D2). -/
def Size.ofField (f : BitVec 2) : Size :=
  match f.toNat with
  | 0 => .b1
  | 1 => .b2
  | 2 => .b3
  | _ => .b4

/-- The register a number names (R20). -/
def Reg.ofNum (n : BitVec 4) : Reg :=
  match n.toNat with
  | 0x0 => .r0
  | 0x1 => .r1
  | 0x2 => .r2
  | 0x3 => .r3
  | 0x4 => .r4
  | 0x5 => .r5
  | 0x6 => .r6
  | 0x7 => .r7
  | 0x8 => .r8
  | 0x9 => .r9
  | 0xA => .rA
  | 0xB => .rB
  | 0xC => .pR
  | 0xD => .pB
  | 0xE => .pS
  | _ => .pc

/-- `RegSel(f, p)`: the register a 2-bit field names, through the byte at `p` when the field is 0b11 (R70, R71). -/
def readReg (src : Source) (f : BitVec 2) (p : Nat) : Except DecodeError (Reg × Nat) :=
  match f.toNat with
  | 0 => .ok (.r0, p)
  | 1 => .ok (.r1, p)
  | 2 => .ok (.pB, p)
  | _ => do
    let (b, p) ← readByte src p
    if modeBits b = 0 then .ok (Reg.ofNum (lowNibble b), p) else .error .reservedEncoding

/-- The fixed sub-field `00` of modes 0010, 0101 and 1000 (R68). -/
def requireFixed (b : Byte) : Except DecodeError Unit :=
  if field1 b = 0 then .ok () else .error .reservedEncoding

/-! ## Operands (R64 to R85) -/

/-- `DecodeBody(b, p, scale_allowed = false)`: the descriptor that type byte `b` and the bytes from `p` on give
(R66, R69). A control code or a Scale type byte stands here only as a Scale's second operand, where R82 refuses it. -/
def decodeBody (src : Source) (b : Byte) (p : Nat) : Except DecodeError (Body × Nat) :=
  match (modeBits b).toNat with
  | 0b0001 => .ok (.nyb (lowNibble b), p)
  | 0b0010 => do
    requireFixed b
    let n := Size.ofField (field2 b)
    let (v, p) ← readImm src n.bytes p
    .ok (.imm n v, p)
  | 0b0011 => do
    let (r, p) ← readReg src (field1 b) p
    .ok (.reg r (Size.ofField (field2 b)), p)
  | 0b0100 => do
    let (r, p) ← readReg src (field1 b) p
    .ok (.regInd r (Size.ofField (field2 b)), p)
  | 0b0101 => do
    requireFixed b
    let (a, p) ← readImm src (Size.ofField (field2 b)).bytes p
    .ok (.memInd a, p)
  | 0b0110 => do
    let (r, p) ← readReg src (field1 b) p
    let (rs2, p) ← readReg src (field2 b) p
    .ok (.index r rs2, p)
  | 0b0111 => do
    let (r, p) ← readReg src (field1 b) p
    let (d, p) ← readImm src (Size.ofField (field2 b)).bytes p
    .ok (.disp r d, p)
  | 0b1000 => do
    requireFixed b
    let (a, p) ← readImm src (Size.ofField (field2 b)).bytes p
    .ok (.abs a, p)
  | 0b1001 => do
    let (r, p) ← readReg src (field1 b) p
    .ok (.postInc r (Size.ofField (field2 b)), p)
  | 0b1010 => do
    let (r, p) ← readReg src (field1 b) p
    .ok (.preDec r (Size.ofField (field2 b)), p)
  | 0b1100 => do
    let (r, p) ← readReg src (field1 b) p
    .ok (.preInc r (Size.ofField (field2 b)), p)
  | 0b1101 => do
    let (r, p) ← readReg src (field1 b) p
    .ok (.postDec r (Size.ofField (field2 b)), p)
  | 0b1110 => .error .undefinedMode
  | 0b1111 => .error .undefinedMode
  | _ => .error .malformedOperand

/-- `DecodeBody(b, p, scale_allowed = true)`: Scale takes a whole second operand, non-scale, non-null and unmarked
(R82). -/
def decodeDesc (src : Source) (b : Byte) (p : Nat) : Except DecodeError (Desc × Nat) :=
  if modeBits b = 0b1011 then do
    let (r, p) ← readReg src (field1 b) p
    let (b2, p) ← readByte src p
    let (inner, p) ← decodeBody src b2 p
    .ok (.scale r (Size.ofField (field2 b)) inner, p)
  else do
    let (d, p) ← decodeBody src b p
    .ok (.plain d, p)

/-- The loop of R64: take sign-extend bytes until a byte that is no control code, which is the type byte. `fuel`
bounds how many may be taken. -/
def skipControl (src : Source) : Nat → Bool → Byte → Nat → Except DecodeError (Bool × Byte × Nat)
  | fuel, sx, b, p =>
    if modeBits b ≠ 0 then .ok (sx, b, p)
    else if lowNibble b = 0b0001 then
      match fuel with
      | 0 => .error .endlessPrefixes
      | fuel + 1 =>
        match readByte src p with
        | .ok (b', p') => skipControl src fuel true b' p'
        | .error e => .error e
    else if lowNibble b = 0b0000 then .error .malformedOperand
    else .error .reservedControlCode

/-- How many sign-extend bytes in a row the decoder takes: as many as there are addresses (log 13). -/
def controlFuel : Nat := 2 ^ 32

/-- `DecodeSlot(p)`: none is the null byte that ends the list (R64). -/
def decodeSlot (src : Source) (p : Nat) : Except DecodeError (Option Operand × Nat) := do
  let (b, p) ← readByte src p
  if b = 0x00 then .ok (none, p)
  else
    let (sx, b, p) ← skipControl src controlFuel false b p
    let (d, p) ← decodeDesc src b p
    .ok (some ⟨sx, d⟩, p)

/-- Operand slots up to the null byte, or until `max` operands have been read (R63). -/
def decodeOperands (src : Source) : Nat → Nat → Except DecodeError (List Operand × Nat)
  | 0, p => .ok ([], p)
  | max + 1, p => do
    let (slot, p) ← decodeSlot src p
    match slot with
    | none => .ok ([], p)
    | some o =>
      let (rest, p) ← decodeOperands src max p
      .ok (o :: rest, p)

/-- A list of one or two operands. -/
def OneOrTwo.ofList : List Operand → Option OneOrTwo
  | [a] => some (.one a)
  | [a, b] => some (.two a b)
  | _ => none

/-- A list of two or three operands. -/
def TwoOrThree.ofList : List Operand → Option TwoOrThree
  | [a, b] => some (.two a b)
  | [a, b, c] => some (.three a b c)
  | _ => none

/-- A list of two to four operands. -/
def TwoToFour.ofList : List Operand → Option TwoToFour
  | [a, b] => some (.two a b)
  | [a, b, c] => some (.three a b c)
  | [a, b, c, d] => some (.four a b c d)
  | _ => none

/-- An instruction without operands. -/
def assembleNone (i : Instr) : List Operand → Option Instr
  | [] => some i
  | _ => none

/-- An instruction of one operand. -/
def assembleOne (mk : Operand → Instr) : List Operand → Option Instr
  | [a] => some (mk a)
  | _ => none

/-- An instruction of two operands. -/
def assembleTwo (mk : Operand → Operand → Instr) : List Operand → Option Instr
  | [a, b] => some (mk a b)
  | _ => none

/-- An instruction of three operands. -/
def assembleThree (mk : Operand → Operand → Operand → Instr) : List Operand → Option Instr
  | [a, b, c] => some (mk a b c)
  | _ => none

/-- The instruction an opcode and an operand list make; none when the list's length is not one of the opcode's
forms (R62, R63). -/
def assemble (o : Opcode) (ops : List Operand) : Option Instr :=
  match o with
  | .hlt => assembleNone .hlt ops
  | .nop => assembleNone .nop ops
  | .clr => assembleOne .clr ops
  | .dmp => assembleOne .dmp ops
  | .out => (OneOrTwo.ofList ops).map .out
  | .add => (TwoOrThree.ofList ops).map .add
  | .sub => (TwoOrThree.ofList ops).map .sub
  | .mul => (TwoToFour.ofList ops).map .mul
  | .div => (TwoToFour.ofList ops).map .div
  | .mod => assembleThree .mod ops
  | .and => (TwoOrThree.ofList ops).map .and
  | .or => (TwoOrThree.ofList ops).map .or
  | .xor => (TwoOrThree.ofList ops).map .xor
  | .cmp => (OneOrTwo.ofList ops).map .cmp
  | .inc => assembleOne .inc ops
  | .dec => assembleOne .dec ops
  | .mov => assembleTwo .mov ops
  | .swp => assembleTwo .swp ops
  | .cpy => (TwoToFour.ofList ops).map .cpy
  | .jmp => assembleOne .jmp ops
  | .jal => assembleOne .jal ops
  | .ret => assembleNone .ret ops
  | .beq => (TwoOrThree.ofList ops).map .beq
  | .bne => (TwoOrThree.ofList ops).map .bne
  | .bgt => (TwoOrThree.ofList ops).map .bgt
  | .bge => (TwoOrThree.ofList ops).map .bge
  | .bie => (TwoOrThree.ofList ops).map .bie
  | .bde => (TwoOrThree.ofList ops).map .bde
  | .bao => assembleOne .bao ops
  | .bac => assembleOne .bac ops

/-- `Decode(a)` over the bytes from `a` on: the instruction and its length (R63). An unspecified opcode is one byte
long (R106). -/
def decode (src : Source) : Except DecodeError (Instr × Nat) := do
  let (b, p) ← readByte src 0
  match Opcode.ofByte b with
  | none => .ok (.unspecified b, p)
  | some o =>
    let (ops, p) ← decodeOperands src o.maxOps p
    match assemble o ops with
    | some i => .ok (i, p)
    | none => .error .operandCount

/-- Decoding of a list of bytes; a byte beyond its end cannot be read. -/
def decodeBytes (bs : List Byte) : Except DecodeError (Instr × Nat) :=
  decode fun k => bs[k]?

/-! ## The encoder -/

/-- The number of a register (R20). -/
def Reg.num : Reg → BitVec 4
  | .r0 => 0x0
  | .r1 => 0x1
  | .r2 => 0x2
  | .r3 => 0x3
  | .r4 => 0x4
  | .r5 => 0x5
  | .r6 => 0x6
  | .r7 => 0x7
  | .r8 => 0x8
  | .r9 => 0x9
  | .rA => 0xA
  | .rB => 0xB
  | .pR => 0xC
  | .pB => 0xD
  | .pS => 0xE
  | .pc => 0xF

/-- The `<rs>` field that names a register (R70). -/
def Reg.field : Reg → BitVec 2
  | .r0 => 0b00
  | .r1 => 0b01
  | .pB => 0b10
  | _ => 0b11

/-- The register byte of a register that `<rs>` does not name by itself (R70, R71). -/
def Reg.extra : Reg → List Byte
  | .r0 | .r1 | .pB => []
  | r => [r.num.setWidth 8]

/-- The field that stands for a size (R67). -/
def Size.field : Size → BitVec 2
  | .b1 => 0b00
  | .b2 => 0b01
  | .b3 => 0b10
  | .b4 => 0b11

/-- An operand type byte of its mode and its two fields (R66). -/
def typeByte (mode : BitVec 4) (f1 f2 : BitVec 2) : Byte := mode ++ f1 ++ f2

/-- The low `n` bytes of a value, the least significant first (R43). -/
def immBytes (v : Word) : Nat → List Byte
  | 0 => []
  | n + 1 => v.setWidth 8 :: immBytes (v >>> 8) n

/-- The fewest bytes that hold an address or displacement: the spelling the encoder chooses (log 14). -/
def Size.fitting (v : Word) : Size :=
  if v.toNat < 2 ^ 8 then .b1
  else if v.toNat < 2 ^ 16 then .b2
  else if v.toNat < 2 ^ 24 then .b3
  else .b4

/-- The bytes of a descriptor other than Scale (R66, R69, R72 to R84). -/
def encodeBody : Body → List Byte
  | .nyb v => [(0b0001 : BitVec 4) ++ v]
  | .imm n v => typeByte 0b0010 0 n.field :: immBytes v n.bytes
  | .reg r n => typeByte 0b0011 r.field n.field :: r.extra
  | .regInd r n => typeByte 0b0100 r.field n.field :: r.extra
  | .memInd a => typeByte 0b0101 0 (Size.fitting a).field :: immBytes a (Size.fitting a).bytes
  | .index r rs2 => typeByte 0b0110 r.field rs2.field :: (r.extra ++ rs2.extra)
  | .disp r d =>
    typeByte 0b0111 r.field (Size.fitting d).field :: (r.extra ++ immBytes d (Size.fitting d).bytes)
  | .abs a => typeByte 0b1000 0 (Size.fitting a).field :: immBytes a (Size.fitting a).bytes
  | .postInc r v => typeByte 0b1001 r.field v.field :: r.extra
  | .preDec r v => typeByte 0b1010 r.field v.field :: r.extra
  | .preInc r v => typeByte 0b1100 r.field v.field :: r.extra
  | .postDec r v => typeByte 0b1101 r.field v.field :: r.extra

/-- The bytes of a descriptor (R82 for Scale). -/
def encodeDesc : Desc → List Byte
  | .plain b => encodeBody b
  | .scale r s inner => typeByte 0b1011 r.field s.field :: (r.extra ++ encodeBody inner)

/-- The bytes of an operand: one sign-extend byte if it is marked, then its descriptor (R64, R65). -/
def encodeOperand (o : Operand) : List Byte :=
  (if o.sx then [0x01] else []) ++ encodeDesc o.desc

/-- The opcode byte of an instruction (R61, R90). -/
def Instr.opcodeByte (i : Instr) : Byte :=
  match i.head with
  | .defined o => o.byte
  | .unspecified b => b

/-- The most operands an instruction's opcode takes; an unspecified opcode takes none (R62). -/
def Instr.maxOps (i : Instr) : Nat :=
  match i.head with
  | .defined o => o.maxOps
  | .unspecified _ => 0

/-- The null byte that ends a list shorter than the opcode's maximum (R63). -/
def Instr.terminator (i : Instr) : List Byte :=
  if i.operands.length < i.maxOps then [0x00] else []

/-- The bytes of an instruction (R60, R63), in the encoder's spelling (log 14). -/
def encode (i : Instr) : List Byte :=
  i.opcodeByte :: (i.operands.flatMap encodeOperand ++ i.terminator)

/-! ## The words of the opcode table -/

/-- How many zero bytes follow a table word: at least as many as the longest instruction without repeated
sign-extend bytes is long (R92: 33 bytes). -/
def tablePadding : Nat := 40

/-- The low `n` bytes of a number, the first byte in its lowest bits. -/
def natBytes (w : Nat) : Nat → List Byte
  | 0 => []
  | n + 1 => BitVec.ofNat 8 w :: natBytes (w / 256) n

/-- The bytes of a table word of `nbits` bits as they lie in memory, the first at the lowest address, and zeros
after them. -/
def tableBytes (nbits w : Nat) : List Byte :=
  natBytes (w % 2 ^ nbits) ((nbits + 7) / 8) ++ List.replicate tablePadding 0

/-- What the decoder reads from a table word followed by zeros. -/
def decodeTableWord (nbits w : Nat) : Option Instr :=
  match decodeBytes (tableBytes nbits w) with
  | .ok (i, _) => some i
  | .error _ => none

end Sys2Proof
end

