-- ==== Sys2Proof/Machine/Fetch.lean ====
section
/-! DEFINITION. Fetching: the bytes at PC as the decoder's source (R52, R63), what a decode error is as an outcome, and
the placing of a table word where the next fetch reads. -/

namespace Sys2Proof.Machine

/-- The bytes from PC on, modulo 2^32; none where `MEM_MAP` has no byte (R41, R52, R63). -/
def fetchSource (s : State) : Source := fun k =>
  let a := s.reg .pc + BitVec.ofNat 32 k
  if s.implemented a then some (s.byteAt a) else none

/-- `Decode(pc)` (R63, R94). -/
def fetch (s : State) : Except DecodeError (Instr × Nat) := decode (fetchSource s)

/-- The outcome of a fetch that does not decode: the fault R160 names for it. -/
def decodeFailure : DecodeError → Host.Outcome State Fault Refusal
  | .operandCount => .fault .operandCount
  | .malformedOperand => .fault .malformedOperand
  | .reservedControlCode => .fault .reservedControlCode
  | .reservedEncoding => .fault .reservedEncoding
  | .undefinedMode => .fault .undefinedMode
  | .unreadable => .fault .memoryAccess
  | .endlessPrefixes => .refused .endlessPrefixes

/-- Bytes written from an address on. -/
def Memory.load (m : Memory) : Word → List Byte → Memory
  | _, [] => m
  | a, b :: rest => Memory.load (m.write a.toNat b) (a + 1) rest

/-- The memory map with every one of `n` addresses from `a` on implemented, those it lacks added. -/
def implementAll (s : State) : Word → Nat → List Region
  | _, 0 => s.params.memMap
  | a, n + 1 =>
    if s.implemented a then implementAll s (a + 1) n else ⟨a.toNat, 1⟩ :: implementAll s (a + 1) n

/-- The address width at which there are the `n` addresses from `a` on: the machine's own, or all 32 bits where it is
too narrow for one of them. -/
def widenAlen (s : State) : Word → Nat → Nat
  | _, 0 => s.params.alen
  | a, n + 1 => if a.toNat < 2 ^ s.params.alen then widenAlen s (a + 1) n else 32

/-- The machine able to run the bytes `bs` next: they stand at PC, in implemented memory, and it is neither halted
nor in fault (log 16). -/
def placeAtPc (s : State) (bs : List Byte) : State :=
  { s with
    mem := s.mem.load (s.reg .pc) bs
    params := { s.params with
      alen := widenAlen s (s.reg .pc) bs.length
      memMap := implementAll s (s.reg .pc) bs.length }
    halted := false
    fault := none }

end Sys2Proof.Machine
end

