-- ==== Sys2Proof/Machine/Step.lean ====
section
/-! DEFINITION. One step of the processor (R94). -/

namespace Sys2Proof.Machine

/-- One step: none in fault, none when halted; else decode at PC, advance PC past the instruction, and execute it.
The class check of R94 is the first thing a meaning does: no outcome tells it from one before the advance (log 15). -/
def step (s : State) : Host.Outcome State Fault Refusal :=
  match s.fault with
  | some r => .fault r
  | none =>
    if s.halted then .refused .halted
    else
      match fetch s with
      | .error e => decodeFailure e
      | .ok (i, len) => exec i (s.advancePc len)

/-- The state with a table word, and zeros after it, where `step` fetches its next instruction (log 16). -/
def State.withFetchWord (s : State) (nbits w : Nat) : State := placeAtPc s (tableBytes nbits w)

end Sys2Proof.Machine
end

