-- ==== Sys2Proof/Safety.lean ====
section
/-! DEFINITION. What a run is and where it stands (R161, R184), and the conditions on states and instructions that the statements use. -/

namespace Sys2Proof

/-! ## Spellings (R60 to R84) -/

/-- A register field and its register bytes name a register: `00` r0, `01` r1, `10` pB, and `11` any of the sixteen, r0,
r1 and pB included, by the byte that follows (R70, R71). -/
def namesReg (f : BitVec 2) (bytes : List Byte) (r : Reg) : Prop :=
  (f = 0b00 ∧ bytes = [] ∧ r = .r0) ∨ (f = 0b01 ∧ bytes = [] ∧ r = .r1) ∨ (f = 0b10 ∧ bytes = [] ∧ r = .pB) ∨
  (f = 0b11 ∧ bytes = [r.num.setWidth 8])

/-- Bytes that spell a descriptor other than Scale: its type byte, its register bytes, its immediate (R69, R72 to R84). An
address or a displacement may stand in any number of bytes that holds it. -/
def spellsBody (bytes : List Byte) : Body → Prop
  | .nyb v => bytes = [0b0001#4 ++ v]
  | .imm n v => bytes = typeByte 0b0010 0 n.field :: immBytes v n.bytes
  | .reg r n => ∃ f x, namesReg f x r ∧ bytes = typeByte 0b0011 f n.field :: x
  | .regInd r n => ∃ f x, namesReg f x r ∧ bytes = typeByte 0b0100 f n.field :: x
  | .memInd a => ∃ n : Size, a.toNat < 2 ^ (8 * n.bytes) ∧ bytes = typeByte 0b0101 0 n.field :: immBytes a n.bytes
  | .index r q => ∃ f x g y, namesReg f x r ∧ namesReg g y q ∧ bytes = typeByte 0b0110 f g :: (x ++ y)
  | .disp r d => ∃ f x, ∃ n : Size, namesReg f x r ∧ d.toNat < 2 ^ (8 * n.bytes) ∧
      bytes = typeByte 0b0111 f n.field :: (x ++ immBytes d n.bytes)
  | .abs a => ∃ n : Size, a.toNat < 2 ^ (8 * n.bytes) ∧ bytes = typeByte 0b1000 0 n.field :: immBytes a n.bytes
  | .postInc r v => ∃ f x, namesReg f x r ∧ bytes = typeByte 0b1001 f v.field :: x
  | .preDec r v => ∃ f x, namesReg f x r ∧ bytes = typeByte 0b1010 f v.field :: x
  | .preInc r v => ∃ f x, namesReg f x r ∧ bytes = typeByte 0b1100 f v.field :: x
  | .postDec r v => ∃ f x, namesReg f x r ∧ bytes = typeByte 0b1101 f v.field :: x

/-- Bytes that spell a descriptor; a Scale's second operand follows its own register byte (R82). -/
def spellsDesc (bytes : List Byte) : Desc → Prop
  | .plain b => spellsBody bytes b
  | .scale r s inner => ∃ f x y, namesReg f x r ∧ spellsBody y inner ∧ bytes = typeByte 0b1011 f s.field :: (x ++ y)

/-- Bytes that spell an operand: its descriptor, after one or more sign-extend bytes if it is marked and after none if it
is not (R64, R65). More than 2^32 of them are no spelling (log 13). -/
def spellsOperand (bytes : List Byte) (o : Operand) : Prop :=
  ∃ m y, m ≤ 2 ^ 32 ∧ (o.sx = true ↔ 0 < m) ∧ spellsDesc y o.desc ∧ bytes = List.replicate m 0x01 ++ y

/-- Bytes that spell some operands, one after the other (R60). -/
def spellsOperands (bytes : List Byte) : List Operand → Prop
  | [] => bytes = []
  | o :: rest => ∃ x y, spellsOperand x o ∧ spellsOperands y rest ∧ bytes = x ++ y

/-- Bytes that spell an instruction: its opcode byte, its operands, and the null byte if they are fewer than the opcode
takes (R60 to R63). -/
def spells (bytes : List Byte) (i : Instr) : Prop :=
  ∃ x, spellsOperands x i.operands ∧ bytes = i.opcodeByte :: (x ++ i.terminator)

/-! ## Operand bytes without a meaning (R68, R71, R85) -/

/-- The address modes whose first field names a register, but for Scale (R69). -/
def regModes : List (BitVec 4) := [0b0011, 0b0100, 0b0110, 0b0111, 0b1001, 0b1010, 0b1100, 0b1101]

/-- The address modes whose first field is fixed at `00` (R68). -/
def fixedModes : List (BitVec 4) := [0b0010, 0b0101, 0b1000]

/-- A register field that asks for a register byte whose high nibble is not 0 (R71). -/
def badReg (src : Source) (f : BitVec 2) (p : Nat) : Prop := f = 0b11 ∧ ∃ b, src p = some b ∧ modeBits b ≠ 0

/-- A register field whose register byte, if it asks for one, is in order; the bytes after it start at `q` (R70, R71). -/
def regThen (src : Source) (f : BitVec 2) (p q : Nat) : Prop :=
  (f ≠ 0b11 ∧ q = p) ∨ (f = 0b11 ∧ q = p + 1 ∧ ∃ b, src p = some b ∧ modeBits b = 0)

/-- A type byte `b` that, with the bytes from `p` on, has no meaning, and the reason: an undefined mode, a fixed field
that is not `00`, or a register byte that names no register (R68, R71, R85). -/
def badBody (src : Source) (b : Byte) (p : Nat) (e : DecodeError) : Prop :=
  (e = .undefinedMode ∧ (modeBits b = 0b1110 ∨ modeBits b = 0b1111)) ∨
  (e = .reservedEncoding ∧
    ((modeBits b ∈ fixedModes ∧ field1 b ≠ 0) ∨
     (modeBits b ∈ regModes ∧ badReg src (field1 b) p) ∨
     (modeBits b = 0b0110 ∧ ∃ q, regThen src (field1 b) p q ∧ badReg src (field2 b) q)))

end Sys2Proof

namespace Sys2Proof.Machine

/-- A run that has finished: halted, and not in fault (R184). -/
abbrev State.finished (s : State) : Prop := s.halted = true ∧ s.fault = none

/-- A run in fault (R161, R184). -/
abbrev State.inFault (s : State) : Prop := s.fault ≠ none

/-- A state that has a next step, unless the step faults: neither finished nor in fault (R184). -/
abbrev State.running (s : State) : Prop := s.halted = false ∧ s.fault = none

/-- The state a step leaves behind: its next state, or the same state with the fault on record. After a fault of
decoding or of the class check that is what R161 says; after a later fault it is a state no claim may read (log 10). -/
def settle (s : State) : State :=
  match step s with
  | .next t => t
  | .fault r => s.raise r
  | .refused _ => s

/-- Every address is implemented: `MEM_MAP` is all 2^32 addresses (R47). -/
def State.wholeMap (s : State) : Prop := ∀ a : Word, s.implemented a = true

/-- What the form of an instruction asks of each of its operands, in order (R89 and the forms of each instruction). -/
def requirements : Instr → List (Operand × Requirement)
  | .hlt => []
  | .nop => []
  | .clr a => [(a, .regOrMem)]
  | .dmp a => [(a, .any)]
  | .out (.one a) => [(a, .any)]
  | .out (.two a b) => [(a, .any), (b, .any)]
  | .add ops => binRequirements ops
  | .sub ops => binRequirements ops
  | .mul ops => mulRequirements ops
  | .div (.two a b) => [(a, .any), (b, .any)]
  | .div (.three a b c) => [(a, .regOrMem), (b, .any), (c, .any)]
  | .div (.four a b c d) => [(a, .regOrMem), (b, .regOrMem), (c, .any), (d, .any)]
  | .mod a b c => [(a, .regOrMem), (b, .any), (c, .any)]
  | .and ops => binRequirements ops
  | .or ops => binRequirements ops
  | .xor ops => binRequirements ops
  | .cmp (.one a) => [(a, .regOrMem)]
  | .cmp (.two a b) => [(a, .regOrMem), (b, .any)]
  | .inc a => [(a, .regOrMem)]
  | .dec a => [(a, .regOrMem)]
  | .mov a b => [(a, .regOrMem), (b, .any)]
  | .swp a b => [(a, .regOrMem), (b, .regOrMem)]
  | .cpy (.two a b) => [(a, .mem), (b, .mem)]
  | .cpy (.three a b c) => [(a, .mem), (b, .mem), (c, .any)]
  | .cpy (.four a b c d) => [(a, .mem), (b, .mem), (c, .any), (d, .any)]
  | .jmp a => [(a, .mem)]
  | .jal a => [(a, .mem)]
  | .ret => []
  | .beq ops => branchRequirements .any ops
  | .bne ops => branchRequirements .any ops
  | .bgt ops => branchRequirements .any ops
  | .bge ops => branchRequirements .any ops
  | .bie ops => branchRequirements .regOrMem ops
  | .bde ops => branchRequirements .regOrMem ops
  | .bao a => [(a, .mem)]
  | .bac a => [(a, .mem)]
  | .unspecified _ => []
where
  /-- The ADD operand forms (R110). -/
  binRequirements : TwoOrThree → List (Operand × Requirement)
    | .two a b => [(a, .regOrMem), (b, .any)]
    | .three a b c => [(a, .regOrMem), (b, .any), (c, .any)]
  /-- The MUL operand forms (R113). -/
  mulRequirements : TwoToFour → List (Operand × Requirement)
    | .two a b => [(a, .regOrMem), (b, .any)]
    | .three a b c => [(a, .regOrMem), (b, .any), (c, .any)]
    | .four a b c d => [(a, .regOrMem), (b, .regOrMem), (c, .any), (d, .any)]
  /-- The branch operand forms (R143, R148). -/
  branchRequirements (q : Requirement) : TwoOrThree → List (Operand × Requirement)
    | .two a t => [(a, q), (t, .mem)]
    | .three a b t => [(a, q), (b, .any), (t, .mem)]

/-- The class check of an instruction (R89), the rule that a 2-operand DIV has not two immediates included (R114). -/
def classCheck (p : Params) (i : Instr) : Except Fault Unit := do
  checkOperands p (requirements i)
  match i with
  | .div (.two a b) => if isImm p a && isImm p b then .error .operandClass else .ok ()
  | _ => .ok ()

/-- The register that an address mode other than Scale writes (R23, R80, R81, R83, R84). -/
def bodyModifies : Body → List Reg
  | .postInc r _ => [r]
  | .preDec r _ => [r]
  | .preInc r _ => [r]
  | .postDec r _ => [r]
  | .nyb _ | .imm _ _ | .reg _ _ | .regInd _ _ | .memInd _ | .index _ _ | .disp _ _ | .abs _ => []

/-- The registers that an operand's own address mode writes; for Scale those that `SCALE_RESOLVE` names, where it is
given (R23, R82, R86). -/
def modifiedRegs (o : Operand) : List Reg :=
  match o.desc with
  | .plain b => bodyModifies b
  | .scale r n inner => Config.scaleWrites r n inner

/-- The operands of an instruction resolved in the order they stand in it (R86). -/
def resolveAll : List Operand → State → Except Fault (List Location × State)
  | [], s => .ok ([], s)
  | o :: rest, s => do
    let (l, s) ← resolve o s
    let (ls, s) ← resolveAll rest s
    .ok (l :: ls, s)

/-- Whether a store to a location writes the byte at an address. -/
def coversByte (l : Location) (x : Word) : Prop :=
  match l.place with
  | .mem a n => ∃ k < n.bytes, x = a + BitVec.ofNat 32 k
  | .reg _ _ => False
  | .imm _ _ => False

/-- Whether a store to a location writes a register. -/
def coversReg (l : Location) (q : Reg) : Prop :=
  match l.place with
  | .reg r _ => r = q
  | .mem _ _ => False
  | .imm _ _ => False

/-- The locations among the answers of a resolution; none if it faults. -/
def placesOf {α : Type} (r : Except Fault α) (f : α → List Location) : List Location :=
  match r with
  | .ok x => f x
  | .error _ => []

/-- The locations an instruction stores to through its operands, by the resolution its meaning makes. JAL, RET and CPY
store otherwise and have none. -/
def destinations (i : Instr) (s : State) : List Location :=
  match i with
  | .clr a => placesOf (resolve a s) fun x => [x.1]
  | .add ops => placesOf (resolveBin ops s) fun x => [x.1.dst]
  | .sub ops => placesOf (resolveBin ops s) fun x => [x.1.dst]
  | .mul ops => placesOf (resolveMul ops s) fun x => x.1.dst :: x.1.ovf.toList
  | .div ops => placesOf (resolveDiv ops s) fun x => x.1.quotient.toList ++ x.1.remainder
  | .mod a b c => placesOf (resolve3 a b c s) fun x => [x.1]
  | .and ops => placesOf (resolveBin ops s) fun x => [x.1.dst]
  | .or ops => placesOf (resolveBin ops s) fun x => [x.1.dst]
  | .xor ops => placesOf (resolveBin ops s) fun x => [x.1.dst]
  | .cmp ops => placesOf (resolveCmp ops s) fun x => [x.1]
  | .inc a => placesOf (resolve a s) fun x => [x.1]
  | .dec a => placesOf (resolve a s) fun x => [x.1]
  | .mov a b => placesOf (resolve2 a b s) fun x => [x.1]
  | .swp a b => placesOf (resolve2 a b s) fun x => [x.1, x.2.1]
  | .bie ops => placesOf (resolveBranch .regOrMem ops s) fun x => [x.1.src1]
  | .bde ops => placesOf (resolveBranch .regOrMem ops s) fun x => [x.1.src1]
  | .hlt | .nop | .dmp _ | .out _ | .cpy _ | .jmp _ | .jal _ | .ret | .beq _ | .bne _ | .bgt _ | .bge _ | .bao _
  | .bac _ | .unspecified _ => []

/-- The divisor that a DIV or a MOD reads; none for another instruction, or where it cannot be read (R114, R115). -/
def divisor (i : Instr) (s : State) : Option Word :=
  match i with
  | .div ops =>
    match resolveDiv ops s with
    | .ok (l, s) => (val l.src2 s).toOption
    | .error _ => none
  | .mod a b c =>
    match resolve3 a b c s with
    | .ok (_, _, l, s) => (val l s).toOption
    | .error _ => none
  | _ => none

/-- The instructions that write the two flags: opcodes 0x10 to 0x1A, BIE and BDE (R27). -/
def writesFlags : Instr → Bool
  | .add _ | .sub _ | .mul _ | .div _ | .mod _ _ _ | .and _ | .or _ | .xor _ | .cmp _ | .inc _ | .dec _ | .bie _
  | .bde _ => true
  | .hlt | .nop | .clr _ | .dmp _ | .out _ | .mov _ _ | .swp _ _ | .cpy _ | .jmp _ | .jal _ | .ret | .beq _ | .bne _
  | .bgt _ | .bge _ | .bao _ | .bac _ | .unspecified _ => false

/-- The instructions that may assign PC as their own effect, not through a destination operand (R23). -/
def mayJump : Instr → Bool
  | .jmp _ | .jal _ | .ret | .beq _ | .bne _ | .bgt _ | .bge _ | .bie _ | .bde _ | .bao _ | .bac _ => true
  | .hlt | .nop | .clr _ | .dmp _ | .out _ | .add _ | .sub _ | .mul _ | .div _ | .mod _ _ _ | .and _ | .or _ | .xor _
  | .cmp _ | .inc _ | .dec _ | .mov _ _ | .swp _ _ | .cpy _ | .unspecified _ => false

/-- The instructions that store nothing to memory in any form (R46). -/
def storesNothing : Instr → Bool
  | .hlt | .nop | .dmp _ | .out _ | .jmp _ | .ret | .beq _ | .bne _ | .bgt _ | .bge _ | .bao _ | .bac _
  | .unspecified _ => true
  | .clr _ | .add _ | .sub _ | .mul _ | .div _ | .mod _ _ _ | .and _ | .or _ | .xor _ | .cmp _ | .inc _ | .dec _
  | .mov _ _ | .swp _ _ | .cpy _ | .jal _ | .bie _ | .bde _ => false

/-- What FLAG_WRITE is given: the operation, two values, and the size of the destination (R27). -/
structure FlagInputs where
  op : FlagOp
  a : Word
  b : Word
  size : Size
deriving DecidableEq, Repr

/-- The inputs of FLAG_WRITE from two values that may not be readable. -/
def flagInputsOf (op : FlagOp) (a b : Except Fault Word) (n : Size) : Option FlagInputs :=
  match a, b with
  | .ok a, .ok b => some ⟨op, a, b, n⟩
  | .ok _, .error _ => none
  | .error _, .ok _ => none
  | .error _, .error _ => none

/-- What an instruction gives FLAG_WRITE: its operation, the values its rule names, read after all its operands are
resolved, and the size of its destination (R111 to R121, R148, R149); none for an instruction that does not write the
flags, or where its operands do not resolve or its values cannot be read. -/
def flagInputs (i : Instr) (s : State) : Option FlagInputs :=
  match i with
  | .add ops => bin .add ops
  | .sub ops => bin .sub ops
  | .mul ops =>
    match resolveMul ops s with
    | .ok (l, u) => flagInputsOf .mul (val l.src1 u) (val l.src2 u) (destSize l.dst)
    | .error _ => none
  | .div ops =>
    match resolveDiv ops s with
    | .ok (l, u) => flagInputsOf .div (val l.src1 u) (val l.src2 u) (quotientSize l.quotient)
    | .error _ => none
  | .mod a b c =>
    match resolve3 a b c s with
    | .ok (d, l, r, u) => flagInputsOf .mod (val l u) (val r u) (destSize d)
    | .error _ => none
  | .and ops => bin .and ops
  | .or ops => bin .or ops
  | .xor ops => bin .xor ops
  | .cmp ops =>
    match resolveCmp ops s with
    | .ok (d, l, u) => flagInputsOf .cmp (val l u) (.ok 0) (destSize d)
    | .error _ => none
  | .inc a => unary .inc a
  | .dec a => unary .dec a
  | .bie ops => loop .bie ops
  | .bde ops => loop .bde ops
  | .hlt | .nop | .clr _ | .dmp _ | .out _ | .mov _ _ | .swp _ _ | .cpy _ | .jmp _ | .jal _ | .ret | .beq _ | .bne _
  | .bgt _ | .bge _ | .bao _ | .bac _ | .unspecified _ => none
where
  /-- The ADD operand forms (R110). -/
  bin (op : FlagOp) (ops : TwoOrThree) : Option FlagInputs :=
    match resolveBin ops s with
    | .ok (l, u) => flagInputsOf op (val l.src1 u) (val l.src2 u) (destSize l.dst)
    | .error _ => none
  /-- INC and DEC (R120, R121). -/
  unary (op : FlagOp) (a : Operand) : Option FlagInputs :=
    match resolve a s with
    | .ok (l, u) => flagInputsOf op (val l u) (.ok 1) (destSize l)
    | .error _ => none
  /-- BIE and BDE (R148, R149). -/
  loop (op : FlagOp) (ops : TwoOrThree) : Option FlagInputs :=
    match resolveBranch .regOrMem ops s with
    | .ok (l, u) => flagInputsOf op (val l.src1 u) (.ok 1) (destSize l.src1)
    | .error _ => none

/-- The locations whose data an instruction reads with `Val`, given where its operands are, in order (R103, R104,
R110 to R121, R130 to R132, R143 to R149). The bytes a CPY moves are not among them. -/
def sources (i : Instr) (ls : List Location) : List Location :=
  match i with
  | .dmp _ | .out _ | .swp _ _ | .inc _ | .dec _ => ls
  | .add ops | .sub ops | .and ops | .or ops | .xor ops =>
    match ops with
    | .two _ _ => ls
    | .three _ _ _ => ls.drop 1
  | .mul ops | .div ops =>
    match ops with
    | .two _ _ => ls
    | .three _ _ _ => ls.drop 1
    | .four _ _ _ _ => ls.drop 2
  | .mod _ _ _ => ls.drop 1
  | .cmp ops =>
    match ops with
    | .one _ => ls
    | .two _ _ => ls.drop 1
  | .mov _ _ => ls.drop 1
  | .cpy _ => ls.drop 2
  | .beq _ | .bne _ | .bgt _ | .bge _ | .bie _ | .bde _ => ls.dropLast
  | .hlt | .nop | .clr _ | .jmp _ | .jal _ | .ret | .bao _ | .bac _ | .unspecified _ => []

/-- The bytes that a copy reads one after the other from the lowest address up: byte `k` is what memory held, or, where
the copy itself has written its address before, what the last such write put there (R132, R133). -/
abbrev copyReads (dst src : Word) (n : Nat) (s : State) (b : Nat → Byte) : Prop :=
  ∀ k < n,
    ((∀ j < k, dst + BitVec.ofNat 32 j ≠ src + BitVec.ofNat 32 k) → b k = s.byteAt (src + BitVec.ofNat 32 k)) ∧
    ∀ j < k, dst + BitVec.ofNat 32 j = src + BitVec.ofNat 32 k →
      (∀ m < k, j < m → dst + BitVec.ofNat 32 m ≠ src + BitVec.ofNat 32 k) → b k = b j

/-- What memory holds after bytes have been written one after the other from the lowest address up: at each address the
last byte written there, elsewhere what it held (R132, R133). -/
abbrev copyWrites (dst : Word) (n : Nat) (s t : State) (b : Nat → Byte) : Prop :=
  (∀ k < n, (∀ m < n, k < m → dst + BitVec.ofNat 32 m ≠ dst + BitVec.ofNat 32 k) →
    t.byteAt (dst + BitVec.ofNat 32 k) = b k) ∧
  ∀ x, (∀ k < n, x ≠ dst + BitVec.ofNat 32 k) → t.byteAt x = s.byteAt x

/-- What holds of every state a run goes through: memory is in its canonical form and no fault is on record. -/
def State.Inv (s : State) : Prop := s.mem.wf ∧ s.fault = none

end Sys2Proof.Machine
end

