-- ==== Sys2Proof/Certificates/Slice0/Obligations.lean ====
section
/-! DEFINITION. The statements for the provers, from the spec's numbered rules. A rule's number stands in the docstring
of the statement that rests on it. Where the spec marks a point of such a rule as its own decision (D<n> of
92_eei_decisions.md), the docstring names the decision, and the statement's basis is 'derived' (log 17). -/

open Sys2Proof Sys2Proof.Machine

/-! ## Decoding and encoding -/

/-- R60, R63, R64, R69 to R84: the decoder reads every spelling of a well-formed instruction back, with every operand at
every value, and takes exactly its bytes, whatever follows them: a register byte where a field would do, an address
or a displacement in more bytes than it needs, a sign-extend byte more than once (at most 2^32 times, log 13). The
encoder's bytes are one of the spellings; which is the model's choice (log 14).
[spec's decisions: D1 to D4, D14, D36] -/
def Obligations.DecodeOfEncodeIsTheInstruction : Prop :=
  (∀ (i : Instr) (bytes rest : List Byte), i.wf = true → spells bytes i →
    decodeBytes (bytes ++ rest) = .ok (i, bytes.length)) ∧
  ∀ (i : Instr) (rest : List Byte), i.wf = true →
    spells (encode i) i ∧ decodeBytes (encode i ++ rest) = .ok (i, (encode i).length)

/-- R60, R63, R64, R69 to R84: whatever decodes is a well-formed instruction, and the bytes counted in its length could
all be read and spell it. [spec's decisions: D1 to D4, D14] -/
def Obligations.DecodedInstructionIsWellFormed : Prop :=
  ∀ (src : Source) (i : Instr) (n : Nat), decode src = .ok (i, n) →
    i.wf = true ∧ ∃ bytes : List Byte, bytes.length = n ∧ spells bytes i ∧ ∀ k < n, src k = bytes[k]?

/-- R93: the spec's worked encodings, byte for byte. [spec's decisions: D1 to D4, D6, D14] -/
def Obligations.WorkedEncodingsDecode : Prop :=
  let o : Body → Operand := fun b => ⟨false, .plain b⟩
  decodeBytes [0x00] = .ok (.hlt, 1) ∧
  decodeBytes [0x02, 0x33] = .ok (.clr (o (.reg .r0 .b4)), 2) ∧
  decodeBytes [0x04, 0x37, 0x00] = .ok (.out (.one (o (.reg .r1 .b4))), 3) ∧
  decodeBytes [0x04, 0x37, 0x11] = .ok (.out (.two (o (.reg .r1 .b4)) (o (.nyb 1))), 3) ∧
  decodeBytes [0x10, 0x33, 0x37, 0x00] = .ok (.add (.two (o (.reg .r0 .b4)) (o (.reg .r1 .b4))), 4) ∧
  decodeBytes [0x10, 0x33, 0x33, 0x11] =
    .ok (.add (.three (o (.reg .r0 .b4)) (o (.reg .r0 .b4)) (o (.nyb 1))), 4) ∧
  decodeBytes [0x20, 0x3F, 0x0E, 0x20, 0x80] = .ok (.mov (o (.reg .pS .b4)) (o (.imm .b1 0x80)), 5) ∧
  decodeBytes [0x20, 0x33, 0x01, 0x40] =
    .ok (.mov (o (.reg .r0 .b4)) ⟨true, .plain (.regInd .r0 .b1)⟩, 4) ∧
  decodeBytes [0x31, 0x80, 0x05] = .ok (.jmp (o (.abs 5)), 3) ∧
  decodeBytes [0x34, 0x37, 0x80, 0x12, 0x00] = .ok (.beq (.two (o (.reg .r1 .b4)) (o (.abs 0x12))), 5) ∧
  decodeBytes [0x20, 0x6F, 0x02, 0x03, 0x7F, 0x0E, 0x10, 0x00, 0x00, 0x00] =
    .ok (.mov (o (.index .r2 .r3)) (o (.disp .pS 0x10)), 10)

/-- R90, R106: the thirty opcode bytes, each the byte of its opcode and found by it; the bytes that are none of them are
the unspecified ones. [spec's decisions: D14] -/
def Obligations.OpcodeMapIsComplete : Prop :=
  let table : List (Opcode × Byte) :=
    [(.hlt, 0x00), (.nop, 0x01), (.clr, 0x02), (.dmp, 0x03), (.out, 0x04),
     (.add, 0x10), (.sub, 0x11), (.mul, 0x12), (.div, 0x13), (.mod, 0x14), (.and, 0x15), (.or, 0x16), (.xor, 0x17),
     (.cmp, 0x18), (.inc, 0x19), (.dec, 0x1A),
     (.mov, 0x20), (.swp, 0x21), (.cpy, 0x22),
     (.jmp, 0x31), (.jal, 0x32), (.ret, 0x33), (.beq, 0x34), (.bne, 0x35), (.bgt, 0x36), (.bge, 0x37), (.bie, 0x38),
     (.bde, 0x39), (.bao, 0x3A), (.bac, 0x3B)]
  (∀ p ∈ table, p.1.byte = p.2 ∧ Opcode.ofByte p.2 = some p.1) ∧
  (∀ o : Opcode, o ∈ table.map Prod.fst) ∧
  ∀ b : Byte, (Opcode.ofByte b = none ↔ b ∉ table.map Prod.snd) ∧ (Opcode.ofByte b = none ↔ isUnspecified b = true)

/-- R62, R63: an operand list whose length is one of the opcode's forms makes that opcode's instruction with those
operands; any other length is `OperandCount`. [spec's decisions: D14] -/
def Obligations.OperandCountDecides : Prop :=
  ∀ (src : Source) (o : Opcode) (ops : List Operand) (p : Nat),
    src 0 = some o.byte → decodeOperands src o.maxOps 1 = .ok (ops, p) →
    (ops.length ∈ o.forms → ∃ i, decode src = .ok (i, p) ∧ i.head = .defined o ∧ i.operands = ops) ∧
    (ops.length ∉ o.forms → decode src = .error .operandCount)

/-- R64, R65: a null byte where an operand would start ends the list; a type byte without a mark is an unmarked
operand; after one or more 0x01 bytes (at most 2^32: the model's bound, log 13) the operand is marked, and repeating the
byte changes nothing else. [spec's decisions: D14, D36] -/
def Obligations.OperandSlotShapes : Prop :=
  ∀ (src : Source) (p : Nat),
    (src p = some 0x00 → decodeSlot src p = .ok (none, p + 1)) ∧
    (∀ b, src p = some b → modeBits b ≠ 0 →
      decodeSlot src p = (decodeDesc src b (p + 1)).map fun x => (some ⟨false, x.1⟩, x.2)) ∧
    (∀ m b, 1 ≤ m → m ≤ 2 ^ 32 → (∀ k < m, src (p + k) = some 0x01) → src (p + m) = some b → modeBits b ≠ 0 →
      decodeSlot src p = (decodeDesc src b (p + m + 1)).map fun x => (some ⟨true, x.1⟩, x.2))

/-- R64, R65, R68, R71, R82, R85: the bytes of an operand slot that have no meaning, and the reason each gives, after any
number of sign-extend bytes (at most 2^32, log 13): a reserved control code; a null byte after a sign-extend byte; a
type byte that has no meaning itself or by its register bytes; a Scale whose register byte names no register; and a
Scale whose second operand is null, a control code or a Scale, or has no meaning. [spec's decisions: D3, D11, D36] -/
def Obligations.ReservedOperandBytesFault : Prop :=
  ∀ (src : Source) (p m : Nat) (b : Byte), m ≤ 2 ^ 32 → (∀ k < m, src (p + k) = some 0x01) → src (p + m) = some b →
    (modeBits b = 0 → 2 ≤ (lowNibble b).toNat → decodeSlot src p = .error .reservedControlCode) ∧
    (1 ≤ m → b = 0x00 → decodeSlot src p = .error .malformedOperand) ∧
    (∀ e, badBody src b (p + m + 1) e → decodeSlot src p = .error e) ∧
    (modeBits b = 0b1011 →
      (badReg src (field1 b) (p + m + 1) → decodeSlot src p = .error .reservedEncoding) ∧
      ∀ q c, regThen src (field1 b) (p + m + 1) q → src q = some c →
        (modeBits c = 0 ∨ modeBits c = 0b1011 → decodeSlot src p = .error .malformedOperand) ∧
        (∀ e, badBody src c (q + 1) e → decodeSlot src p = .error e))

/-! ## The step -/

/-- R24, R94: a step of a running machine is the decoded instruction executed after PC has advanced past it, and the
advance changes nothing else. [spec's decisions: D15, D16] -/
def Obligations.StepRunsTheDecodedInstruction : Prop :=
  ∀ (s : State) (i : Instr) (len : Nat), s.running → fetch s = .ok (i, len) →
    step s = exec i (s.advancePc len) ∧
    (s.advancePc len).reg .pc = s.reg .pc + BitVec.ofNat 32 len ∧
    (∀ q, q ≠ .pc → (s.advancePc len).reg q = s.reg q) ∧
    s.advancePc len = { s with regs := (s.advancePc len).regs }

/-- R63, R94: where the bytes of a well-formed instruction stand at PC, in implemented memory, a step runs it.
[spec's decisions: D15, D16] -/
def Obligations.EncodedInstructionAtPcRuns : Prop :=
  ∀ (s : State) (i : Instr), s.running → i.wf = true →
    (∀ k < (encode i).length, s.implemented (s.reg .pc + BitVec.ofNat 32 k) = true ∧
      (encode i)[k]? = some (s.byteAt (s.reg .pc + BitVec.ofNat 32 k))) →
    step s = exec i (s.advancePc (encode i).length)

/-- R94, R160, R184: a machine in fault stays in that fault, and a halted one takes no step. That the second is a
refusal is the model's choice (log 11). [spec's decisions: D27] -/
def Obligations.HaltedOrFaultedTakesNoStep : Prop :=
  ∀ s : State,
    (∀ r, s.fault = some r → step s = .fault r) ∧
    (s.fault = none → s.halted = true → step s = .refused .halted)

/-- R63, R89, R160, R161: each decode error is the fault of its name, an unreadable byte is `MemoryAccess`, and a class
check that fails is `OperandClass` or `ScaleUnmodelled`, whatever the state. The step then has no next state; that
`settle` gives the same state with the fault on record is the model's way to say R161 (log 10).
[spec's decisions: D12, D14, D30, D36] -/
def Obligations.EarlyFaultsGoByTheirNames : Prop :=
  ∀ s : State, s.running →
    (∀ e r, (e, r) ∈
        [(DecodeError.operandCount, Fault.operandCount), (.malformedOperand, .malformedOperand),
         (.reservedControlCode, .reservedControlCode), (.reservedEncoding, .reservedEncoding),
         (.undefinedMode, .undefinedMode), (.unreadable, .memoryAccess)] →
      fetch s = .error e → step s = .fault r ∧ settle s = { s with fault := some r }) ∧
    (∀ i len r, fetch s = .ok (i, len) → classCheck s.params i = .error r →
      (r = .operandClass ∨ r = .scaleUnmodelled) ∧ step s = .fault r ∧ settle s = { s with fault := some r })

/-- R82, R89: an instruction faults with `OperandClass` or `ScaleUnmodelled` exactly when its class check says so, whatever
the state; in particular no store and no jump meets an operand of another class (log 19). Operands are checked in
order, and the first that fails gives the reason: `OperandClass` for a class that the form does not list, and
`ScaleUnmodelled` for a Scale operand in any slot where `SCALE_RESOLVE` is not given; where it is, a Scale operand has
the class of its result (log 9). [spec's decisions: D11, D12, D47] -/
def Obligations.ClassFaultIsTheClassCheck : Prop :=
  (∀ (i : Instr) (s : State) (r : Fault), r = .operandClass ∨ r = .scaleUnmodelled →
    (exec i s = .fault r ↔ classCheck s.params i = .error r)) ∧
  (∀ (P : Params) (before after : List (Operand × Requirement)) (o : Operand) (q : Requirement),
    (∀ x ∈ before, checkOperand P x.1 x.2 = .ok ()) →
    (operandClass P o = none → checkOperands P (before ++ (o, q) :: after) = .error .scaleUnmodelled) ∧
    (∀ c, operandClass P o = some c → meets c q = false →
      checkOperands P (before ++ (o, q) :: after) = .error .operandClass)) ∧
  ∀ (P : Params) (sx : Bool) (r : Reg) (n : Size) (inner : Body) (b : Body),
    operandClass P ⟨sx, .plain b⟩ = some (bodyClass b) ∧
    (P.scaleRule = .refuse → operandClass P ⟨sx, .scale r n inner⟩ = none) ∧
    (P.scaleRule = .given → operandClass P ⟨sx, .scale r n inner⟩ = some (Config.scaleClass r n inner))

/-- R29, R133, R184: the only steps that are refused are those of a halted machine and of a CPY that never ends. No
instruction lacks a meaning, and no fetch meets an endless run of sign-extend bytes (log 12, log 13).
[spec's decisions: D27, D29] -/
def Obligations.RefusalsAreHaltOrEndlessCopy : Prop :=
  ∀ (s : State) (r : Refusal), step s = .refused r →
    s.fault = none ∧
    ((r = .halted ∧ s.halted = true) ∨
     (r = .copyNeverEnds ∧ s.halted = false ∧ ∃ ops len, fetch s = .ok (.cpy ops, len)))

/-! ## Memory -/

/-- R41: the byte at the lowest address is the least significant; an address outside `MEM_MAP` is `MemoryAccess`. -/
def Obligations.MemReadIsLittleEndian : Prop :=
  ∀ (s : State) (a : Word),
    (s.implemented a = true → memRead a 1 s = .ok ((s.byteAt a).setWidth 32)) ∧
    (s.implemented a = true → s.implemented (a + 1) = true →
      memRead a 2 s = .ok ((s.byteAt (a + 1) ++ s.byteAt a).setWidth 32)) ∧
    (s.implemented a = true → s.implemented (a + 1) = true → s.implemented (a + 2) = true →
      memRead a 3 s = .ok ((s.byteAt (a + 2) ++ s.byteAt (a + 1) ++ s.byteAt a).setWidth 32)) ∧
    (s.implemented a = true → s.implemented (a + 1) = true → s.implemented (a + 2) = true →
      s.implemented (a + 3) = true →
      memRead a 4 s = .ok (s.byteAt (a + 3) ++ s.byteAt (a + 2) ++ s.byteAt (a + 1) ++ s.byteAt a)) ∧
    (∀ n k, n ≤ 4 → k < n → s.implemented (a + BitVec.ofNat 32 k) = false → memRead a n s = .error .memoryAccess)

/-- R42: each byte of the value goes to its address, every other byte and everything but memory stays; an address outside
`MEM_MAP` is `MemoryAccess`. -/
def Obligations.MemWriteIsLittleEndian : Prop :=
  ∀ (s : State) (a v : Word) (n : Nat), 1 ≤ n → n ≤ 4 →
    ((∀ k < n, s.implemented (a + BitVec.ofNat 32 k) = true) →
      ∃ t, memWrite a n v s = .ok t ∧
        (∀ k < n, t.byteAt (a + BitVec.ofNat 32 k) = v.extractLsb' (8 * k) 8) ∧
        (∀ x, (∀ k < n, x ≠ a + BitVec.ofNat 32 k) → t.byteAt x = s.byteAt x) ∧
        t = { s with mem := t.mem }) ∧
    (∀ k < n, s.implemented (a + BitVec.ofNat 32 k) = false → memWrite a n v s = .error .memoryAccess)

/-- R52: a byte that has been stored is what the next fetch of its address reads. [spec's decisions: D32] -/
def Obligations.StoredByteIsFetched : Prop :=
  ∀ (s t : State) (a v : Word) (n k j : Nat), n ≤ 4 → memWrite a n v s = .ok t → k < n →
    t.reg .pc + BitVec.ofNat 32 j = a + BitVec.ofNat 32 k →
    fetchSource t j = some (v.extractLsb' (8 * k) 8)

/-- R42, R47: an address is implemented when it is one of the 2^ALEN and `MEM_MAP` holds it; no step changes a byte at
another. That an address of 2^ALEN or more is then unimplemented, and not cut to ALEN bits, is the model's choice
(log 18); at ALEN 32 there is none. [spec's decisions: D17] -/
def Obligations.UnimplementedMemoryNeverChanges : Prop :=
  (∀ (s : State) (x : Word), s.implemented x = true ↔
    x.toNat < 2 ^ s.params.alen ∧ ∃ r ∈ s.params.memMap, r.base ≤ x.toNat ∧ x.toNat < r.base + r.size) ∧
  ∀ (s t : State) (x : Word), step s = .next t → s.implemented x = false → t.byteAt x = s.byteAt x

/-! ## Operands -/

/-- R72 to R75, R77 to R81, R83, R84, R86: the place each address mode gives and the register it writes; R76 for the
pointer of Memory Indirect; R82 for Scale, refused without `SCALE_RESOLVE` and else what that parameter answers
(log 9); and the effective address and the size of a location (a nybble immediate has none).
[spec's decisions: D6 to D11, D13, D15, D16, D43] -/
def Obligations.AddressModesResolve : Prop :=
  ∀ (sx : Bool) (s : State) (r r' : Reg) (n : Size) (a v : Word) (y : BitVec 4) (inner : Body),
    let o : Body → Operand := fun b => ⟨sx, .plain b⟩
    let k : Word := BitVec.ofNat 32 n.bytes
    resolve (o (.nyb y)) s = .ok (⟨sx, .imm 4 (y.setWidth 32)⟩, s) ∧
    resolve (o (.imm n v)) s = .ok (⟨sx, .imm (8 * n.bytes) v⟩, s) ∧
    resolve (o (.reg r n)) s = .ok (⟨sx, .reg r n⟩, s) ∧
    resolve (o (.regInd r n)) s = .ok (⟨sx, .mem (s.reg r) n⟩, s) ∧
    (∀ w, memRead a 4 s = .ok w → resolve (o (.memInd a)) s = .ok (⟨sx, .mem w .b4⟩, s)) ∧
    (∀ f, memRead a 4 s = .error f → resolve (o (.memInd a)) s = .error f) ∧
    resolve (o (.index r r')) s = .ok (⟨sx, .mem (s.reg r + s.reg r') .b4⟩, s) ∧
    resolve (o (.disp r v)) s = .ok (⟨sx, .mem (s.reg r + v) .b4⟩, s) ∧
    resolve (o (.abs a)) s = .ok (⟨sx, .mem a .b4⟩, s) ∧
    resolve (o (.postInc r n)) s = .ok (⟨sx, .mem (s.reg r) n⟩, s.setReg r (s.reg r + k)) ∧
    resolve (o (.preDec r n)) s = .ok (⟨sx, .mem (s.reg r - k) n⟩, s.setReg r (s.reg r - k)) ∧
    resolve (o (.preInc r n)) s = .ok (⟨sx, .mem (s.reg r + k) n⟩, s.setReg r (s.reg r + k)) ∧
    resolve (o (.postDec r n)) s = .ok (⟨sx, .mem (s.reg r) n⟩, s.setReg r (s.reg r - k)) ∧
    (s.params.scaleRule = .refuse → resolve ⟨sx, .scale r n inner⟩ s = .error .scaleUnmodelled) ∧
    (s.params.scaleRule = .given →
      let x := Config.scaleResolve r n inner s.reg s.byteAt
      ((∀ z ∈ x.reads, s.implemented z = true) →
        resolve ⟨sx, .scale r n inner⟩ s = .ok (⟨sx, scalePlace (Config.scaleClass r n inner) x⟩,
          s.setRegs (Config.scaleWritten r n inner s.reg s.byteAt) (Config.scaleWrites r n inner))) ∧
      (∀ z ∈ x.reads, s.implemented z = false → resolve ⟨sx, .scale r n inner⟩ s = .error .memoryAccess)) ∧
    effectiveAddress ⟨sx, .mem a n⟩ = .ok a ∧
    locSize ⟨sx, .reg r n⟩ = some n ∧ locSize ⟨sx, .mem a n⟩ = some n ∧
    locSize ⟨sx, .imm (8 * n.bytes) v⟩ = some n ∧ locSize ⟨sx, .imm 4 v⟩ = none

/-- R87: the raw bits of a location, extended by zeros, or by sign under the mark. [spec's decisions: D5, D13] -/
def Obligations.ValWidensByTheMark : Prop :=
  (∀ (w : Nat) (raw : Word), w = 4 ∨ w = 8 ∨ w = 16 ∨ w = 24 ∨ w = 32 →
    (widen false w raw).toNat = raw.toNat % 2 ^ w ∧
    (widen true w raw).toInt =
      if raw.toNat % 2 ^ w < 2 ^ (w - 1) then ((raw.toNat % 2 ^ w : Nat) : Int)
      else ((raw.toNat % 2 ^ w : Nat) : Int) - 2 ^ w) ∧
  ∀ (sx : Bool) (s : State) (w : Nat) (v a : Word) (r : Reg) (n : Size),
    val ⟨sx, .imm w v⟩ s = .ok (widen sx w v) ∧
    val ⟨sx, .reg r n⟩ s = .ok (widen sx (8 * n.bytes) (s.reg r)) ∧
    (∀ raw, memRead a n.bytes s = .ok raw → val ⟨sx, .mem a n⟩ s = .ok (widen sx (8 * n.bytes) raw)) ∧
    (∀ f, memRead a n.bytes s = .error f → val ⟨sx, .mem a n⟩ s = .error f)

/-- R88: a store of `n` bytes to a register replaces its low `n` bytes, keeps its others and every other register; a
store to memory is `MemWrite`; the mark has no effect. [spec's decisions: D5, D13] -/
def Obligations.StoreTruncatesToItsLocation : Prop :=
  ∀ (sx : Bool) (s : State) (v a : Word) (r : Reg) (n : Size),
    (∃ t, store ⟨sx, .reg r n⟩ v s = .ok t ∧
      (∀ j, (t.reg r).getLsbD j = if j < 8 * n.bytes then v.getLsbD j else (s.reg r).getLsbD j) ∧
      (∀ q, q ≠ r → t.reg q = s.reg q) ∧ t = { s with regs := t.regs }) ∧
    store ⟨sx, .mem a n⟩ v s = memWrite a n.bytes v s

/-! ## CPU Control -/

/-- R100: HLT, the byte 00, sets `halted`, leaves PC at the byte after it, and is the last step (that a halted machine's
step is a refusal is the model's choice, log 11); it faults only where its byte cannot be fetched. [spec's decisions: D27] -/
def Obligations.HltHalts : Prop :=
  ∀ s : State,
    exec .hlt s = .next { s with halted := true } ∧
    (s.running → s.implemented (s.reg .pc) = true → s.byteAt (s.reg .pc) = 0x00 →
      step s = .next { s.advancePc 1 with halted := true } ∧
      step { s.advancePc 1 with halted := true } = .refused .halted) ∧
    (s.running → s.implemented (s.reg .pc) = false → step s = .fault .memoryAccess)

/-- R101: NOP, the byte 01, advances PC by one and changes nothing else; it faults only where its byte cannot be
fetched. -/
def Obligations.NopOnlyAdvances : Prop :=
  ∀ s : State,
    exec .nop s = .next s ∧
    (s.running → s.implemented (s.reg .pc) = true → s.byteAt (s.reg .pc) = 0x01 →
      step s = .next { s with regs := s.regs.set .pc (s.reg .pc + 1) }) ∧
    (s.running → s.implemented (s.reg .pc) = false → step s = .fault .memoryAccess)

/-- R106: each of the 226 unspecified opcode bytes is an instruction of its own, one byte long, that advances PC by one
and changes nothing else, whatever follows it. [spec's decisions: D14] -/
def Obligations.UnspecifiedOpcodesOnlyAdvance : Prop :=
  (∀ b : Byte, isUnspecified b = true ↔
    b.toNat ∈ List.range' 0x05 11 ++ List.range' 0x1B 5 ++ List.range' 0x23 14 ++ List.range' 0x3C 196) ∧
  ∀ (s : State) (b : Byte),
    exec (.unspecified b) s = .next s ∧
    (s.running → s.implemented (s.reg .pc) = true → s.byteAt (s.reg .pc) = b → isUnspecified b = true →
      step s = .next { s with regs := s.regs.set .pc (s.reg .pc + 1) })

/-- R102: CLR stores 0 to its operand. [spec's decisions: D24] -/
def Obligations.ClrStoresZero : Prop :=
  ∀ (a : Operand) (s s1 t : State) (l : Location),
    checkOperands s.params [(a, .regOrMem)] = .ok () → resolve a s = .ok (l, s1) → store l 0 s1 = .ok t →
    exec (.clr a) s = .next t

/-- R103: DMP appends its operand's value to the trace. [spec's decisions: D24, D28, D46] -/
def Obligations.DmpAppendsToTheTrace : Prop :=
  ∀ (a : Operand) (s s1 : State) (l : Location) (v : Word),
    checkOperands s.params [(a, .any)] = .ok () → resolve a s = .ok (l, s1) → val l s1 = .ok v →
    exec (.dmp a) s = .next { s1 with trace := s.trace ++ [v] }

/-- R104: OUT appends the port and the value to the device output: port 0 in the 1-operand form, else the value of
operand 2. [spec's decisions: D24, D28, D46] -/
def Obligations.OutSendsToItsPort : Prop :=
  (∀ (a : Operand) (s s1 : State) (l : Location) (v : Word),
    checkOperands s.params [(a, .any)] = .ok () → resolve a s = .ok (l, s1) → val l s1 = .ok v →
    exec (.out (.one a)) s = .next { s1 with output := s.output ++ [(0, v)] }) ∧
  (∀ (a b : Operand) (s s1 : State) (l1 l2 : Location) (v port : Word),
    checkOperands s.params [(a, .any), (b, .any)] = .ok () → resolve2 a b s = .ok (l1, l2, s1) →
    val l1 s1 = .ok v → val l2 s1 = .ok port →
    exec (.out (.two a b)) s = .next { s1 with output := s.output ++ [(port, v)] })

/-! ## Basic Arithmetic and Logic -/

/-- R110 to R112, R116 to R118: the result and the flags of ADD, SUB, AND, OR and XOR, in both forms. -/
def Obligations.TwoSourceResults : Prop :=
  ∀ (s s1 t : State) (d l1 l2 : Location) (x y : Word) (ops : TwoOrThree),
    ((∃ a b, ops = .two a b ∧ checkOperands s.params [(a, .regOrMem), (b, .any)] = .ok () ∧
        resolve2 a b s = .ok (l1, l2, s1) ∧ d = l1) ∨
     (∃ a b c, ops = .three a b c ∧ checkOperands s.params [(a, .regOrMem), (b, .any), (c, .any)] = .ok () ∧
        resolve3 a b c s = .ok (d, l1, l2, s1))) →
    val l1 s1 = .ok x → val l2 s1 = .ok y →
    (store d (x + y) s1 = .ok t → exec (.add ops) s = .next (writeFlags .add x y (destSize d) t)) ∧
    (store d (x - y) s1 = .ok t → exec (.sub ops) s = .next (writeFlags .sub x y (destSize d) t)) ∧
    (store d (x &&& y) s1 = .ok t → exec (.and ops) s = .next (writeFlags .and x y (destSize d) t)) ∧
    (store d (x ||| y) s1 = .ok t → exec (.or ops) s = .next (writeFlags .or x y (destSize d) t)) ∧
    (store d (x ^^^ y) s1 = .ok t → exec (.xor ops) s = .next (writeFlags .xor x y (destSize d) t))

/-- R113: MUL in its three forms: the low product to `dst`, and in the 4-operand form the product shifted right by the
destination's width to `ovf`, after it. [spec's decisions: D19, D21, D23, D40, D41] -/
def Obligations.MulResults : Prop :=
  ∀ (s s1 t : State) (d l1 l2 : Location) (x y : Word),
    val l1 s1 = .ok x → val l2 s1 = .ok y →
    let p : BitVec 64 := if s.params.mulDivSigned then BitVec.ofInt 64 (x.toInt * y.toInt)
      else BitVec.ofNat 64 (x.toNat * y.toNat)
    let low : Word := p.setWidth 32
    let high : Word := (p >>> (8 * (destSize d).bytes)).setWidth 32
    (∀ a b, checkOperands s.params [(a, .regOrMem), (b, .any)] = .ok () → resolve2 a b s = .ok (l1, l2, s1) → d = l1 →
      store d low s1 = .ok t → exec (.mul (.two a b)) s = .next (writeFlags .mul x y (destSize d) t)) ∧
    (∀ a b c, checkOperands s.params [(a, .regOrMem), (b, .any), (c, .any)] = .ok () →
      resolve3 a b c s = .ok (d, l1, l2, s1) →
      store d low s1 = .ok t → exec (.mul (.three a b c)) s = .next (writeFlags .mul x y (destSize d) t)) ∧
    (∀ a b c e o s2, checkOperands s.params [(a, .regOrMem), (b, .regOrMem), (c, .any), (e, .any)] = .ok () →
      resolve4 a b c e s = .ok (d, o, l1, l2, s1) →
      store d low s1 = .ok s2 → store o high s2 = .ok t →
      exec (.mul (.four a b c e)) s = .next (writeFlags .mul x y (destSize d) t))

/-- R113, D21: the low word of the product does not depend on signedness, and its two words are the whole product.
[spec's decisions: D21] -/
def Obligations.ProductLaws : Prop :=
  ∀ x y : Word,
    (product true x y).extractLsb' 0 32 = x * y ∧ (product false x y).extractLsb' 0 32 = x * y ∧
    (product true x y).toInt = x.toInt * y.toInt ∧ (product false x y).toNat = x.toNat * y.toNat ∧
    ∀ b : Bool, productHigh (product b x y) .b4 ++ (product b x y).extractLsb' 0 32 = product b x y

/-- R114: DIV in its 2- and 4-operand forms: quotient and remainder go to the operands that are no immediates.
[spec's decisions: D21 to D23, D41, D47] -/
def Obligations.DivTwoAndFourOperandResults : Prop :=
  ∀ (s s1 s2 t : State) (l1 l2 : Location) (x y : Word),
    val l1 s1 = .ok x → val l2 s1 = .ok y → y ≠ 0 →
    let q := (divRem s.params.mulDivSigned x y).1
    let r := (divRem s.params.mulDivSigned x y).2
    (∀ a b, checkOperands s.params [(a, .any), (b, .any)] = .ok () → resolve2 a b s = .ok (l1, l2, s1) →
      (isImm s.params a = false → isImm s.params b = false → store l1 q s1 = .ok s2 → store l2 r s2 = .ok t →
        exec (.div (.two a b)) s = .next (writeFlags .div x y (destSize l1) t)) ∧
      (isImm s.params a = false → isImm s.params b = true → store l1 q s1 = .ok t →
        exec (.div (.two a b)) s = .next (writeFlags .div x y (destSize l1) t)) ∧
      (isImm s.params a = true → isImm s.params b = false → store l2 r s1 = .ok t →
        exec (.div (.two a b)) s = .next (writeFlags .div x y .b4 t))) ∧
    (∀ a b c e d m, checkOperands s.params [(a, .regOrMem), (b, .regOrMem), (c, .any), (e, .any)] = .ok () →
      resolve4 a b c e s = .ok (d, m, l1, l2, s1) → store d q s1 = .ok s2 → store m r s2 = .ok t →
      exec (.div (.four a b c e)) s = .next (writeFlags .div x y (destSize d) t))

/-- R114, C9: DIV in its 3-operand form, under both values of `DIV3_MOD_RULE`.
[spec's decisions: D21 to D23, D37, D41] -/
def Obligations.DivThreeOperandResults : Prop :=
  ∀ (s s1 s2 s3 t : State) (d l2 l3 : Location) (x y : Word) (a b c : Operand),
    checkOperands s.params [(a, .regOrMem), (b, .any), (c, .any)] = .ok () → resolve3 a b c s = .ok (d, l2, l3, s1) →
    val l2 s1 = .ok x → val l3 s1 = .ok y → y ≠ 0 →
    let q := (divRem s.params.mulDivSigned x y).1
    let r := (divRem s.params.mulDivSigned x y).2
    let answer := exec (.div (.three a b c)) s
    (isImm s.params b = false → isImm s.params c = true → store d q s1 = .ok s2 → store l2 r s2 = .ok t →
      answer = .next (writeFlags .div x y (destSize d) t)) ∧
    (isImm s.params b = true → isImm s.params c = true → store d q s1 = .ok t →
      answer = .next (writeFlags .div x y (destSize d) t)) ∧
    (s.params.div3ModRule = .literal → isImm s.params b = false → isImm s.params c = false →
      store d q s1 = .ok s2 → store l2 r s2 = .ok s3 → store l3 r s3 = .ok t →
      answer = .next (writeFlags .div x y (destSize d) t)) ∧
    (s.params.div3ModRule = .literal → isImm s.params b = true → isImm s.params c = false → store d q s1 = .ok t →
      answer = .next (writeFlags .div x y (destSize d) t)) ∧
    (s.params.div3ModRule = .firstNonImm → isImm s.params b = false → isImm s.params c = false →
      store d q s1 = .ok s2 → store l2 r s2 = .ok t →
      answer = .next (writeFlags .div x y (destSize d) t)) ∧
    (s.params.div3ModRule = .firstNonImm → isImm s.params b = true → isImm s.params c = false →
      store d q s1 = .ok s2 → store l3 r s2 = .ok t →
      answer = .next (writeFlags .div x y (destSize d) t))

/-- R115: MOD stores the remainder. [spec's decisions: D21 to D23] -/
def Obligations.ModResult : Prop :=
  ∀ (s s1 t : State) (d l2 l3 : Location) (x y : Word) (a b c : Operand),
    checkOperands s.params [(a, .regOrMem), (b, .any), (c, .any)] = .ok () → resolve3 a b c s = .ok (d, l2, l3, s1) →
    val l2 s1 = .ok x → val l3 s1 = .ok y → y ≠ 0 →
    store d (divRem s.params.mulDivSigned x y).2 s1 = .ok t →
    exec (.mod a b c) s = .next (writeFlags .mod x y (destSize d) t)

/-- R114, R115: a DIV or MOD that reads a zero divisor, its dividend readable, faults with `DivideByZero`; no other
instruction does. [spec's decisions: D22] -/
def Obligations.ZeroDivisorFaults : Prop :=
  (∀ (ops : TwoToFour) (s s1 : State) (l : DivPlaces) (x : Word),
    resolveDiv ops s = .ok (l, s1) → val l.src1 s1 = .ok x → val l.src2 s1 = .ok 0 →
    exec (.div ops) s = .fault .divideByZero) ∧
  (∀ (a b c : Operand) (s s1 : State) (d l2 l3 : Location) (x : Word),
    checkOperands s.params [(a, .regOrMem), (b, .any), (c, .any)] = .ok () → resolve3 a b c s = .ok (d, l2, l3, s1) →
    val l2 s1 = .ok x → val l3 s1 = .ok 0 → exec (.mod a b c) s = .fault .divideByZero) ∧
  (∀ (i : Instr) (s : State), exec i s = .fault .divideByZero → divisor i s = some 0)

/-- R122: the laws of `DivRem` for a divisor that is not zero. [spec's decisions: D21, D22] -/
def Obligations.DivRemLaws : Prop :=
  ∀ x y : Word, y ≠ 0 →
    (¬ (x = 0x80000000 ∧ y = 0xFFFFFFFF) →
      x.toInt = (divRem true x y).1.toInt * y.toInt + (divRem true x y).2.toInt) ∧
    (divRem true x y).2.toInt.natAbs < y.toInt.natAbs ∧
    (0 ≤ x.toInt → 0 ≤ (divRem true x y).2.toInt) ∧ (x.toInt ≤ 0 → (divRem true x y).2.toInt ≤ 0) ∧
    (x = 0x80000000 → y = 0xFFFFFFFF → divRem true x y = (0x80000000, 0)) ∧
    (divRem false x y).1.toNat = x.toNat / y.toNat ∧ (divRem false x y).2.toNat = x.toNat % y.toNat

/-- R119: CMP stores the bitwise complement of its source. [spec's decisions: D19, D23] -/
def Obligations.CmpComplements : Prop :=
  (∀ (a : Operand) (s s1 t : State) (l : Location) (x : Word),
    checkOperands s.params [(a, .regOrMem)] = .ok () → resolve a s = .ok (l, s1) → val l s1 = .ok x →
    store l (~~~ x) s1 = .ok t → exec (.cmp (.one a)) s = .next (writeFlags .cmp x 0 (destSize l) t)) ∧
  (∀ (a b : Operand) (s s1 t : State) (d l : Location) (x : Word),
    checkOperands s.params [(a, .regOrMem), (b, .any)] = .ok () → resolve2 a b s = .ok (d, l, s1) → val l s1 = .ok x →
    store d (~~~ x) s1 = .ok t → exec (.cmp (.two a b)) s = .next (writeFlags .cmp x 0 (destSize d) t))

/-- R120, R121: INC and DEC store their operand's value plus or minus one back. [spec's decisions: D19, D23] -/
def Obligations.IncAndDecResults : Prop :=
  ∀ (a : Operand) (s s1 t : State) (l : Location) (x : Word),
    checkOperands s.params [(a, .regOrMem)] = .ok () → resolve a s = .ok (l, s1) → val l s1 = .ok x →
    (store l (x + 1) s1 = .ok t → exec (.inc a) s = .next (writeFlags .inc x 1 (destSize l) t)) ∧
    (store l (x - 1) s1 = .ok t → exec (.dec a) s = .next (writeFlags .dec x 1 (destSize l) t))

/-- R27, R123: what writing the flags changes: the flags alone, by a fresh free pair under the default (the counter of
draws is the model's own, log 7), by the table of R123 under the customary instantiation. That table, row by row:
additions and subtractions set the flags when the exact result does not fit, as unsigned numbers for the carry or
borrow and as signed ones for the overflow; so does MUL, for the product of the low parts (log 8); the others clear
both. [spec's decisions: D23] -/
def Obligations.FlagWriteGivesTheFlags : Prop :=
  ∀ (op : FlagOp) (a b : Word) (n : Size) (s : State),
    let W := 8 * n.bytes
    let fits : Int → Prop := fun z => -(2 ^ (W - 1) : Int) ≤ z ∧ z < (2 ^ (W - 1) : Int)
    let lowA := a.toNat % 2 ^ W
    let lowB := b.toNat % 2 ^ W
    let intA : Int := (a.setWidth W).toInt
    let intB : Int := (b.setWidth W).toInt
    let c := customaryFlags op a b n
    (s.params.flagRule = .free →
      writeFlags op a b n s =
        { s with
          flags := ⟨Config.freeOverflow s.draws op a b n, Config.freeCarry s.draws op a b n⟩
          draws := s.draws + 1 }) ∧
    (s.params.flagRule = .customary → writeFlags op a b n s = { s with flags := c }) ∧
    (op ∈ [FlagOp.add, .inc, .bie] →
      (c.carry = true ↔ 2 ^ W ≤ lowA + lowB) ∧ (c.ovf = false ↔ fits (intA + intB))) ∧
    (op ∈ [FlagOp.sub, .dec, .bde] → (c.carry = true ↔ lowA < lowB) ∧ (c.ovf = false ↔ fits (intA - intB))) ∧
    (op = .mul → (c.carry = true ↔ 2 ^ W ≤ lowA * lowB) ∧ (c.ovf = false ↔ fits (intA * intB))) ∧
    (op ∈ [FlagOp.div, .mod, .and, .or, .xor, .cmp] → c = ⟨false, false⟩)

/-- R27, R111 to R121, R148, R149: an instruction outside the arithmetic group, BIE and BDE leaves both flags alone; one
of those writes them by `FLAG_WRITE`, once, and what it gives `FLAG_WRITE` is its own operation, the values its rule
names and the size of its destination (`flagInputs`). The counter of draws is the model's own (log 7).
[spec's decisions: D23, D24] -/
def Obligations.FlagsAreWrittenByTheListedInstructions : Prop :=
  ∀ (i : Instr) (s t : State), exec i s = .next t →
    (writesFlags i = false → t.flags = s.flags ∧ t.draws = s.draws) ∧
    (writesFlags i = true → ∃ w, flagInputs i s = some w ∧
      t.flags = (writeFlags w.op w.a w.b w.size s).flags ∧ t.draws = (writeFlags w.op w.a w.b w.size s).draws)

/-! ## Memory Management -/

/-- R130: MOV stores the value of its second operand to its first. [spec's decisions: D24] -/
def Obligations.MovStoresItsSource : Prop :=
  ∀ (a b : Operand) (s s1 t : State) (l1 l2 : Location) (v : Word),
    checkOperands s.params [(a, .regOrMem), (b, .any)] = .ok () → resolve2 a b s = .ok (l1, l2, s1) →
    val l2 s1 = .ok v → store l1 v s1 = .ok t → exec (.mov a b) s = .next t

/-- R131: SWP reads both values, then stores each to the other's location; two full registers exchange their values.
[spec's decisions: D24, D41] -/
def Obligations.SwpExchanges : Prop :=
  (∀ (a b : Operand) (s s1 s2 t : State) (l1 l2 : Location) (x y : Word),
    checkOperands s.params [(a, .regOrMem), (b, .regOrMem)] = .ok () → resolve2 a b s = .ok (l1, l2, s1) →
    val l1 s1 = .ok x → val l2 s1 = .ok y → store l1 y s1 = .ok s2 → store l2 x s2 = .ok t →
    exec (.swp a b) s = .next t) ∧
  (∀ (s : State) (r q : Reg) (m k : Bool), ∃ t,
    exec (.swp ⟨m, .plain (.reg r .b4)⟩ ⟨k, .plain (.reg q .b4)⟩) s = .next t ∧
    t.reg r = s.reg q ∧ t.reg q = s.reg r)

/-- R132: what a CPY's operands ask for: a C string without a selector or with selector 0; with selector 1 a Pascal
string, its length word and the bytes it counts; else as many bytes as the selector says; operand 4 is the limit.
[spec's decisions: D29] -/
def Obligations.CpySelectorAndLimit : Prop :=
  ∀ (s s1 : State) (l1 l2 l3 l4 : Location) (d f sel lim : Word) (n m : Size) (a b c e : Operand),
    l1.place = .mem d n → l2.place = .mem f m →
    (checkOperands s.params [(a, .mem), (b, .mem)] = .ok () → resolve2 a b s = .ok (l1, l2, s1) →
      copyPlan (.two a b) s = .ok (⟨d, f, .cString, 0⟩, s1)) ∧
    (checkOperands s.params [(a, .mem), (b, .mem), (c, .any)] = .ok () → resolve3 a b c s = .ok (l1, l2, l3, s1) →
      val l3 s1 = .ok sel →
      (sel = 0 → copyPlan (.three a b c) s = .ok (⟨d, f, .cString, 0⟩, s1)) ∧
      (∀ len, sel = 1 → memRead f 4 s1 = .ok len →
        copyPlan (.three a b c) s = .ok (⟨d, f, .counted (4 + len.toNat), 0⟩, s1)) ∧
      (∀ r, sel = 1 → memRead f 4 s1 = .error r → copyPlan (.three a b c) s = .error r) ∧
      (sel ≠ 0 → sel ≠ 1 → copyPlan (.three a b c) s = .ok (⟨d, f, .counted sel.toNat, 0⟩, s1))) ∧
    (checkOperands s.params [(a, .mem), (b, .mem), (c, .any), (e, .any)] = .ok () →
      resolve4 a b c e s = .ok (l1, l2, l3, l4, s1) → val l3 s1 = .ok sel → val l4 s1 = .ok lim →
      (sel = 0 → copyPlan (.four a b c e) s = .ok (⟨d, f, .cString, lim.toNat⟩, s1)) ∧
      (∀ len, sel = 1 → memRead f 4 s1 = .ok len →
        copyPlan (.four a b c e) s = .ok (⟨d, f, .counted (4 + len.toNat), lim.toNat⟩, s1)) ∧
      (∀ r, sel = 1 → memRead f 4 s1 = .error r → copyPlan (.four a b c e) s = .error r) ∧
      (sel ≠ 0 → sel ≠ 1 → copyPlan (.four a b c e) s = .ok (⟨d, f, .counted sel.toNat, lim.toNat⟩, s1)))

/-- R132, R133: a counted copy of implemented bytes completes; it moves its count, or its limit if that is smaller, byte
by byte from the lowest address up, so that where the blocks overlap a byte written early is read again later, and
changes no byte outside the destination; where they do not overlap each byte arrives. [spec's decisions: D29] -/
def Obligations.CountedCopyMovesItsBytes : Prop :=
  ∀ (ops : TwoToFour) (s s1 : State) (p : CopyPlan) (total n : Nat),
    copyPlan ops s = .ok (p, s1) → p.kind = .counted total →
    n = (if p.limit = 0 then total else min total p.limit) →
    (∀ k < n, s1.implemented (p.src + BitVec.ofNat 32 k) = true ∧
      s1.implemented (p.dst + BitVec.ofNat 32 k) = true) →
    ∃ t b, exec (.cpy ops) s = .next t ∧ t = { s1 with mem := t.mem } ∧
      copyReads p.dst p.src n s1 b ∧ copyWrites p.dst n s1 t b ∧
      ((∀ j k, j < n → k < n → p.dst + BitVec.ofNat 32 j ≠ p.src + BitVec.ofNat 32 k) →
        ∀ k < n, t.byteAt (p.dst + BitVec.ofNat 32 k) = s1.byteAt (p.src + BitVec.ofNat 32 k))

/-- R132, R133: a C string copy completes when the bytes it reads, overlapping blocks included, come to a zero or to the
limit: it moves the bytes up to and including the first zero, or as many as the limit says if that comes first, byte
by byte from the lowest address up, and changes no other byte. [spec's decisions: D29] -/
def Obligations.CStringCopyMovesItsBytes : Prop :=
  ∀ (ops : TwoToFour) (s s1 : State) (p : CopyPlan) (n : Nat) (b : Nat → Byte),
    copyPlan ops s = .ok (p, s1) → p.kind = .cString → 1 ≤ n →
    (p.limit = 0 ∨ n ≤ p.limit) →
    copyReads p.dst p.src n s1 b →
    (∀ k, k + 1 < n → b k ≠ 0) → (b (n - 1) = 0 ∨ n = p.limit) →
    (∀ k < n, s1.implemented (p.src + BitVec.ofNat 32 k) = true ∧
      s1.implemented (p.dst + BitVec.ofNat 32 k) = true) →
    ∃ t, exec (.cpy ops) s = .next t ∧ t = { s1 with mem := t.mem } ∧ copyWrites p.dst n s1 t b ∧
      ((∀ j k, j < n → k < n → p.dst + BitVec.ofNat 32 j ≠ p.src + BitVec.ofNat 32 k) →
        ∀ k < n, t.byteAt (p.dst + BitVec.ofNat 32 k) = s1.byteAt (p.src + BitVec.ofNat 32 k))

/-- R132, R133: the frame of every CPY that completes, overlapping blocks included: registers as its operands' modes leave
them, the bytes moved one by one from the lowest address up, and no byte changed outside the destination block, whose
length is the count or the limit, or for a C string ends at the first zero byte moved or at the limit.
[spec's decisions: D29] -/
def Obligations.CpyFrame : Prop :=
  ∀ (ops : TwoToFour) (s t : State), exec (.cpy ops) s = .next t →
    ∃ p s1 n b, copyPlan ops s = .ok (p, s1) ∧ t = { s1 with mem := t.mem } ∧
      s1 = { s with regs := s1.regs } ∧
      (∀ q, (∀ o ∈ ops.toList, q ∉ modifiedRegs o) → t.reg q = s.reg q) ∧
      (∀ total, p.kind = .counted total → n = (if p.limit = 0 then total else min total p.limit)) ∧
      (p.kind = .cString → 1 ≤ n ∧ n ≤ 2 ^ 32 ∧ (p.limit = 0 ∨ n ≤ p.limit) ∧
        (∀ k, k + 1 < n → b k ≠ 0) ∧ (b (n - 1) = 0 ∨ n = p.limit)) ∧
      copyReads p.dst p.src n s1 b ∧ copyWrites p.dst n s1 t b ∧
      (∀ x, (∀ k < n, x ≠ p.dst + BitVec.ofNat 32 k) → t.byteAt x = s.byteAt x)

/-- R133: a CPY is refused as never ending exactly when it is a C string copy with no limit that no number of bytes
brings to an end (log 12). [spec's decisions: D29] -/
def Obligations.CopyNeverEndsIsExact : Prop :=
  ∀ (ops : TwoToFour) (s : State),
    exec (.cpy ops) s = .refused .copyNeverEnds ↔
      ∃ p s1, copyPlan ops s = .ok (p, s1) ∧ p.kind = .cString ∧ p.limit = 0 ∧
        ∀ fuel, copyLoop p fuel 0 s1 = .refused .copyNeverEnds

/-! ## Change of Location -/

/-- R140: JMP goes to its operand's effective address. [spec's decisions: D25] -/
def Obligations.JmpGoesToTheEffectiveAddress : Prop :=
  ∀ (a : Operand) (s s1 : State) (l : Location) (tgt : Word) (n : Size),
    checkOperands s.params [(a, .mem)] = .ok () → resolve a s = .ok (l, s1) → l.place = .mem tgt n →
    exec (.jmp a) s = .next { s1 with regs := s1.regs.set .pc tgt }

/-- R141: JAL saves pB and pR below the stack pointer, moves pB and pS there, leaves the return address in pR and goes
to its operand's effective address; it faults where a stack byte is not implemented. [spec's decisions: D25, D45] -/
def Obligations.JalPushesAndJumps : Prop :=
  ∀ (a : Operand) (s s1 : State) (l : Location) (tgt : Word) (n : Size),
    checkOperands s.params [(a, .mem)] = .ok () → resolve a s = .ok (l, s1) → l.place = .mem tgt n →
    let S := s1.reg .pS
    ((∀ k < 8, s1.implemented (S - 8 + BitVec.ofNat 32 k) = true) →
      ∃ t, exec (.jal a) s = .next t ∧
        t.bytesAt (S - 4) 4 = s1.reg .pB ∧ t.bytesAt (S - 8) 4 = s1.reg .pR ∧
        t.reg .pB = S - 4 ∧ t.reg .pS = S - 8 ∧ t.reg .pR = s1.reg .pc ∧ t.reg .pc = tgt ∧
        (∀ q, q ≠ .pB → q ≠ .pS → q ≠ .pR → q ≠ .pc → t.reg q = s1.reg q) ∧
        (∀ x, (∀ k < 8, x ≠ S - 8 + BitVec.ofNat 32 k) → t.byteAt x = s1.byteAt x) ∧
        t = { s1 with regs := t.regs, mem := t.mem }) ∧
    (∀ k < 8, s1.implemented (S - 8 + BitVec.ofNat 32 k) = false → exec (.jal a) s = .fault .memoryAccess)

/-- R142: RET, the byte 33, goes to pR, and loads pR, pS and pB from around the old pB, pS by `RET_PS_RULE`; nothing
else changes; it faults where one of the words is not implemented. [spec's decisions: D38, D45] -/
def Obligations.RetRestores : Prop :=
  ∀ s : State,
    let B := s.reg .pB
    (∀ src : Source, src 0 = some 0x33 → decode src = .ok (.ret, 1)) ∧
    ((∀ k < 8, s.implemented (B - 4 + BitVec.ofNat 32 k) = true) →
      (s.params.retPsRule = .literal → ∀ k < 4, s.implemented (B + 4 + BitVec.ofNat 32 k) = true) →
      ∃ t, exec .ret s = .next t ∧
        t.reg .pc = s.reg .pR ∧ t.reg .pR = s.bytesAt (B - 4) 4 ∧ t.reg .pB = s.bytesAt B 4 ∧
        (s.params.retPsRule = .literal → t.reg .pS = s.bytesAt (B + 4) 4) ∧
        (s.params.retPsRule = .arithmetic → t.reg .pS = B + 4) ∧
        (∀ q, q ≠ .pc → q ≠ .pR → q ≠ .pS → q ≠ .pB → t.reg q = s.reg q) ∧
        t = { s with regs := t.regs }) ∧
    (∀ k < 8, s.implemented (B - 4 + BitVec.ofNat 32 k) = false → exec .ret s = .fault .memoryAccess) ∧
    (s.params.retPsRule = .literal → ∀ k < 4, s.implemented (B + 4 + BitVec.ofNat 32 k) = false →
      exec .ret s = .fault .memoryAccess)

/-- R141, R142, R152, R182: a function that leaves pB, pR and the two saved words as JAL left them returns to the
instruction after the JAL with the caller's pB and pR, and with the caller's pS if the caller had put it in the word
pS pointed to, or under the arithmetic rule always. [spec's decisions: D25, D38, D45] -/
def Obligations.RetUndoesJal : Prop :=
  ∀ (a : Operand) (s s1 t u : State) (l : Location),
    resolve a s = .ok (l, s1) → exec (.jal a) s = .next t →
    u.params = t.params → u.reg .pB = t.reg .pB → u.reg .pR = t.reg .pR →
    (∀ k < 8, u.byteAt (s1.reg .pS - 8 + BitVec.ofNat 32 k) = t.byteAt (s1.reg .pS - 8 + BitVec.ofNat 32 k)) →
    (u.params.retPsRule = .literal → memRead (s1.reg .pS) 4 u = .ok (s1.reg .pS)) →
    ∃ v, exec .ret u = .next v ∧
      v.reg .pc = s1.reg .pc ∧ v.reg .pB = s1.reg .pB ∧ v.reg .pR = s1.reg .pR ∧ v.reg .pS = s1.reg .pS ∧
      v.mem = u.mem

/-- R143 to R147: the four comparing branches, in both forms: the target if the condition holds, else nothing beyond
what the operands' modes do. [spec's decisions: D20, D25, D26] -/
def Obligations.ComparingBranches : Prop :=
  ∀ (s s1 : State) (x y tgt : Word) (n : Size) (l1 l2 lt : Location) (ops : TwoOrThree),
    ((∃ a b, ops = .two a b ∧ checkOperands s.params [(a, .any), (b, .mem)] = .ok () ∧
        resolve2 a b s = .ok (l1, lt, s1) ∧ y = 0) ∨
     (∃ a b c, ops = .three a b c ∧ checkOperands s.params [(a, .any), (b, .any), (c, .mem)] = .ok () ∧
        resolve3 a b c s = .ok (l1, l2, lt, s1) ∧ val l2 s1 = .ok y)) →
    val l1 s1 = .ok x → lt.place = .mem tgt n →
    let taken : State := { s1 with regs := s1.regs.set .pc tgt }
    exec (.beq ops) s = .next (if x = y then taken else s1) ∧
    exec (.bne ops) s = .next (if x = y then s1 else taken) ∧
    (s.params.compareSigned = true →
      exec (.bgt ops) s = .next (if y.toInt < x.toInt then taken else s1) ∧
      exec (.bge ops) s = .next (if y.toInt ≤ x.toInt then taken else s1)) ∧
    (s.params.compareSigned = false →
      exec (.bgt ops) s = .next (if y.toNat < x.toNat then taken else s1) ∧
      exec (.bge ops) s = .next (if y.toNat ≤ x.toNat then taken else s1))

/-- R148, R149: BIE and BDE, in both forms: the first operand's value plus or minus one is stored, read again, and
compared with the second source, which is read after the store; both flags are written.
[spec's decisions: D23, D25, D26, D39] -/
def Obligations.LoopBranches : Prop :=
  ∀ (s s1 s2 : State) (old x y tgt : Word) (n : Size) (l1 l2 lt : Location) (ops : TwoOrThree),
    ((∃ a b, ops = .two a b ∧ checkOperands s.params [(a, .regOrMem), (b, .mem)] = .ok () ∧
        resolve2 a b s = .ok (l1, lt, s1) ∧ y = 0) ∨
     (∃ a b c, ops = .three a b c ∧ checkOperands s.params [(a, .regOrMem), (b, .any), (c, .mem)] = .ok () ∧
        resolve3 a b c s = .ok (l1, l2, lt, s1) ∧ val l2 s2 = .ok y)) →
    val l1 s1 = .ok old → val l1 s2 = .ok x → lt.place = .mem tgt n →
    let after : State := if x = y then { s2 with regs := s2.regs.set .pc tgt } else s2
    (store l1 (old + 1) s1 = .ok s2 → exec (.bie ops) s = .next (writeFlags .bie old 1 (destSize l1) after)) ∧
    (store l1 (old - 1) s1 = .ok s2 → exec (.bde ops) s = .next (writeFlags .bde old 1 (destSize l1) after))

/-- R150, R151: BAO and BAC go to their operand's effective address if their flag is set; no flag is written.
[spec's decisions: D24 to D26] -/
def Obligations.FlagBranches : Prop :=
  ∀ (a : Operand) (s s1 : State) (l : Location) (tgt : Word) (n : Size),
    checkOperands s.params [(a, .mem)] = .ok () → resolve a s = .ok (l, s1) → l.place = .mem tgt n →
    let taken : State := { s1 with regs := s1.regs.set .pc tgt }
    exec (.bao a) s = .next (if s.flags.ovf = true then taken else s1) ∧
    exec (.bac a) s = .next (if s.flags.carry = true then taken else s1) ∧
    s1.flags = s.flags ∧ taken.flags = s.flags

/-! ## Frames -/

/-- R23, R27, R46: HLT, NOP, DMP, OUT, JMP, RET, BEQ, BNE, BGT, BGE, BAO, BAC and the unspecified opcodes: memory, flags,
parameters and fault record stay; a register stays unless an operand's mode writes it, or it is PC and the instruction
is a jump, or the instruction is RET and the register is pR, pB or pS; `halted` stays but for HLT, the trace but for
DMP, the device output but for OUT. [spec's decisions: D24, D28, D38] -/
def Obligations.StoreNothingFrame : Prop :=
  ∀ (i : Instr) (s t : State), storesNothing i = true → exec i s = .next t →
    t.mem = s.mem ∧ (∀ x, t.byteAt x = s.byteAt x) ∧ t.flags = s.flags ∧ t.params = s.params ∧ t.fault = s.fault ∧
    t.draws = s.draws ∧
    (∀ q, (∀ o ∈ i.operands, q ∉ modifiedRegs o) → ¬ (mayJump i = true ∧ q = .pc) →
      ¬ (i = .ret ∧ (q = .pR ∨ q = .pB ∨ q = .pS)) → t.reg q = s.reg q) ∧
    (i ≠ .hlt → t.halted = s.halted) ∧
    ((∀ a, i ≠ .dmp a) → t.trace = s.trace) ∧
    ((∀ ops, i ≠ .out ops) → t.output = s.output)

/-- R23, R88: the instructions that store through their operands (CLR, the arithmetic group, MOV, SWP, BIE, BDE): a
register stays unless it is a destination, an operand's mode writes it, or it is PC and the instruction is a branch;
a byte of memory stays unless a destination covers it; `halted`, trace, device output, fault record and parameters
stay. [spec's decisions: D13, D39, D41] -/
def Obligations.DestinationFrame : Prop :=
  ∀ (i : Instr) (s t : State), storesNothing i = false → (∀ a, i ≠ .jal a) → (∀ ops, i ≠ .cpy ops) →
    exec i s = .next t →
    (∀ q, (∀ o ∈ i.operands, q ∉ modifiedRegs o) → (∀ l ∈ destinations i s, ¬ coversReg l q) →
      ¬ (mayJump i = true ∧ q = .pc) → t.reg q = s.reg q) ∧
    (∀ x, (∀ l ∈ destinations i s, ¬ coversByte l x) → t.byteAt x = s.byteAt x) ∧
    t.halted = s.halted ∧ t.trace = s.trace ∧ t.output = s.output ∧ t.fault = s.fault ∧ t.params = s.params

/-! ## The whole machine -/

/-- R32, R40 and the model's form of memory: a step keeps memory canonical and puts no fault on record. -/
def Obligations.EveryStepKeepsTheInvariant : Prop :=
  ∀ s t : State, s.Inv → step s = .next t → t.Inv

/-- R41, R42, R47, R88, R132, R163: where an instruction whose class check passes meets an operand that does not
resolve, it faults as the resolution does; where it reads a source or stores a destination at an address that is not
implemented, it faults with `MemoryAccess` (a zero divisor comes before the store); a CPY faults so when it comes to a
byte it cannot read or write, or to a length word it cannot read; where every address is implemented no instruction
does. [spec's decisions: D15, D17, D29] -/
def Obligations.UnimplementedAccessFaults : Prop :=
  (∀ (i : Instr) (s : State), classCheck s.params i = .ok () →
    (∀ r, resolveAll i.operands s = .error r → exec i s = .fault r) ∧
    (∀ ls s1 l a n k, resolveAll i.operands s = .ok (ls, s1) → l ∈ sources i ls → l.place = .mem a n → k < n.bytes →
      s.implemented (a + BitVec.ofNat 32 k) = false → exec i s = .fault .memoryAccess) ∧
    (∀ l a n k, l ∈ destinations i s → divisor i s ≠ some 0 → l.place = .mem a n → k < n.bytes →
      s.implemented (a + BitVec.ofNat 32 k) = false → exec i s = .fault .memoryAccess)) ∧
  (∀ (ops : TwoToFour) (s : State) (r : Fault), copyPlan ops s = .error r → exec (.cpy ops) s = .fault r) ∧
  (∀ (ops : TwoToFour) (s s1 : State) (p : CopyPlan) (n : Nat) (b : Nat → Byte),
    copyPlan ops s = .ok (p, s1) → copyReads p.dst p.src n s1 b →
    (p.limit = 0 ∨ n < p.limit) → (∀ total, p.kind = .counted total → n < total) →
    (p.kind = .cString → ∀ k < n, b k ≠ 0) →
    (∀ k < n, s1.implemented (p.src + BitVec.ofNat 32 k) = true ∧
      s1.implemented (p.dst + BitVec.ofNat 32 k) = true) →
    (s1.implemented (p.src + BitVec.ofNat 32 n) = false ∨ s1.implemented (p.dst + BitVec.ofNat 32 n) = false) →
    exec (.cpy ops) s = .fault .memoryAccess) ∧
  ∀ (i : Instr) (s : State), s.wholeMap → exec i s ≠ .fault .memoryAccess

/-- R34: the launch state is what the launch supplies and the spec's own start values. [spec's decisions: D31] -/
def Obligations.LaunchState : Prop :=
  ∀ (p : Params) (entry : Word) (g : Regs) (f : Flags) (m : Memory),
    let s := State.launch p entry g f m
    s.reg .pc = entry ∧ (∀ q, q ≠ .pc → s.reg q = g.get q) ∧ s.flags = f ∧ s.mem = m ∧ s.params = p ∧
    s.halted = false ∧ s.trace = [] ∧ s.output = [] ∧ s.fault = none

/-- The reset state meets the invariant and runs, with the defaults of R5, every register and flag zero and every address
implemented: the model's choice of launch values (logs 2 to 6). -/
def Obligations.ResetMeetsTheInvariant : Prop :=
  State.reset.Inv ∧ State.reset.running ∧
  State.reset.params = ⟨32, [⟨0, 2 ^ 32⟩], true, true, .free, .literal, .literal, .refuse⟩ ∧ (∀ r, State.reset.reg r = 0) ∧ State.reset.flags = ⟨false, false⟩ ∧
  State.reset.wholeMap ∧ ∀ x, State.reset.byteAt x = 0

/-- R5, R29 to R31, R180: no step changes a parameter; only HLT sets `halted`, and none clears it; only DMP adds to the
trace, one value; only OUT adds to the device output, one pair; both only grow. [spec's decisions: D27, D28] -/
def Obligations.HistoryOnlyGrows : Prop :=
  ∀ (s t : State), step s = .next t →
    t.params = s.params ∧
    ∃ i len, fetch s = .ok (i, len) ∧
      (t.halted = true ↔ i = .hlt) ∧
      ((t.trace = s.trace ∧ ∀ a, i ≠ .dmp a) ∨ ∃ a v, i = .dmp a ∧ t.trace = s.trace ++ [v]) ∧
      ((t.output = s.output ∧ ∀ ops, i ≠ .out ops) ∨ ∃ ops e, i = .out ops ∧ t.output = s.output ++ [e])

/-- R47, R89, R94: where every address is implemented, an instruction whose operands pass the class check completes,
but for a division by zero and a CPY; a CPY completes unless it is a C string copy with no limit.
[spec's decisions: D17, D22, D29] -/
def Obligations.EveryInstructionCompletes : Prop :=
  ∀ (i : Instr) (s : State), s.wholeMap → classCheck s.params i = .ok () →
    ((∀ ops, i ≠ .cpy ops) → divisor i s ≠ some 0 → ∃ t, exec i s = .next t ∧ t.wholeMap) ∧
    (∀ ops, i = .cpy ops → ∃ p s1, copyPlan ops s = .ok (p, s1) ∧
      (p.kind ≠ .cString ∨ p.limit ≠ 0 → ∃ t, exec i s = .next t ∧ t.wholeMap))
end

