-- ==== Sys2Proof/Laws/State.lean ====
section
/-! SUPPORT. One lemma per field of State per update, and the laws of the register file, so that no proof unfolds a
record update. -/

namespace Sys2Proof.Machine

/-! ## The register file -/

@[simp] theorem Regs.get_set_same (g : Regs) (r : Reg) (v : Word) : (g.set r v).get r = v := by
  cases r <;> rfl

theorem Regs.get_set_ne (g : Regs) {r q : Reg} (v : Word) (h : q ≠ r) : (g.set r v).get q = g.get q := by
  cases r <;> cases q <;> first | rfl | exact absurd rfl h

@[simp] theorem State.reg_setReg_same (s : State) (r : Reg) (v : Word) : (s.setReg r v).reg r = v :=
  Regs.get_set_same s.regs r v

theorem State.reg_setReg_ne (s : State) {r q : Reg} (v : Word) (h : q ≠ r) : (s.setReg r v).reg q = s.reg q :=
  Regs.get_set_ne s.regs v h

theorem State.reg_setReg (s : State) (r q : Reg) (v : Word) :
    (s.setReg r v).reg q = if q = r then v else s.reg q := by
  split
  · next h => subst h; simp
  · next h => exact s.reg_setReg_ne v h

@[simp] theorem State.reg_jump_pc (s : State) (t : Word) : (s.jump t).reg .pc = t := rfl

theorem State.reg_jump_ne (s : State) {q : Reg} (t : Word) (h : q ≠ .pc) : (s.jump t).reg q = s.reg q :=
  s.reg_setReg_ne t h

@[simp] theorem State.reg_advancePc_pc (s : State) (n : Nat) :
    (s.advancePc n).reg .pc = s.reg .pc + BitVec.ofNat 32 n := rfl

theorem State.reg_advancePc_ne (s : State) {q : Reg} (n : Nat) (h : q ≠ .pc) : (s.advancePc n).reg q = s.reg q :=
  s.reg_setReg_ne _ h

/-- Two register files that agree on every register are the same. -/
theorem Regs.ext_get {g h : Regs} (hyp : ∀ r, g.get r = h.get r) : g = h := by
  have e := fun r => hyp r
  cases g; cases h
  simp only [Regs.mk.injEq]
  exact ⟨e .r0, e .r1, e .r2, e .r3, e .r4, e .r5, e .r6, e .r7, e .r8, e .r9, e .rA, e .rB, e .pR, e .pB, e .pS, e .pc⟩

/-! ## `State.setReg` -/

@[simp] theorem State.setReg_flags (s : State) (r : Reg) (v : Word) : (s.setReg r v).flags = s.flags := rfl

@[simp] theorem State.setReg_mem (s : State) (r : Reg) (v : Word) : (s.setReg r v).mem = s.mem := rfl

@[simp] theorem State.setReg_halted (s : State) (r : Reg) (v : Word) : (s.setReg r v).halted = s.halted := rfl

@[simp] theorem State.setReg_trace (s : State) (r : Reg) (v : Word) : (s.setReg r v).trace = s.trace := rfl

@[simp] theorem State.setReg_output (s : State) (r : Reg) (v : Word) : (s.setReg r v).output = s.output := rfl

@[simp] theorem State.setReg_fault (s : State) (r : Reg) (v : Word) : (s.setReg r v).fault = s.fault := rfl

@[simp] theorem State.setReg_params (s : State) (r : Reg) (v : Word) : (s.setReg r v).params = s.params := rfl

@[simp] theorem State.setReg_draws (s : State) (r : Reg) (v : Word) : (s.setReg r v).draws = s.draws := rfl

@[simp] theorem State.setReg_byteAt (s : State) (r : Reg) (v : Word) (x : Word) : (s.setReg r v).byteAt x = s.byteAt x := rfl

@[simp] theorem State.setReg_implemented (s : State) (r : Reg) (v : Word) (x : Word) : (s.setReg r v).implemented x = s.implemented x := rfl

/-! ## `State.setRegs` -/

/-- Writing several registers changes registers alone. -/
theorem State.setRegs_eq (s : State) (f : Reg → Word) (l : List Reg) :
    s.setRegs f l = { s with regs := (s.setRegs f l).regs } := by
  induction l generalizing s with
  | nil => rfl
  | cons r rest ih => exact ih (s.setReg r (f r))

theorem State.reg_setRegs_of_not_mem (s : State) (f : Reg → Word) {l : List Reg} {q : Reg} (h : q ∉ l) :
    (s.setRegs f l).reg q = s.reg q := by
  induction l generalizing s with
  | nil => rfl
  | cons r rest ih =>
    rw [List.mem_cons, not_or] at h
    exact (ih (s.setReg r (f r)) h.2).trans (s.reg_setReg_ne (f r) h.1)

@[simp] theorem State.setRegs_flags (s : State) (f : Reg → Word) (l : List Reg) : (s.setRegs f l).flags = s.flags := by
  rw [s.setRegs_eq f l]

@[simp] theorem State.setRegs_mem (s : State) (f : Reg → Word) (l : List Reg) : (s.setRegs f l).mem = s.mem := by
  rw [s.setRegs_eq f l]

@[simp] theorem State.setRegs_halted (s : State) (f : Reg → Word) (l : List Reg) : (s.setRegs f l).halted = s.halted := by
  rw [s.setRegs_eq f l]

@[simp] theorem State.setRegs_trace (s : State) (f : Reg → Word) (l : List Reg) : (s.setRegs f l).trace = s.trace := by
  rw [s.setRegs_eq f l]

@[simp] theorem State.setRegs_output (s : State) (f : Reg → Word) (l : List Reg) : (s.setRegs f l).output = s.output := by
  rw [s.setRegs_eq f l]

@[simp] theorem State.setRegs_fault (s : State) (f : Reg → Word) (l : List Reg) : (s.setRegs f l).fault = s.fault := by
  rw [s.setRegs_eq f l]

@[simp] theorem State.setRegs_params (s : State) (f : Reg → Word) (l : List Reg) : (s.setRegs f l).params = s.params := by
  rw [s.setRegs_eq f l]

@[simp] theorem State.setRegs_draws (s : State) (f : Reg → Word) (l : List Reg) : (s.setRegs f l).draws = s.draws := by
  rw [s.setRegs_eq f l]

@[simp] theorem State.setRegs_byteAt (s : State) (f : Reg → Word) (l : List Reg) (x : Word) :
    (s.setRegs f l).byteAt x = s.byteAt x := by
  rw [s.setRegs_eq f l]; rfl

@[simp] theorem State.setRegs_implemented (s : State) (f : Reg → Word) (l : List Reg) (x : Word) :
    (s.setRegs f l).implemented x = s.implemented x := by
  rw [s.setRegs_eq f l]; rfl

/-! ## `State.jump` -/

@[simp] theorem State.jump_flags (s : State) (t : Word) : (s.jump t).flags = s.flags := rfl

@[simp] theorem State.jump_mem (s : State) (t : Word) : (s.jump t).mem = s.mem := rfl

@[simp] theorem State.jump_halted (s : State) (t : Word) : (s.jump t).halted = s.halted := rfl

@[simp] theorem State.jump_trace (s : State) (t : Word) : (s.jump t).trace = s.trace := rfl

@[simp] theorem State.jump_output (s : State) (t : Word) : (s.jump t).output = s.output := rfl

@[simp] theorem State.jump_fault (s : State) (t : Word) : (s.jump t).fault = s.fault := rfl

@[simp] theorem State.jump_params (s : State) (t : Word) : (s.jump t).params = s.params := rfl

@[simp] theorem State.jump_draws (s : State) (t : Word) : (s.jump t).draws = s.draws := rfl

@[simp] theorem State.jump_byteAt (s : State) (t : Word) (x : Word) : (s.jump t).byteAt x = s.byteAt x := rfl

@[simp] theorem State.jump_implemented (s : State) (t : Word) (x : Word) : (s.jump t).implemented x = s.implemented x := rfl

/-! ## `State.advancePc` -/

@[simp] theorem State.advancePc_flags (s : State) (n : Nat) : (s.advancePc n).flags = s.flags := rfl

@[simp] theorem State.advancePc_mem (s : State) (n : Nat) : (s.advancePc n).mem = s.mem := rfl

@[simp] theorem State.advancePc_halted (s : State) (n : Nat) : (s.advancePc n).halted = s.halted := rfl

@[simp] theorem State.advancePc_trace (s : State) (n : Nat) : (s.advancePc n).trace = s.trace := rfl

@[simp] theorem State.advancePc_output (s : State) (n : Nat) : (s.advancePc n).output = s.output := rfl

@[simp] theorem State.advancePc_fault (s : State) (n : Nat) : (s.advancePc n).fault = s.fault := rfl

@[simp] theorem State.advancePc_params (s : State) (n : Nat) : (s.advancePc n).params = s.params := rfl

@[simp] theorem State.advancePc_draws (s : State) (n : Nat) : (s.advancePc n).draws = s.draws := rfl

@[simp] theorem State.advancePc_byteAt (s : State) (n : Nat) (x : Word) : (s.advancePc n).byteAt x = s.byteAt x := rfl

@[simp] theorem State.advancePc_implemented (s : State) (n : Nat) (x : Word) : (s.advancePc n).implemented x = s.implemented x := rfl

/-! ## `State.halt` -/

@[simp] theorem State.halt_regs (s : State) : (s.halt).regs = s.regs := rfl

@[simp] theorem State.halt_flags (s : State) : (s.halt).flags = s.flags := rfl

@[simp] theorem State.halt_mem (s : State) : (s.halt).mem = s.mem := rfl

@[simp] theorem State.halt_halted (s : State) : (s.halt).halted = true := rfl

@[simp] theorem State.halt_trace (s : State) : (s.halt).trace = s.trace := rfl

@[simp] theorem State.halt_output (s : State) : (s.halt).output = s.output := rfl

@[simp] theorem State.halt_fault (s : State) : (s.halt).fault = s.fault := rfl

@[simp] theorem State.halt_params (s : State) : (s.halt).params = s.params := rfl

@[simp] theorem State.halt_draws (s : State) : (s.halt).draws = s.draws := rfl

@[simp] theorem State.halt_reg (s : State) (q : Reg) : (s.halt).reg q = s.reg q := rfl

@[simp] theorem State.halt_byteAt (s : State) (x : Word) : (s.halt).byteAt x = s.byteAt x := rfl

@[simp] theorem State.halt_implemented (s : State) (x : Word) : (s.halt).implemented x = s.implemented x := rfl

/-! ## `State.dump` -/

@[simp] theorem State.dump_regs (s : State) (v : Word) : (s.dump v).regs = s.regs := rfl

@[simp] theorem State.dump_flags (s : State) (v : Word) : (s.dump v).flags = s.flags := rfl

@[simp] theorem State.dump_mem (s : State) (v : Word) : (s.dump v).mem = s.mem := rfl

@[simp] theorem State.dump_halted (s : State) (v : Word) : (s.dump v).halted = s.halted := rfl

@[simp] theorem State.dump_trace (s : State) (v : Word) : (s.dump v).trace = s.trace ++ [v] := rfl

@[simp] theorem State.dump_output (s : State) (v : Word) : (s.dump v).output = s.output := rfl

@[simp] theorem State.dump_fault (s : State) (v : Word) : (s.dump v).fault = s.fault := rfl

@[simp] theorem State.dump_params (s : State) (v : Word) : (s.dump v).params = s.params := rfl

@[simp] theorem State.dump_draws (s : State) (v : Word) : (s.dump v).draws = s.draws := rfl

@[simp] theorem State.dump_reg (s : State) (v : Word) (q : Reg) : (s.dump v).reg q = s.reg q := rfl

@[simp] theorem State.dump_byteAt (s : State) (v : Word) (x : Word) : (s.dump v).byteAt x = s.byteAt x := rfl

@[simp] theorem State.dump_implemented (s : State) (v : Word) (x : Word) : (s.dump v).implemented x = s.implemented x := rfl

/-! ## `State.send` -/

@[simp] theorem State.send_regs (s : State) (p v : Word) : (s.send p v).regs = s.regs := rfl

@[simp] theorem State.send_flags (s : State) (p v : Word) : (s.send p v).flags = s.flags := rfl

@[simp] theorem State.send_mem (s : State) (p v : Word) : (s.send p v).mem = s.mem := rfl

@[simp] theorem State.send_halted (s : State) (p v : Word) : (s.send p v).halted = s.halted := rfl

@[simp] theorem State.send_trace (s : State) (p v : Word) : (s.send p v).trace = s.trace := rfl

@[simp] theorem State.send_output (s : State) (p v : Word) : (s.send p v).output = s.output ++ [(p, v)] := rfl

@[simp] theorem State.send_fault (s : State) (p v : Word) : (s.send p v).fault = s.fault := rfl

@[simp] theorem State.send_params (s : State) (p v : Word) : (s.send p v).params = s.params := rfl

@[simp] theorem State.send_draws (s : State) (p v : Word) : (s.send p v).draws = s.draws := rfl

@[simp] theorem State.send_reg (s : State) (p v : Word) (q : Reg) : (s.send p v).reg q = s.reg q := rfl

@[simp] theorem State.send_byteAt (s : State) (p v : Word) (x : Word) : (s.send p v).byteAt x = s.byteAt x := rfl

@[simp] theorem State.send_implemented (s : State) (p v : Word) (x : Word) : (s.send p v).implemented x = s.implemented x := rfl

/-! ## `State.raise` -/

@[simp] theorem State.raise_regs (s : State) (r : Fault) : (s.raise r).regs = s.regs := rfl

@[simp] theorem State.raise_flags (s : State) (r : Fault) : (s.raise r).flags = s.flags := rfl

@[simp] theorem State.raise_mem (s : State) (r : Fault) : (s.raise r).mem = s.mem := rfl

@[simp] theorem State.raise_halted (s : State) (r : Fault) : (s.raise r).halted = s.halted := rfl

@[simp] theorem State.raise_trace (s : State) (r : Fault) : (s.raise r).trace = s.trace := rfl

@[simp] theorem State.raise_output (s : State) (r : Fault) : (s.raise r).output = s.output := rfl

@[simp] theorem State.raise_fault (s : State) (r : Fault) : (s.raise r).fault = some r := rfl

@[simp] theorem State.raise_params (s : State) (r : Fault) : (s.raise r).params = s.params := rfl

@[simp] theorem State.raise_draws (s : State) (r : Fault) : (s.raise r).draws = s.draws := rfl

@[simp] theorem State.raise_reg (s : State) (r : Fault) (q : Reg) : (s.raise r).reg q = s.reg q := rfl

@[simp] theorem State.raise_byteAt (s : State) (r : Fault) (x : Word) : (s.raise r).byteAt x = s.byteAt x := rfl

@[simp] theorem State.raise_implemented (s : State) (r : Fault) (x : Word) : (s.raise r).implemented x = s.implemented x := rfl

@[simp] theorem State.setReg_regs (s : State) (r : Reg) (v : Word) : (s.setReg r v).regs = s.regs.set r v := rfl

/-! ## `writeFlags` -/

@[simp] theorem writeFlags_regs (op : FlagOp) (a b : Word) (n : Size) (s : State) :
    (writeFlags op a b n s).regs = s.regs := by
  unfold writeFlags; split <;> rfl

@[simp] theorem writeFlags_mem (op : FlagOp) (a b : Word) (n : Size) (s : State) :
    (writeFlags op a b n s).mem = s.mem := by
  unfold writeFlags; split <;> rfl

@[simp] theorem writeFlags_halted (op : FlagOp) (a b : Word) (n : Size) (s : State) :
    (writeFlags op a b n s).halted = s.halted := by
  unfold writeFlags; split <;> rfl

@[simp] theorem writeFlags_trace (op : FlagOp) (a b : Word) (n : Size) (s : State) :
    (writeFlags op a b n s).trace = s.trace := by
  unfold writeFlags; split <;> rfl

@[simp] theorem writeFlags_output (op : FlagOp) (a b : Word) (n : Size) (s : State) :
    (writeFlags op a b n s).output = s.output := by
  unfold writeFlags; split <;> rfl

@[simp] theorem writeFlags_fault (op : FlagOp) (a b : Word) (n : Size) (s : State) :
    (writeFlags op a b n s).fault = s.fault := by
  unfold writeFlags; split <;> rfl

@[simp] theorem writeFlags_params (op : FlagOp) (a b : Word) (n : Size) (s : State) :
    (writeFlags op a b n s).params = s.params := by
  unfold writeFlags; split <;> rfl

@[simp] theorem writeFlags_reg (op : FlagOp) (a b : Word) (n : Size) (s : State) (q : Reg) :
    (writeFlags op a b n s).reg q = s.reg q := by
  unfold State.reg; rw [writeFlags_regs]

@[simp] theorem writeFlags_byteAt (op : FlagOp) (a b : Word) (n : Size) (s : State) (x : Word) :
    (writeFlags op a b n s).byteAt x = s.byteAt x := by
  unfold State.byteAt; rw [writeFlags_mem]

@[simp] theorem writeFlags_implemented (op : FlagOp) (a b : Word) (n : Size) (s : State) (x : Word) :
    (writeFlags op a b n s).implemented x = s.implemented x := by
  unfold State.implemented; rw [writeFlags_params]

/-- Under the spec's default the flags are the next free pair, and one draw is used up (R27). -/
theorem writeFlags_free (op : FlagOp) (a b : Word) (n : Size) (s : State) (h : s.params.flagRule = .free) :
    writeFlags op a b n s = { s with flags := freeFlags s.draws op a b n, draws := s.draws + 1 } := by
  unfold writeFlags; rw [h]

/-- Under the customary instantiation the flags are those of R123. -/
theorem writeFlags_customary (op : FlagOp) (a b : Word) (n : Size) (s : State) (h : s.params.flagRule = .customary) :
    writeFlags op a b n s = { s with flags := customaryFlags op a b n } := by
  unfold writeFlags; rw [h]

end Sys2Proof.Machine
end

