-- ==== Sys2Proof/Laws/Memory.lean ====
section
/-! SUPPORT. The laws of memory: read after write, what a write leaves alone, and that every operation keeps the
canonical form. -/

namespace Sys2Proof.Machine

/-! ## One byte -/

theorem Memory.read_erase_same (m : Memory) (a : Nat) : (m.erase a).read a = Config.unlistedByte := by
  induction m with
  | nil => rfl
  | cons c rest ih =>
    by_cases h : c.1 = a
    · simpa [Memory.erase, h] using ih
    · simpa [Memory.erase, h, Memory.read] using ih

theorem Memory.read_erase_ne (m : Memory) {a x : Nat} (h : x ≠ a) : (m.erase a).read x = m.read x := by
  induction m with
  | nil => rfl
  | cons c rest ih =>
    by_cases hc : c.1 = a
    · have hx : ¬ c.1 = x := fun e => h (e ▸ hc)
      simpa [Memory.erase, hc, Memory.read, hx, Ne.symm h] using ih
    · by_cases hx : c.1 = x
      · simp [Memory.erase, Memory.read, hx, h]
      · simpa [Memory.erase, hc, Memory.read, hx] using ih

theorem Memory.read_insert_same (m : Memory) (a : Nat) (v : Byte) (h : ∀ c ∈ m, c.1 ≠ a) :
    (Memory.insert m a v).read a = v := by
  induction m with
  | nil => simp [Memory.insert, Memory.read]
  | cons c rest ih =>
    have hc : ¬ c.1 = a := h c (by simp)
    have hrest := ih fun d hd => h d (by simp [hd])
    by_cases ha : a < c.1
    · simp [Memory.insert, ha, Memory.read]
    · simpa [Memory.insert, ha, Memory.read, hc] using hrest

theorem Memory.read_insert_ne (m : Memory) {a x : Nat} (v : Byte) (h : x ≠ a) :
    (Memory.insert m a v).read x = m.read x := by
  induction m with
  | nil => simp [Memory.insert, Memory.read, Ne.symm h]
  | cons c rest ih =>
    by_cases ha : a < c.1
    · simp [Memory.insert, ha, Memory.read, Ne.symm h]
    · by_cases hx : c.1 = x
      · rw [Memory.insert, if_neg ha]; simp [Memory.read, hx]
      · simpa [Memory.insert, ha, Memory.read, hx] using ih

theorem Memory.mem_erase {m : Memory} {a : Nat} {c : Host.Cell} : c ∈ m.erase a ↔ c ∈ m ∧ c.1 ≠ a := by
  simp [Memory.erase]

/-- A byte reads back as written. -/
@[simp] theorem Memory.read_write_same (m : Memory) (a : Nat) (v : Byte) : (m.write a v).read a = v := by
  unfold Memory.write
  split
  · next h => rw [Memory.read_erase_same, h]
  · exact Memory.read_insert_same _ a v fun c hc => (Memory.mem_erase.1 hc).2

/-- A write leaves every other byte alone. -/
theorem Memory.read_write_ne (m : Memory) {a x : Nat} (v : Byte) (h : x ≠ a) : (m.write a v).read x = m.read x := by
  unfold Memory.write
  split
  · exact Memory.read_erase_ne m h
  · rw [Memory.read_insert_ne _ v h, Memory.read_erase_ne m h]

/-! ## The canonical form -/

theorem Memory.wf_nil : Memory.wf [] := ⟨List.Pairwise.nil, by simp⟩

theorem Memory.wf_erase {m : Memory} (a : Nat) (h : m.wf) : (m.erase a).wf :=
  ⟨h.1.filter _, fun c hc => h.2 c (Memory.mem_erase.1 hc).1⟩

theorem Memory.mem_insert {m : Memory} {a : Nat} {v : Byte} {c : Host.Cell} :
    c ∈ Memory.insert m a v ↔ c = (a, v) ∨ c ∈ m := by
  induction m with
  | nil => simp [Memory.insert]
  | cons d rest ih =>
    by_cases ha : a < d.1
    · simp [Memory.insert, ha]
    · simp only [Memory.insert, ha, if_false, List.mem_cons, ih]
      tauto

theorem Memory.pairwise_insert {m : Memory} {a : Nat} (v : Byte) (h : m.Pairwise (fun c d => c.1 < d.1))
    (ha : ∀ c ∈ m, c.1 ≠ a) : (Memory.insert m a v).Pairwise (fun c d => c.1 < d.1) := by
  induction m with
  | nil => simp [Memory.insert]
  | cons c rest ih =>
    obtain ⟨hc, hrest⟩ := List.pairwise_cons.1 h
    by_cases hlt : a < c.1
    · have below : ∀ d ∈ c :: rest, a < d.1 := by
        intro d hd
        rcases List.mem_cons.1 hd with rfl | hd
        · exact hlt
        · exact hlt.trans (hc d hd)
      simpa [Memory.insert, hlt] using And.intro below h
    · have above : c.1 < a := lt_of_le_of_ne (not_lt.1 hlt) (ha c (by simp))
      simp only [Memory.insert, hlt, if_false]
      refine List.pairwise_cons.2 ⟨fun d hd => ?_, ih hrest fun d hd => ha d (by simp [hd])⟩
      rcases Memory.mem_insert.1 hd with rfl | hd
      · exact above
      · exact hc d hd

theorem Memory.wf_write {m : Memory} {a : Nat} (v : Byte) (h : m.wf) (ha : a < 2 ^ 32) : (m.write a v).wf := by
  unfold Memory.write
  split
  · exact Memory.wf_erase a h
  · next hv =>
    have he := Memory.wf_erase a h
    refine ⟨Memory.pairwise_insert v he.1 fun c hc => (Memory.mem_erase.1 hc).2, fun c hc => ?_⟩
    rcases Memory.mem_insert.1 hc with rfl | hc
    · exact ⟨ha, hv⟩
    · exact he.2 c hc

/-- Writing several bytes keeps the canonical form. -/
theorem Memory.wf_writeBytes {m : Memory} (a : Word) (n : Nat) (v : Word) (h : m.wf) : (m.writeBytes a n v).wf := by
  induction n generalizing m a v with
  | zero => exact h
  | succ n ih => exact ih _ _ (Memory.wf_write _ h a.isLt)

/-- Loading bytes keeps the canonical form. -/
theorem Memory.wf_load {m : Memory} (a : Word) (bs : List Byte) (h : m.wf) : (m.load a bs).wf := by
  induction bs generalizing m a with
  | nil => exact h
  | cons b rest ih => exact ih _ (Memory.wf_write _ h a.isLt)

/-! ## `MemRead` and `MemWrite` -/

/-- Writing several bytes leaves every byte outside them alone. -/
theorem Memory.read_writeBytes_outside (m : Memory) (a : Word) (n : Nat) (v x : Word)
    (h : ∀ k < n, x ≠ a + BitVec.ofNat 32 k) : (m.writeBytes a n v).read x.toNat = m.read x.toNat := by
  induction n generalizing m a v with
  | zero => rfl
  | succ n ih =>
    rw [Memory.writeBytes, ih]
    · refine Memory.read_write_ne m _ fun e => h 0 (by omega) ?_
      rw [BitVec.eq_of_toNat_eq e]; simp
    · intro k hk e
      refine h (k + 1) (by omega) ?_
      rw [e, BitVec.ofNat_add]; ac_rfl

/-- `MemRead` answers exactly when every address is implemented, and then the little-endian value (R41). -/
theorem memRead_eq_ok {a : Word} {n : Nat} {s : State} {v : Word} :
    memRead a n s = .ok v ↔ s.accessOk a n = true ∧ v = s.bytesAt a n := by
  unfold memRead
  split
  · next h => simp only [h, true_and, Except.ok.injEq]; exact eq_comm
  · next h => simp [h]

/-- `MemWrite` answers exactly when every address is implemented, and changes memory alone (R42). -/
theorem memWrite_eq_ok {a : Word} {n : Nat} {v : Word} {s t : State} :
    memWrite a n v s = .ok t ↔ s.accessOk a n = true ∧ t = { s with mem := s.mem.writeBytes a n v } := by
  unfold memWrite
  split
  · next h => simp only [h, true_and, Except.ok.injEq]; exact eq_comm
  · next h => simp [h]

/-- With the whole map implemented every access is in it (R47). -/
theorem State.accessOk_of_wholeMap {s : State} (h : s.wholeMap) (a : Word) (n : Nat) : s.accessOk a n = true := by
  induction n generalizing a with
  | zero => rfl
  | succ n ih => simp [State.accessOk, h a, ih]

/-- An access depends on the parameters alone. -/
theorem State.accessOk_congr {s t : State} (h : t.params = s.params) (a : Word) (n : Nat) :
    t.accessOk a n = s.accessOk a n := by
  induction n generalizing a with
  | zero => rfl
  | succ n ih => simp [State.accessOk, State.implemented, h, ih]

end Sys2Proof.Machine
end

