-- ==== Sys2Proof/Laws/Operands.lean ====
section
/-! SUPPORT. What the shared operations on operands can do: binding, the class check, resolution, reading and storing. -/

namespace Sys2Proof.Machine

/-! ## Outcomes that are chained -/

@[simp] theorem ok_bind {ε α β : Type} (a : α) (f : α → Except ε β) : (Except.ok a >>= f) = f a := rfl

@[simp] theorem error_bind {ε α β : Type} (e : ε) (f : α → Except ε β) : ((Except.error e : Except ε α) >>= f) = .error e := rfl

/-- A chain answers when its first part answers and the rest answers on that. -/
theorem bind_eq_ok {ε α β : Type} {x : Except ε α} {f : α → Except ε β} {b : β} :
    (x >>= f) = .ok b ↔ ∃ a, x = .ok a ∧ f a = .ok b := by
  cases x with
  | ok a => simp
  | error e => simp

@[simp] theorem finish_ok (s : State) : finish (.ok s) = .next s := rfl

@[simp] theorem finish_error (r : Fault) : finish (.error r) = .fault r := rfl

/-- An execution answers a next state exactly when its chain does. -/
theorem finish_eq_next {x : Except Fault State} {t : State} : finish x = .next t ↔ x = .ok t := by
  cases x <;> simp [finish]

/-- An execution faults exactly when its chain does. -/
theorem finish_eq_fault {x : Except Fault State} {r : Fault} : finish x = .fault r ↔ x = .error r := by
  cases x <;> simp [finish]

/-- A chain is never refused. -/
theorem finish_ne_refused (x : Except Fault State) (r : Refusal) : finish x ≠ .refused r := by
  cases x <;> simp [finish]

/-! ## The class check -/

/-- One operand passes when it has a class and its class meets the requirement (R89). -/
theorem checkOperand_eq_ok {p : Params} {o : Operand} {q : Requirement} :
    checkOperand p o q = .ok () ↔ ∃ c, operandClass p o = some c ∧ meets c q = true := by
  unfold checkOperand
  split
  · next h => simp [h]
  · next c h =>
    split <;> simp_all

/-- A list passes when each of its operands does (R89). -/
theorem checkOperands_eq_ok {p : Params} {l : List (Operand × Requirement)} :
    checkOperands p l = .ok () ↔ ∀ x ∈ l, checkOperand p x.1 x.2 = .ok () := by
  induction l with
  | nil => simp [checkOperands]
  | cons x rest ih =>
    obtain ⟨o, q⟩ := x
    simp only [checkOperands, bind_eq_ok, List.mem_cons, forall_eq_or_imp, ih]
    exact ⟨fun ⟨_, h⟩ => h, fun h => ⟨(), h⟩⟩

/-! ## Resolution -/

/-- Everything resolving a body can do: leave the state, or write the one register its mode writes (R72 to R84). -/
theorem resolveBody_cases {b : Body} {s t : State} {p : Place} (h : resolveBody b s = .ok (p, t)) :
    t = s ∨ ∃ r v, r ∈ bodyModifies b ∧ t = s.setReg r v := by
  cases b with
  | memInd a =>
    obtain ⟨w, -, hw⟩ := bind_eq_ok.1 h
    exact .inl (Prod.mk.inj (Except.ok.inj hw)).2.symm
  | postInc r v => exact .inr ⟨r, _, by simp [bodyModifies], (Prod.mk.inj (Except.ok.inj h)).2.symm⟩
  | preDec r v => exact .inr ⟨r, _, by simp [bodyModifies], (Prod.mk.inj (Except.ok.inj h)).2.symm⟩
  | preInc r v => exact .inr ⟨r, _, by simp [bodyModifies], (Prod.mk.inj (Except.ok.inj h)).2.symm⟩
  | postDec r v => exact .inr ⟨r, _, by simp [bodyModifies], (Prod.mk.inj (Except.ok.inj h)).2.symm⟩
  | _ => exact .inl (Prod.mk.inj (Except.ok.inj h)).2.symm

/-- Everything resolving a Scale operand can do: write the registers that `SCALE_RESOLVE` names (R82, R86). -/
theorem resolveScale_cases {r : Reg} {n : Size} {b : Body} {s t : State} {p : Place}
    (h : resolveScale r n b s = .ok (p, t)) :
    t = s.setRegs (Config.scaleWritten r n b s.reg s.byteAt) (Config.scaleWrites r n b) := by
  dsimp only [resolveScale] at h
  split at h
  · exact (Prod.mk.inj (Except.ok.inj h)).2.symm
  · cases h

/-- Everything resolving an operand can do: write registers that its mode writes, and nothing else (R86). -/
theorem resolve_cases {o : Operand} {s t : State} {l : Location} (h : resolve o s = .ok (l, t)) :
    l.sx = o.sx ∧ t = { s with regs := t.regs } ∧ ∀ q, q ∉ modifiedRegs o → t.reg q = s.reg q := by
  obtain ⟨sx, d⟩ := o
  obtain ⟨⟨p, u⟩, hd, hu⟩ := bind_eq_ok.1 h
  obtain ⟨rfl, rfl⟩ := Prod.mk.inj (Except.ok.inj hu)
  refine ⟨rfl, ?_⟩
  cases d with
  | plain b =>
    obtain rfl | ⟨r, v, hr, rfl⟩ := resolveBody_cases hd
    · exact ⟨rfl, fun _ _ => rfl⟩
    · exact ⟨rfl, fun q hq => s.reg_setReg_ne v fun e => hq (by subst e; exact hr)⟩
  | scale r n b =>
    simp only [resolveDesc] at hd
    split at hd
    · cases hd
    · obtain rfl := resolveScale_cases hd
      exact ⟨s.setRegs_eq _ _, fun q hq => s.reg_setRegs_of_not_mem _ hq⟩

/-- Two operands resolve one after the other (R86). -/
theorem resolve2_eq_ok {a b : Operand} {s t : State} {la lb : Location} :
    resolve2 a b s = .ok (la, lb, t) ↔ ∃ u, resolve a s = .ok (la, u) ∧ resolve b u = .ok (lb, t) := by
  simp only [resolve2, bind_eq_ok, Prod.exists, Except.ok.injEq, Prod.mk.injEq]
  constructor
  · rintro ⟨x, u, hx, y, v, hy, rfl, rfl, rfl⟩; exact ⟨u, hx, hy⟩
  · rintro ⟨u, hx, hy⟩; exact ⟨la, u, hx, lb, t, hy, rfl, rfl, rfl⟩

/-- Three operands resolve one after the other (R86). -/
theorem resolve3_eq_ok {a b c : Operand} {s t : State} {la lb lc : Location} :
    resolve3 a b c s = .ok (la, lb, lc, t) ↔
      ∃ u v, resolve a s = .ok (la, u) ∧ resolve b u = .ok (lb, v) ∧ resolve c v = .ok (lc, t) := by
  simp only [resolve3, bind_eq_ok, Prod.exists, Except.ok.injEq, Prod.mk.injEq]
  constructor
  · rintro ⟨x, u, hx, y, v, hy, z, w, hz, rfl, rfl, rfl, rfl⟩; exact ⟨u, v, hx, hy, hz⟩
  · rintro ⟨u, v, hx, hy, hz⟩; exact ⟨la, u, hx, lb, v, hy, lc, t, hz, rfl, rfl, rfl, rfl⟩

/-- Four operands resolve one after the other (R86). -/
theorem resolve4_eq_ok {a b c d : Operand} {s t : State} {la lb lc ld : Location} :
    resolve4 a b c d s = .ok (la, lb, lc, ld, t) ↔
      ∃ u v w, resolve a s = .ok (la, u) ∧ resolve b u = .ok (lb, v) ∧ resolve c v = .ok (lc, w) ∧
        resolve d w = .ok (ld, t) := by
  simp only [resolve4, bind_eq_ok, Prod.exists, Except.ok.injEq, Prod.mk.injEq]
  constructor
  · rintro ⟨x, u, hx, y, v, hy, z, w, hz, x', w', hw, rfl, rfl, rfl, rfl, rfl⟩; exact ⟨u, v, w, hx, hy, hz, hw⟩
  · rintro ⟨u, v, w, hx, hy, hz, hw⟩; exact ⟨la, u, hx, lb, v, hy, lc, w, hz, ld, t, hw, rfl, rfl, rfl, rfl, rfl⟩

/-! ## Reading and storing -/

/-- Everything a store can do: write one register, or write memory (R88). -/
theorem store_cases {l : Location} {v : Word} {s t : State} (h : store l v s = .ok t) :
    (∃ r n, l.place = .reg r n ∧ t = s.setReg r (mergeLow n (s.reg r) v)) ∨
    (∃ a n, l.place = .mem a n ∧ s.accessOk a n.bytes = true ∧ t = { s with mem := s.mem.writeBytes a n.bytes v }) := by
  obtain ⟨sx, p⟩ := l
  cases p with
  | imm w x => cases h
  | reg r n => exact .inl ⟨r, n, rfl, (Except.ok.inj h).symm⟩
  | mem a n => exact .inr ⟨a, n, rfl, memWrite_eq_ok.1 h⟩

/-- A location other than memory always has a value (R87). -/
theorem val_of_not_mem {l : Location} (s : State) (h : ∀ a n, l.place ≠ .mem a n) : ∃ v, val l s = .ok v := by
  obtain ⟨sx, p⟩ := l
  cases p with
  | imm w x => exact ⟨_, rfl⟩
  | reg r n => exact ⟨_, rfl⟩
  | mem a n => exact absurd rfl (h a n)

/-- With the whole map implemented every location has a value (R47, R87). -/
theorem val_of_wholeMap (l : Location) {s : State} (h : s.wholeMap) : ∃ v, val l s = .ok v := by
  obtain ⟨sx, p⟩ := l
  cases p with
  | imm w x => exact ⟨_, rfl⟩
  | reg r n => exact ⟨_, rfl⟩
  | mem a n =>
    refine ⟨widen sx (8 * n.bytes) (s.bytesAt a n.bytes), ?_⟩
    simp [val, memRead, State.accessOk_of_wholeMap h]

/-- With the whole map implemented a body resolves, and the map stays whole (R47, R86). -/
theorem resolveBody_of_wholeMap (b : Body) {s : State} (h : s.wholeMap) :
    ∃ p t, resolveBody b s = .ok (p, t) ∧ t.wholeMap := by
  cases b with
  | memInd a =>
    refine ⟨.mem (s.bytesAt a 4) .b4, s, ?_, h⟩
    simp [resolveBody, memRead, State.accessOk_of_wholeMap h]
  | postInc r v => exact ⟨_, _, rfl, h⟩
  | preDec r v => exact ⟨_, _, rfl, h⟩
  | preInc r v => exact ⟨_, _, rfl, h⟩
  | postDec r v => exact ⟨_, _, rfl, h⟩
  | _ => exact ⟨_, _, rfl, h⟩

/-- With the whole map implemented an operand that has a class resolves, and the map stays whole (R47, R86). -/
theorem resolve_of_wholeMap {o : Operand} {s : State} (h : s.wholeMap) (ho : operandClass s.params o ≠ none) :
    ∃ l t, resolve o s = .ok (l, t) ∧ t.wholeMap := by
  obtain ⟨sx, d⟩ := o
  cases d with
  | plain b =>
    obtain ⟨p, t, hb, ht⟩ := resolveBody_of_wholeMap b h
    exact ⟨⟨sx, p⟩, t, by simp [resolve, resolveDesc, hb], ht⟩
  | scale r n b =>
    have hg : s.params.scaleRule = .given := by
      cases e : s.params.scaleRule with
      | given => rfl
      | refuse => simp [operandClass, e] at ho
    let v := Config.scaleWritten r n b s.reg s.byteAt
    let w := Config.scaleWrites r n b
    refine ⟨⟨sx, scalePlace (Config.scaleClass r n b) (Config.scaleResolve r n b s.reg s.byteAt)⟩, s.setRegs v w, ?_, ?_⟩
    · have hr : (Config.scaleResolve r n b s.reg s.byteAt).reads.all s.implemented = true :=
        List.all_eq_true.2 fun a _ => h a
      simp [resolve, resolveDesc, hg, resolveScale, hr, v, w]
    · intro a
      rw [s.setRegs_eq v w]
      exact h a

end Sys2Proof.Machine
end

