-- ==== Sys2Proof/Laws/PerInstr.lean ====
section
/-! SUPPORT. A statement about every instruction as syntax, one lemma per constructor: its operand list is a form that
R62 lists for its opcode, assembling that list gives the instruction back, and each operand has one requirement. -/

namespace Sys2Proof.Laws.OperandForms

open Sys2Proof.Machine in
/-- The operands of an instruction are a form of its opcode (R62), assemble to it (R63), and are what its class check
looks at, in order (R89). -/
def Statement (i : Instr) : Prop :=
  i.operands.length ≤ i.maxOps ∧
  (∀ o, i.head = .defined o → i.operands.length ∈ o.forms ∧ assemble o i.operands = some i) ∧
  (requirements i).map Prod.fst = i.operands

/-- `MaxOps` is an upper bound of `Forms` (R62). -/
theorem forms_le_maxOps {o : Opcode} {n : Nat} (h : n ∈ o.forms) : n ≤ o.maxOps := by
  cases o <;> simp [Opcode.forms] at h <;> simp [Opcode.maxOps] <;> omega

open Sys2Proof.Machine in
/-- The statement of a defined instruction, from its own parts. -/
theorem statement_of {i : Instr} {o : Opcode} (hd : i.head = .defined o) (hf : i.operands.length ∈ o.forms)
    (ha : assemble o i.operands = some i) (hr : (requirements i).map Prod.fst = i.operands) : Statement i := by
  refine ⟨?_, ?_, hr⟩
  · simpa [Instr.maxOps, hd] using forms_le_maxOps hf
  · intro o' ho'
    obtain rfl := Head.defined.inj (hd.symm.trans ho')
    exact ⟨hf, ha⟩

theorem hlt : Statement .hlt :=
  statement_of rfl (by simp [Instr.operands, Opcode.forms]) rfl rfl

theorem nop : Statement .nop :=
  statement_of rfl (by simp [Instr.operands, Opcode.forms]) rfl rfl

theorem clr (a : Operand) : Statement (.clr a) :=
  statement_of rfl (by simp [Instr.operands, Opcode.forms]) rfl rfl

theorem dmp (a : Operand) : Statement (.dmp a) :=
  statement_of rfl (by simp [Instr.operands, Opcode.forms]) rfl rfl

theorem out (ops : OneOrTwo) : Statement (.out ops) := by
  cases ops <;> exact statement_of rfl (by simp [Instr.operands, OneOrTwo.toList, Opcode.forms]) rfl rfl

theorem add (ops : TwoOrThree) : Statement (.add ops) := by
  cases ops <;> exact statement_of rfl (by simp [Instr.operands, TwoOrThree.toList, Opcode.forms]) rfl rfl

theorem sub (ops : TwoOrThree) : Statement (.sub ops) := by
  cases ops <;> exact statement_of rfl (by simp [Instr.operands, TwoOrThree.toList, Opcode.forms]) rfl rfl

theorem mul (ops : TwoToFour) : Statement (.mul ops) := by
  cases ops <;> exact statement_of rfl (by simp [Instr.operands, TwoToFour.toList, Opcode.forms]) rfl rfl

theorem div (ops : TwoToFour) : Statement (.div ops) := by
  cases ops <;> exact statement_of rfl (by simp [Instr.operands, TwoToFour.toList, Opcode.forms]) rfl rfl

theorem mod (a b c : Operand) : Statement (.mod a b c) :=
  statement_of rfl (by simp [Instr.operands, Opcode.forms]) rfl rfl

theorem and (ops : TwoOrThree) : Statement (.and ops) := by
  cases ops <;> exact statement_of rfl (by simp [Instr.operands, TwoOrThree.toList, Opcode.forms]) rfl rfl

theorem or (ops : TwoOrThree) : Statement (.or ops) := by
  cases ops <;> exact statement_of rfl (by simp [Instr.operands, TwoOrThree.toList, Opcode.forms]) rfl rfl

theorem xor (ops : TwoOrThree) : Statement (.xor ops) := by
  cases ops <;> exact statement_of rfl (by simp [Instr.operands, TwoOrThree.toList, Opcode.forms]) rfl rfl

theorem cmp (ops : OneOrTwo) : Statement (.cmp ops) := by
  cases ops <;> exact statement_of rfl (by simp [Instr.operands, OneOrTwo.toList, Opcode.forms]) rfl rfl

theorem inc (a : Operand) : Statement (.inc a) :=
  statement_of rfl (by simp [Instr.operands, Opcode.forms]) rfl rfl

theorem dec (a : Operand) : Statement (.dec a) :=
  statement_of rfl (by simp [Instr.operands, Opcode.forms]) rfl rfl

theorem mov (a b : Operand) : Statement (.mov a b) :=
  statement_of rfl (by simp [Instr.operands, Opcode.forms]) rfl rfl

theorem swp (a b : Operand) : Statement (.swp a b) :=
  statement_of rfl (by simp [Instr.operands, Opcode.forms]) rfl rfl

theorem cpy (ops : TwoToFour) : Statement (.cpy ops) := by
  cases ops <;> exact statement_of rfl (by simp [Instr.operands, TwoToFour.toList, Opcode.forms]) rfl rfl

theorem jmp (a : Operand) : Statement (.jmp a) :=
  statement_of rfl (by simp [Instr.operands, Opcode.forms]) rfl rfl

theorem jal (a : Operand) : Statement (.jal a) :=
  statement_of rfl (by simp [Instr.operands, Opcode.forms]) rfl rfl

theorem ret : Statement .ret :=
  statement_of rfl (by simp [Instr.operands, Opcode.forms]) rfl rfl

theorem beq (ops : TwoOrThree) : Statement (.beq ops) := by
  cases ops <;> exact statement_of rfl (by simp [Instr.operands, TwoOrThree.toList, Opcode.forms]) rfl rfl

theorem bne (ops : TwoOrThree) : Statement (.bne ops) := by
  cases ops <;> exact statement_of rfl (by simp [Instr.operands, TwoOrThree.toList, Opcode.forms]) rfl rfl

theorem bgt (ops : TwoOrThree) : Statement (.bgt ops) := by
  cases ops <;> exact statement_of rfl (by simp [Instr.operands, TwoOrThree.toList, Opcode.forms]) rfl rfl

theorem bge (ops : TwoOrThree) : Statement (.bge ops) := by
  cases ops <;> exact statement_of rfl (by simp [Instr.operands, TwoOrThree.toList, Opcode.forms]) rfl rfl

theorem bie (ops : TwoOrThree) : Statement (.bie ops) := by
  cases ops <;> exact statement_of rfl (by simp [Instr.operands, TwoOrThree.toList, Opcode.forms]) rfl rfl

theorem bde (ops : TwoOrThree) : Statement (.bde ops) := by
  cases ops <;> exact statement_of rfl (by simp [Instr.operands, TwoOrThree.toList, Opcode.forms]) rfl rfl

theorem bao (a : Operand) : Statement (.bao a) :=
  statement_of rfl (by simp [Instr.operands, Opcode.forms]) rfl rfl

theorem bac (a : Operand) : Statement (.bac a) :=
  statement_of rfl (by simp [Instr.operands, Opcode.forms]) rfl rfl

theorem unspecified (b : Byte) : Statement (.unspecified b) :=
  ⟨Nat.le_refl 0, fun _ h => Head.noConfusion h, rfl⟩

end Sys2Proof.Laws.OperandForms
end

