-- ==== Sys2Proof/Tests/Slice0.lean ====
section
/-! SUPPORT. The model's own tests: ill-formed terms, words written out from the encoding tables of 30_encoding.md,
single steps whose expected results are the vectors of 95_test_vectors.md (its number stands beside each), and
for each statement that has hypotheses a state and operands that meet them. -/

namespace Sys2Proof.Tests.Slice0

open Sys2Proof Sys2Proof.Machine

/-! ## Small states and what is looked at in them -/

/-- The reset machine with bytes at `pc`, data elsewhere and some registers set. -/
def boot (pc : Word) (prog : List Byte) (data : List (Word × List Byte)) (regs : List (Reg × Word)) : State :=
  let s : State := { State.reset with mem := data.foldl (fun m d => m.load d.1 d.2) (Memory.load [] pc prog) }
  (regs.foldl (fun s p => s.setReg p.1 p.2) s).jump pc

/-- The convention of 95 section 2: the instruction stands at 0x10. -/
def vec (prog : List Byte) (data : List (Word × List Byte)) (regs : List (Reg × Word)) : State :=
  boot 0x10 prog data regs

/-- The data "D" of 95 section 2. -/
def dataD : List (Word × List Byte) :=
  [(0x100, [0x44, 0x33, 0x22, 0x11, 0x88, 0x77, 0x66, 0x55]), (0x40, [0x00, 0x01, 0x00, 0x00])]

/-- The data "S" of 95 section 2.4. -/
def dataS : List (Word × List Byte) := [(0x30, [0x48, 0x69, 0x00, 0x77])]

/-- The data "P" of 95 section 2.4. -/
def dataP : List (Word × List Byte) := [(0x30, [0x02, 0x00, 0x00, 0x00, 0x41, 0x42, 0x43])]

/-- A fact about the state one step on; false where there is none. -/
def then? (s : State) (p : State → Bool) : Bool :=
  match step s with
  | .next t => p t
  | .fault _ => false
  | .refused _ => false

/-- Whether a step faults for a reason. -/
def faults (s : State) (r : Fault) : Bool :=
  match step s with
  | .next _ => false
  | .fault q => q == r
  | .refused _ => false

/-- Whether registers hold values. -/
def has (t : State) (l : List (Reg × Word)) : Bool := l.all fun p => t.reg p.1 == p.2

/-- Whether bytes stand in memory from an address on. -/
def holds (t : State) : Word → List Byte → Bool
  | _, [] => true
  | a, b :: rest => t.byteAt a == b && holds t (a + 1) rest

/-- A machine whose memory is the 256 bytes from 0 on. -/
def small (s : State) : State := { s with params := { s.params with memMap := [⟨0, 0x100⟩] } }

/-- Comparisons taken as unsigned. -/
def unsignedCompare (s : State) : State := { s with params := { s.params with compareSigned := false } }

/-- The full register, unmarked. -/
def full (r : Reg) : Operand := ⟨false, .plain (.reg r .b4)⟩

/-- A nybble immediate, unmarked. -/
def nyb (v : BitVec 4) : Operand := ⟨false, .plain (.nyb v)⟩

/-- An absolute operand, unmarked. -/
def absolute (a : Word) : Operand := ⟨false, .plain (.abs a)⟩

/-! ## Ill-formed terms -/

theorem test_wf_refuses_a_wide_immediate : (Operand.wf ⟨false, .plain (.imm .b1 0x100)⟩) = false := by decide
theorem test_wf_refuses_a_wide_immediate_in_scale :
    (Operand.wf ⟨true, .scale .r2 .b1 (.imm .b3 0x1000000)⟩) = false := by decide
theorem test_wf_refuses_a_defined_byte_as_unspecified : (Instr.unspecified 0x22).wf = false := by decide
theorem test_wf_refuses_a_bad_operand_of_an_instruction :
    (Instr.mov (full .r0) ⟨false, .plain (.imm .b2 0x10000)⟩).wf = false := by decide
theorem test_wf_takes_the_widest_immediates :
    (Instr.mov (full .r0) ⟨false, .plain (.imm .b3 0xFFFFFF)⟩).wf = true := by decide

/-! ## Words written out from the encodings -/

/-- Whether bytes decode to an instruction and are all of it. -/
def reads (bs : List Byte) (i : Instr) : Bool := decide (decodeBytes bs = .ok (i, bs.length))

theorem test_decode_hlt : reads [0x00] .hlt = true := by decide
theorem test_decode_nop : reads [0x01] .nop = true := by decide
theorem test_decode_clr : reads [0b00000010, 0b00111100, 0x05] (.clr ⟨false, .plain (.reg .r5 .b1)⟩) = true := by
  decide
theorem test_decode_dmp : reads [0x03, 0x01, 0x01, 0b00011111] (.dmp ⟨true, .plain (.nyb 0xF)⟩) = true := by decide
theorem test_decode_out : reads [0x04, 0b00110111, 0b00010001] (.out (.two (full .r1) (nyb 1))) = true := by decide
theorem test_decode_out_one : reads [0x04, 0b00110111, 0x00] (.out (.one (full .r1))) = true := by decide
theorem test_decode_add : reads [0x10, 0b00110011, 0b00111011, 0x00] (.add (.two (full .r0) (full .pB))) = true := by
  decide
theorem test_decode_sub :
    reads [0x11, 0b00110011, 0b00110111, 0b00111111, 0x0C] (.sub (.three (full .r0) (full .r1) (full .pR))) = true := by
  decide
theorem test_decode_mul :
    reads [0x12, 0b00110011, 0b00110111, 0b00100000, 0xFF, 0b00100001, 0x34, 0x12]
      (.mul (.four (full .r0) (full .r1) ⟨false, .plain (.imm .b1 0xFF)⟩ ⟨false, .plain (.imm .b2 0x1234)⟩)) = true := by
  decide
theorem test_decode_div :
    reads [0x13, 0b00110011, 0b01000110, 0x00] (.div (.two (full .r0) ⟨false, .plain (.regInd .r1 .b3)⟩)) = true := by
  decide
theorem test_decode_mod :
    reads [0x14, 0b00110011, 0b00010111, 0b00010010] (.mod (full .r0) (nyb 7) (nyb 2)) = true := by decide
theorem test_decode_and :
    reads [0x15, 0b01010000, 0x40, 0b00010001, 0x00]
      (.and (.two ⟨false, .plain (.memInd 0x40)⟩ (nyb 1))) = true := by decide
theorem test_decode_or :
    reads [0x16, 0b01100001, 0b00010001, 0x00] (.or (.two ⟨false, .plain (.index .r0 .r1)⟩ (nyb 1))) = true := by decide
theorem test_decode_xor :
    reads [0x17, 0b01101111, 0x02, 0x0E, 0b00010001, 0x00]
      (.xor (.two ⟨false, .plain (.index .r2 .pS)⟩ (nyb 1))) = true := by decide
theorem test_decode_cmp : reads [0x18, 0b00110001, 0x00] (.cmp (.one ⟨false, .plain (.reg .r0 .b2)⟩)) = true := by decide
theorem test_decode_inc :
    reads [0x19, 0b01111110, 0x0E, 0x01, 0x02, 0x03] (.inc ⟨false, .plain (.disp .pS 0x030201)⟩) = true := by decide
theorem test_decode_dec : reads [0x1A, 0b10000001, 0x34, 0x12] (.dec (absolute 0x1234)) = true := by decide
theorem test_decode_mov :
    reads [0x20, 0b10101111, 0x0E, 0b10011001]
      (.mov ⟨false, .plain (.preDec .pS .b4)⟩ ⟨false, .plain (.postInc .pB .b2)⟩) = true := by decide
theorem test_decode_swp :
    reads [0x21, 0b11000110, 0b11010000]
      (.swp ⟨false, .plain (.preInc .r1 .b3)⟩ ⟨false, .plain (.postDec .r0 .b1)⟩) = true := by decide
theorem test_decode_cpy :
    reads [0x22, 0x80, 0x40, 0x80, 0x30, 0x14, 0x00] (.cpy (.three (absolute 0x40) (absolute 0x30) (nyb 4))) = true := by
  decide
theorem test_decode_jmp :
    reads [0x31, 0b10000011, 0x78, 0x56, 0x34, 0x12] (.jmp (absolute 0x12345678)) = true := by decide
theorem test_decode_jal :
    reads [0x32, 0b10110100, 0b10000000, 0x20] (.jal ⟨false, .scale .r1 .b1 (.abs 0x20)⟩) = true := by decide
theorem test_decode_ret : reads [0x33] .ret = true := by decide
theorem test_decode_beq : reads [0x34, 0x37, 0x80, 0x12, 0x00] (.beq (.two (full .r1) (absolute 0x12))) = true := by
  decide
theorem test_decode_bne :
    reads [0x35, 0x37, 0x11, 0x80, 0x12] (.bne (.three (full .r1) (nyb 1) (absolute 0x12))) = true := by decide
theorem test_decode_bgt : reads [0x36, 0x37, 0x80, 0x12, 0x00] (.bgt (.two (full .r1) (absolute 0x12))) = true := by
  decide
theorem test_decode_bge : reads [0x37, 0x37, 0x80, 0x12, 0x00] (.bge (.two (full .r1) (absolute 0x12))) = true := by
  decide
theorem test_decode_bie : reads [0x38, 0x37, 0x80, 0x12, 0x00] (.bie (.two (full .r1) (absolute 0x12))) = true := by
  decide
theorem test_decode_bde : reads [0x39, 0x37, 0x80, 0x12, 0x00] (.bde (.two (full .r1) (absolute 0x12))) = true := by
  decide
theorem test_decode_bao : reads [0x3A, 0x80, 0x12] (.bao (absolute 0x12)) = true := by decide
theorem test_decode_bac : reads [0x3B, 0x80, 0x12] (.bac (absolute 0x12)) = true := by decide
/-- R71: a register byte names r0, r1 and pB too. -/
theorem test_decode_register_bytes_of_quick_registers :
    reads [0x19, 0b00111111, 0x00] (.inc (full .r0)) = true ∧ reads [0x19, 0b00111111, 0x01] (.inc (full .r1)) = true ∧
    reads [0x19, 0b00111111, 0x0D] (.inc (full .pB)) = true := by decide
/-- R76, R78, R79: an address or a displacement in more bytes than it needs. -/
theorem test_decode_wide_addresses :
    reads [0x31, 0b10000011, 0x05, 0x00, 0x00, 0x00] (.jmp (absolute 5)) = true ∧
    reads [0x31, 0b01010001, 0x40, 0x00] (.jmp ⟨false, .plain (.memInd 0x40)⟩) = true ∧
    reads [0x31, 0b01111010, 0x10, 0x00, 0x00] (.jmp ⟨false, .plain (.disp .pB 0x10)⟩) = true := by decide
theorem test_decode_unspecified : reads [0x30] (.unspecified 0x30) = true := by decide
/-- Vectors F1 to F9, F12 and R82: bytes that have no meaning, each by the name of its reason. -/
theorem test_decode_rejects_by_name :
    decodeBytes [0x03, 0xE0] = .error .undefinedMode ∧ decodeBytes [0x03, 0x02, 0x33] = .error .reservedControlCode ∧
    decodeBytes [0x03, 0x01, 0x00] = .error .malformedOperand ∧ decodeBytes [0x03, 0x24, 0x00] = .error .reservedEncoding ∧
    decodeBytes [0x03, 0x3F, 0x1E] = .error .reservedEncoding ∧ decodeBytes [0x03, 0x00] = .error .operandCount ∧
    decodeBytes [0x03, 0xB0, 0xB0, 0x33] = .error .malformedOperand ∧
    decodeBytes [0x03, 0xB0, 0x01, 0x33] = .error .malformedOperand ∧
    decodeBytes [0x10, 0x33, 0x00] = .error .operandCount := by decide
/-- R64, R71, R82: the same further on in a slot. -/
theorem test_decode_rejects_later_bytes :
    decodeBytes [0x03, 0x01, 0x02] = .error .reservedControlCode ∧
    decodeBytes [0x03, 0x01, 0x01, 0x00] = .error .malformedOperand ∧
    decodeBytes [0x03, 0x6F, 0x02, 0x1E] = .error .reservedEncoding ∧
    decodeBytes [0x03, 0xBC, 0x05, 0x00] = .error .malformedOperand ∧
    decodeBytes [0x03, 0xB0, 0xE0] = .error .undefinedMode ∧
    decodeBytes [0x03, 0xB0, 0x24] = .error .reservedEncoding := by decide

/-! ## Single steps: CPU Control -/

/-- CC1. -/
theorem test_step_hlt : then? (boot 0x13 [0x00] [] []) (fun t => t.halted && has t [(.pc, 0x14)]) = true := by decide
/-- CC2. -/
theorem test_step_nop : then? (boot 0x20 [0x01] [] []) (fun t => !t.halted && has t [(.pc, 0x21)]) = true := by decide
/-- CC4. -/
theorem test_step_clr_low_byte :
    then? (vec [0x02, 0x30] [] [(.r0, 0xDEADBEEF)]) (fun t => has t [(.r0, 0xDEADBE00), (.pc, 0x12)]) = true := by decide
/-- CC6: the program counter cleared is a jump to 0. -/
theorem test_step_clr_pc : then? (vec [0x02, 0x3F, 0x0F] [] []) (fun t => has t [(.pc, 0)]) = true := by decide
/-- OP16. -/
theorem test_step_dmp_displacement_wraps :
    then? (vec [0x03, 0x7B, 0xFC, 0xFF, 0xFF, 0xFF] dataD [(.pB, 0x104)]) (fun t => t.trace == [0x11223344]) = true := by
  decide
/-- OP9. -/
theorem test_step_dmp_sign_extends :
    then? (vec [0x03, 0x01, 0x3D, 0x05] [] [(.r5, 0xAABBCCDD)]) (fun t => t.trace == [0xFFFFCCDD]) = true := by decide
/-- CC8. -/
theorem test_step_out_port_zero :
    then? (vec [0x04, 0x37, 0x00] [] [(.r1, 0x48)]) (fun t => t.output == [(0, 0x48)] && has t [(.pc, 0x13)]) = true := by
  decide
/-- CC10. -/
theorem test_step_out_port_given :
    then? (vec [0x04, 0x01, 0x20, 0xFF, 0x21, 0x34, 0x12] [] []) (fun t => t.output == [(0x1234, 0xFFFFFFFF)]) = true := by
  decide
/-- CC12. -/
theorem test_step_unspecified :
    then? (boot 0x40 [0xFF, 0x00] [] []) (fun t => !t.halted && has t [(.pc, 0x41)]) = true := by decide

/-! ## Single steps: Basic Arithmetic and Logic -/

/-- A4: a carry out of the byte does not reach the rest of the register. -/
theorem test_step_add_in_a_byte :
    then? (vec [0x10, 0x30, 0x37, 0x00] [] [(.r0, 0x112233FF), (.r1, 1)]) (fun t => has t [(.r0, 0x11223300)]) = true := by
  decide
/-- A6. -/
theorem test_step_add_to_memory :
    then? (vec [0x10, 0x47, 0x33, 0x37] dataD [(.r0, 0xFFFFFFFF), (.r1, 0x100)])
      (fun t => holds t 0x100 [0xFF, 0x00, 0x00, 0x00, 0x88] && has t [(.r1, 0x100)]) = true := by decide
/-- A8. -/
theorem test_step_sub_three_operands :
    then? (vec [0x11, 0x33, 0x37, 0x33] [] [(.r0, 3), (.r1, 10)]) (fun t => has t [(.r0, 7), (.r1, 10)]) = true := by
  decide
/-- A10. -/
theorem test_step_mul_four_operands :
    then? (vec [0x12, 0x33, 0x37, 0x23, 0, 0, 1, 0, 0x23, 0, 0, 1, 0] [] [])
      (fun t => has t [(.r0, 0), (.r1, 1)]) = true := by decide
/-- A12: the overflow of a one-byte destination starts at bit 8 of the product. -/
theorem test_step_mul_byte_overflow :
    then? (vec [0x12, 0x30, 0x37, 0x20, 0xFF, 0x20, 0xFF] [] [(.r0, 0xAAAAAAAA), (.r1, 0xBBBBBBBB)])
      (fun t => has t [(.r0, 0xAAAAAA01), (.r1, 0xFE)]) = true := by decide
/-- A17 under the default of `DIV3_MOD_RULE`. -/
theorem test_step_div_literal :
    then? (vec [0x13, 0x33, 0x37, 0x3F, 0x02, 0x00] [] [(.r1, 17), (.r2, 5)])
      (fun t => has t [(.r0, 3), (.r1, 2), (.r2, 2)]) = true := by decide
/-- A20. -/
theorem test_step_div_rounds_toward_zero :
    then? (vec [0x13, 0x33, 0x37, 0x01, 0x19, 0x12] [] []) (fun t => has t [(.r0, 0xFFFFFFFD), (.r1, 0xFFFFFFFF)]) = true := by
  decide
/-- A25. -/
theorem test_step_mod_takes_the_dividends_sign :
    then? (vec [0x14, 0x33, 0x01, 0x19, 0x12] [] []) (fun t => has t [(.r0, 0xFFFFFFFF), (.pc, 0x15)]) = true := by decide
/-- A26. -/
theorem test_step_mod_by_zero : faults (vec [0x14, 0x33, 0x17, 0x10] [] []) .divideByZero = true := by decide
/-- A27. -/
theorem test_step_and : then? (vec [0x15, 0x33, 0x1F, 0x00] [] [(.r0, 0x1234)]) (fun t => has t [(.r0, 4)]) = true := by
  decide
/-- A28. -/
theorem test_step_or : then? (vec [0x16, 0x33, 0x18, 0x00] [] [(.r0, 0x21)]) (fun t => has t [(.r0, 0x29)]) = true := by
  decide
/-- A29. -/
theorem test_step_xor :
    then? (vec [0x17, 0x33, 0x37, 0x00] [] [(.r0, 0xFF00), (.r1, 0x0FF0)]) (fun t => has t [(.r0, 0xF0F0)]) = true := by
  decide
/-- A33. -/
theorem test_step_cmp_in_a_half :
    then? (vec [0x18, 0x31, 0x20, 0x0F] [] [(.r0, 0x11111111)]) (fun t => has t [(.r0, 0x1111FFF0)]) = true := by decide
/-- A35. -/
theorem test_step_inc_wraps_in_a_byte :
    then? (vec [0x19, 0x44] [(0x100, [0xFF, 0x7E])] [(.r1, 0x100)]) (fun t => holds t 0x100 [0x00, 0x7E]) = true := by decide
/-- A39. -/
theorem test_step_dec_wraps_in_a_byte :
    then? (vec [0x1A, 0x34] [] [(.r1, 0x55555500)]) (fun t => has t [(.r1, 0x555555FF)]) = true := by decide

/-! ## Single steps: Memory Management -/

/-- M2. -/
theorem test_step_mov_sign_extends :
    then? (vec [0x20, 0x33, 0x01, 0x40] [(0x30, [0x80])] [(.r0, 0x30)]) (fun t => has t [(.r0, 0xFFFFFF80)]) = true := by
  decide
/-- M7: the low byte of the program counter that has already advanced. -/
theorem test_step_mov_to_a_byte_of_pc :
    then? (boot 0x1234 [0x20, 0x3C, 0x0F, 0x20, 0x40] [] []) (fun t => has t [(.pc, 0x1240)]) = true := by decide
/-- S2. -/
theorem test_step_swp_of_two_sizes :
    then? (vec [0x21, 0x30, 0x37] [] [(.r0, 0x999999AB), (.r1, 0x11223344)])
      (fun t => has t [(.r0, 0x99999944), (.r1, 0xAB)]) = true := by decide
/-- S3. -/
theorem test_step_swp_with_memory :
    then? (vec [0x21, 0x33, 0x47] dataD [(.r0, 7), (.r1, 0x100)])
      (fun t => has t [(.r0, 0x11223344)] && holds t 0x100 [7, 0, 0, 0]) = true := by decide
/-- C7: an overlapping copy smears upward. -/
theorem test_step_cpy_overlap :
    then? (vec [0x22, 0x80, 0x31, 0x80, 0x30, 0x14, 0x00] [(0x30, [0x41, 0x42, 0x43, 0x44, 0x45])] [])
      (fun t => holds t 0x30 [0x41, 0x41, 0x41, 0x41, 0x41, 0x00]) = true := by decide
/-- C9: the limit cuts the length word of a Pascal string. -/
theorem test_step_cpy_pascal_cut_by_limit :
    then? (vec [0x22, 0x80, 0x40, 0x80, 0x30, 0x11, 0x13] ((0x40, [9, 9, 9, 9]) :: dataP) [])
      (fun t => holds t 0x40 [0x02, 0x00, 0x00, 0x09]) = true := by decide

/-! ## Single steps: Change of Location -/

/-- J3. -/
theorem test_step_jmp_through_a_pointer : then? (vec [0x31, 0x50, 0x40] dataD []) (fun t => has t [(.pc, 0x100)]) = true := by
  decide
/-- J4. -/
theorem test_step_jmp_relative : then? (vec [0x31, 0x7C, 0x0F, 0x10] [] []) (fun t => has t [(.pc, 0x24)]) = true := by decide
/-- L2. -/
theorem test_step_jal :
    then? (boot 0x0D [0x32, 0x83, 0x00, 0x00, 0x01, 0x00] [] [(.pS, 0x80), (.pB, 0x1111), (.pR, 0x2222)])
      (fun t => holds t 0x78 [0x22, 0x22, 0x00, 0x00, 0x11, 0x11, 0x00, 0x00] &&
        has t [(.pB, 0x7C), (.pS, 0x78), (.pR, 0x13), (.pc, 0x10000)]) = true := by decide
/-- L3: the target is the stack pointer as it was before the push. -/
theorem test_step_jal_to_the_old_stack_pointer :
    then? (vec [0x32, 0x4F, 0x0E] [] [(.pS, 0x80)])
      (fun t => has t [(.pc, 0x80), (.pB, 0x7C), (.pS, 0x78), (.pR, 0x13)]) = true := by decide

/-- The state of vectors R1 to R3, with the word at 0x80 given. -/
def callee (top : List Byte) : State :=
  boot 0x10000 [0x33] [(0x78, [0x22, 0x22, 0x00, 0x00, 0x11, 0x11, 0x00, 0x00]), (0x80, top)]
    [(.pR, 0x13), (.pB, 0x7C), (.pS, 0x60)]

/-- The same machine under the other value of `RET_PS_RULE`. -/
def arithmeticReturn (s : State) : State := { s with params := { s.params with retPsRule := .arithmetic } }

/-- R3 with the literal rule. -/
theorem test_step_ret_literal :
    then? (callee [0xEF, 0xBE, 0xAD, 0xDE])
      (fun t => has t [(.pc, 0x13), (.pR, 0x2222), (.pS, 0xDEADBEEF), (.pB, 0x1111)]) = true := by decide
/-- R3 with the arithmetic rule. -/
theorem test_step_ret_arithmetic :
    then? (arithmeticReturn (callee [0xEF, 0xBE, 0xAD, 0xDE]))
      (fun t => has t [(.pc, 0x13), (.pR, 0x2222), (.pS, 0x80), (.pB, 0x1111)]) = true := by decide
/-- B4. -/
theorem test_step_beq_zero_extends :
    then? (vec [0x34, 0x30, 0x23, 0xFF, 0xFF, 0xFF, 0xFF, 0x80, 0x40] [] [(.r0, 0xFF)])
      (fun t => has t [(.pc, 0x19)]) = true := by decide
/-- B21: the register is read after the target's increment. -/
theorem test_step_beq_after_the_increment :
    then? (vec [0x34, 0x33, 0x93, 0x00] [] [(.r0, 0x100)]) (fun t => has t [(.r0, 0x104), (.pc, 0x14)]) = true := by decide
/-- B6. -/
theorem test_step_bne : then? (vec [0x35, 0x37, 0x80, 0x05, 0x00] [] [(.r1, 3)]) (fun t => has t [(.pc, 5)]) = true := by
  decide
/-- B9, both ways. -/
theorem test_step_bgt_signedness :
    then? (vec [0x36, 0x33, 0x80, 0x40, 0x00] [] [(.r0, 0x80000000)]) (fun t => has t [(.pc, 0x15)]) = true ∧
    then? (unsignedCompare (vec [0x36, 0x33, 0x80, 0x40, 0x00] [] [(.r0, 0x80000000)]))
      (fun t => has t [(.pc, 0x40)]) = true := by decide
/-- B12: equal values. -/
theorem test_step_bge_equal :
    then? (vec [0x37, 0x33, 0x37, 0x80, 0x40] [] [(.r0, 3), (.r1, 3)]) (fun t => has t [(.pc, 0x40)]) = true := by decide
/-- B15. -/
theorem test_step_bie_wraps_in_a_byte :
    then? (vec [0x38, 0x34, 0x80, 0x30, 0x00] [] [(.r1, 0x123456FF)]) (fun t => has t [(.r1, 0x12345600), (.pc, 0x30)]) = true := by
  decide
/-- B16: the second source is read after the store. -/
theorem test_step_bie_same_register :
    then? (vec [0x38, 0x33, 0x33, 0x80, 0x30] [] [(.r0, 77)]) (fun t => has t [(.r0, 78), (.pc, 0x30)]) = true := by decide
/-- B17. -/
theorem test_step_bde_taken :
    then? (vec [0x39, 0x37, 0x80, 0x11, 0x00] [] [(.r1, 1)]) (fun t => has t [(.r1, 0), (.pc, 0x11)]) = true := by decide
/-- B19. -/
theorem test_step_bde_wraps :
    then? (vec [0x39, 0x37, 0x80, 0x11, 0x00] [] [(.r1, 0)]) (fun t => has t [(.r1, 0xFFFFFFFF), (.pc, 0x15)]) = true := by
  decide
/-- B22 and B23: BAO looks at the overflow flag. -/
theorem test_step_bao :
    then? { vec [0x3A, 0x80, 0x40] [] [] with flags := ⟨true, false⟩ }
      (fun t => has t [(.pc, 0x40)] && t.flags == ⟨true, false⟩) = true ∧
    then? { vec [0x3A, 0x80, 0x40] [] [] with flags := ⟨false, true⟩ } (fun t => has t [(.pc, 0x13)]) = true := by decide
/-- B24 and B25: BAC looks at the carry flag. -/
theorem test_step_bac :
    then? { vec [0x3B, 0x80, 0x40] [] [] with flags := ⟨false, true⟩ }
      (fun t => has t [(.pc, 0x40)] && t.flags == ⟨false, true⟩) = true ∧
    then? { vec [0x3B, 0x80, 0x40] [] [] with flags := ⟨true, false⟩ } (fun t => has t [(.pc, 0x13)]) = true := by decide

/-! ## Faults of a step -/

/-- F10, F11, F15 to F17 and F7: classes and Scale. -/
theorem test_step_class_faults :
    faults (vec [0x02, 0x15] [] []) .operandClass = true ∧ faults (vec [0x31, 0x33] [] []) .operandClass = true ∧
    faults (vec [0x13, 0x15, 0x12, 0x00] [] []) .operandClass = true ∧
    faults (vec [0x22, 0x33, 0x80, 0x40, 0x00] [] []) .operandClass = true ∧
    faults (vec [0x21, 0x80, 0x40, 0x13] [] []) .operandClass = true ∧
    faults (vec [0x03, 0xB0, 0x33] [] []) .scaleUnmodelled = true := by decide
/-- R41, R47: a fetch, a read and a write outside the map. -/
theorem test_step_outside_the_map :
    faults (small (boot 0x100 [0x01] [] [])) .memoryAccess = true ∧
    faults (small (boot 0xFE [0x10, 0x33] [] [])) .memoryAccess = true ∧
    faults (small (vec [0x03, 0x80, 0xFD] [] [])) .memoryAccess = true ∧
    faults (small (vec [0x02, 0x81, 0x00, 0x01] [] [])) .memoryAccess = true := by decide

/-- ALEN: with eight address bits there are the addresses 0 to 0xFF, whatever `MEM_MAP` holds. -/
def narrow (s : State) : State := { s with params := { s.params with alen := 8 } }

theorem test_step_beyond_alen :
    faults (narrow (vec [0x03, 0x80, 0xFD] [] [])) .memoryAccess = true ∧
    then? (narrow (vec [0x03, 0x80, 0xFC] [] [])) (fun t => t.trace == [0]) = true := by decide

/-! ## The table words -/

/-- From reset, a table word of one byte runs as the first instruction, and one that needs operands lacks them. -/
theorem test_table_words :
    decodeTableWord 8 0x33 = some .ret ∧ decodeTableWord 8 0x10 = none ∧
    step (State.reset.withFetchWord 8 0x01) = exec .nop ((State.reset.withFetchWord 8 0x01).advancePc 1) := by
  refine ⟨by decide, by decide, by rfl⟩

/-! ## Witnesses: states and operands that meet the hypotheses of the statements

Each theorem's name is that of its statement. Where a statement has several clauses, each has its own. -/

/-- Two registers and a memory word to work on: r0 = 0x30, r1 = 5, pS = 0x80, pB = 0x7C; the word 0x00776948 at 0x30. -/
def busy : State := vec [0x01] dataS [(.r0, 0x30), (.r1, 5), (.pS, 0x80), (.pB, 0x7C)]

/-- `[r0].4`. -/
def atR0 : Operand := ⟨false, .plain (.regInd .r0 .b4)⟩

/-- `[r0]+1`. -/
def bumpR0 : Operand := ⟨false, .plain (.postInc .r0 .b1)⟩

/-- What the operands that the witnesses use resolve to, in their order. -/
abbrev resolves2 (a b : Operand) (p : Location → Location → State → Prop) : Prop :=
  ∃ l1 l2 s1, resolve2 a b busy = .ok (l1, l2, s1) ∧ p l1 l2 s1

theorem witness_DecodeOfEncodeIsTheInstruction :
    ((Instr.mov ⟨true, .scale .pS .b4 (.imm .b1 0xFF)⟩ (nyb 0xF)).wf = true ∧ (Instr.unspecified 0xFF).wf = true ∧
      (Instr.unspecified 0x05).wf = true ∧ (Instr.add (.two (full .pc) atR0)).wf = true) ∧
    spells [0x31, 0x01, 0x01, 0x7D, 0x00, 0x10, 0x00] (.jmp ⟨true, .plain (.disp .r0 0x10)⟩) :=
  ⟨by decide, _, ⟨_, [], ⟨2, [0x7D, 0x00, 0x10, 0x00], by decide, by decide,
    ⟨0b11, [0x00], .b2, .inr (.inr (.inr ⟨rfl, rfl⟩)), by decide, by decide⟩, rfl⟩, rfl, rfl⟩, by decide⟩

theorem witness_DecodedInstructionIsWellFormed :
    decode (fun k => [0x20, 0x33, 0x01, 0x40][k]?) = .ok (.mov (full .r0) ⟨true, .plain (.regInd .r0 .b1)⟩, 4) := by
  decide

theorem witness_OperandCountDecides :
    (let src : Source := fun k => [0x10, 0x33, 0x37, 0x00][k]?
     src 0 = some Opcode.add.byte ∧ decodeOperands src Opcode.add.maxOps 1 = .ok ([full .r0, full .r1], 4) ∧
     [full .r0, full .r1].length ∈ Opcode.add.forms) ∧
    (let src : Source := fun k => [0x10, 0x33, 0x00][k]?
     src 0 = some Opcode.add.byte ∧ decodeOperands src Opcode.add.maxOps 1 = .ok ([full .r0], 3) ∧
     [full .r0].length ∉ Opcode.add.forms) := by decide

theorem witness_OperandSlotShapes :
    let src : Source := fun k => [0x00, 0x33, 0x01, 0x33, 0x01, 0x01, 0x10][k]?
    src 0 = some 0x00 ∧ (src 1 = some 0x33 ∧ modeBits 0x33 ≠ 0) ∧
    ((∀ k < 1, src (2 + k) = some 0x01) ∧ src (2 + 1) = some 0x33 ∧ modeBits 0x33 ≠ 0) ∧
    ((∀ k < 2, src (4 + k) = some 0x01) ∧ src (4 + 2) = some 0x10 ∧ modeBits 0x10 ≠ 0) := by decide

/-- A clause each: control codes 0x02 and 0x0F; the two undefined modes; fixed fields; a register byte in the first
and the last mode that has one; the two register bytes of Index, the second after a first; a Scale's own register
byte; and second operands of a Scale without and after a register byte. -/
theorem witness_ReservedOperandBytesFault :
    (modeBits 0x02 = 0 ∧ 2 ≤ (lowNibble 0x02).toNat) ∧ (modeBits 0x0F = 0 ∧ 2 ≤ (lowNibble 0x0F).toNat) ∧
    badBody (fun _ => none) 0xE0 0 .undefinedMode ∧ badBody (fun _ => none) 0xFF 0 .undefinedMode ∧
    badBody (fun _ => none) 0x24 0 .reservedEncoding ∧ badBody (fun _ => none) 0x88 0 .reservedEncoding ∧
    badBody (fun k => [0x1E][k]?) 0x3F 0 .reservedEncoding ∧ badBody (fun k => [0xF0][k]?) 0xDC 0 .reservedEncoding ∧
    badBody (fun k => [0x02, 0x1E][k]?) 0x6F 0 .reservedEncoding ∧
    badBody (fun k => [0x10][k]?) 0x63 0 .reservedEncoding ∧
    (modeBits 0xBC = 0b1011 ∧ badReg (fun k => [0x15][k]?) (field1 0xBC) 0) ∧
    (modeBits 0xB0 = 0b1011 ∧ regThen (fun k => [0x00][k]?) (field1 0xB0) 0 0 ∧ modeBits 0x00 = 0) ∧
    (regThen (fun k => [0x05, 0xBF][k]?) (field1 0xBC) 0 1 ∧ modeBits 0xBF = 0b1011) := by
  unfold badBody badReg regThen
  refine ⟨by decide, by decide, .inl (by decide), .inl (by decide), .inr ⟨rfl, .inl (by decide)⟩,
    .inr ⟨rfl, .inl (by decide)⟩, .inr ⟨rfl, .inr (.inl ⟨by decide, by decide, _, rfl, by decide⟩)⟩,
    .inr ⟨rfl, .inr (.inl ⟨by decide, by decide, _, rfl, by decide⟩)⟩,
    .inr ⟨rfl, .inr (.inr ⟨by decide, 1, .inr ⟨by decide, rfl, _, rfl, by decide⟩, by decide, _, rfl, by decide⟩)⟩,
    .inr ⟨rfl, .inr (.inr ⟨by decide, 0, .inl (by decide), by decide, _, rfl, by decide⟩)⟩,
    ⟨by decide, by decide, _, rfl, by decide⟩, ⟨by decide, .inl (by decide), by decide⟩,
    ⟨.inr ⟨by decide, rfl, _, rfl, by decide⟩, by decide⟩⟩

theorem busy_running : busy.running := by decide

theorem witness_StepRunsTheDecodedInstruction : busy.running ∧ fetch busy = .ok (.nop, 1) := by decide

theorem witness_EncodedInstructionAtPcRuns :
    let i := Instr.clr (full .pc)
    let s := boot 0xFFFFFFFE [0x02, 0x3F, 0x0F] [] []
    s.running ∧ i.wf = true ∧
      ∀ k < (encode i).length, s.implemented (s.reg .pc + BitVec.ofNat 32 k) = true ∧
        (encode i)[k]? = some (s.byteAt (s.reg .pc + BitVec.ofNat 32 k)) := by decide

theorem witness_HaltedOrFaultedTakesNoStep :
    (busy.raise .divideByZero).fault = some .divideByZero ∧ (busy.halt.fault = none ∧ busy.halt.halted = true) := by decide

theorem witness_EarlyFaultsGoByTheirNames :
    (let s := vec [0x03, 0xE0] [] []
     s.running ∧ fetch s = .error .undefinedMode) ∧
    (let s := vec [0x31, 0x33] [] []
     s.running ∧ fetch s = .ok (.jmp (full .r0), 2) ∧ classCheck s.params (.jmp (full .r0)) = .error .operandClass) ∧
    fetch (vec [0x03, 0x00] [] []) = .error .operandCount ∧ fetch (vec [0x03, 0x01, 0x00] [] []) = .error .malformedOperand ∧
    fetch (vec [0x03, 0x02] [] []) = .error .reservedControlCode ∧
    fetch (vec [0x03, 0x24] [] []) = .error .reservedEncoding ∧
    fetch (small (boot 0xFF [0x03] [] [])) = .error .unreadable := by decide

/-- The machine with `SCALE_RESOLVE` given. -/
def scaled (s : State) : State := { s with params := { s.params with scaleRule := .given } }

theorem witness_ClassFaultIsTheClassCheck :
    classCheck busy.params (.div (.two (nyb 1) (nyb 2))) = .error .operandClass ∧
    classCheck busy.params (.jmp ⟨false, .scale .r0 .b1 (.abs 0)⟩) = .error .scaleUnmodelled ∧
    (∀ x ∈ [(full .r0, Requirement.regOrMem)], checkOperand busy.params x.1 x.2 = .ok ()) ∧
    operandClass busy.params ⟨false, .scale .r0 .b1 (.abs 0)⟩ = none ∧
    (operandClass busy.params (full .r0) = some .reg ∧ meets .reg .mem = false) ∧
    busy.params.scaleRule = .refuse ∧ (scaled busy).params.scaleRule = .given := by decide

/-- Beside the halted machine, `CopyNeverEndsIsExact` has a witness of the endless copy. -/
theorem witness_RefusalsAreHaltOrEndlessCopy : step busy.halt = .refused .halted := by rfl

theorem witness_MemReadIsLittleEndian :
    (∀ k < 4, busy.implemented (0xFFFFFFFE + BitVec.ofNat 32 k) = true) ∧
    ((small busy).implemented 0xFF = true ∧ (small busy).implemented (0xFD + BitVec.ofNat 32 3) = false) := by decide

theorem witness_MemWriteIsLittleEndian :
    (∀ k < 4, busy.implemented (0xFFFFFFFE + BitVec.ofNat 32 k) = true) ∧
    (small busy).implemented (0xFD + BitVec.ofNat 32 3) = false := by decide

theorem witness_StoredByteIsFetched :
    ∃ t, memWrite 0x11 2 0x3300 busy = .ok t ∧ t.reg .pc + BitVec.ofNat 32 2 = 0x11 + BitVec.ofNat 32 1 :=
  ⟨_, rfl, rfl⟩

theorem witness_UnimplementedMemoryNeverChanges :
    ∃ t, step (small (vec [0x02, 0x80, 0xFC] [] [])) = .next t ∧
      (small (vec [0x02, 0x80, 0xFC] [] [])).implemented 0x100 = false :=
  ⟨_, rfl, by decide⟩

theorem witness_AddressModesResolve :
    memRead 0x30 4 busy = .ok 0x77006948 ∧ memRead 0xFE 4 (small busy) = .error .memoryAccess ∧
    busy.params.scaleRule = .refuse ∧ (scaled busy).params.scaleRule = .given := by decide

theorem witness_ValWidensByTheMark :
    memRead 0x30 3 busy = .ok 0x006948 ∧ memRead 0xFE 3 (small busy) = .error .memoryAccess := by decide

theorem witness_HltHalts :
    (let s := vec [0x00] [] []
     s.running ∧ s.implemented (s.reg .pc) = true ∧ s.byteAt (s.reg .pc) = 0x00) ∧
    (let s := small (boot 0x100 [] [] [])
     s.running ∧ s.implemented (s.reg .pc) = false) := by decide

theorem witness_NopOnlyAdvances :
    (let s := vec [0x01] [] []
     s.running ∧ s.implemented (s.reg .pc) = true ∧ s.byteAt (s.reg .pc) = 0x01) ∧
    (let s := small (boot 0x100 [] [] [])
     s.running ∧ s.implemented (s.reg .pc) = false) := by decide

theorem witness_UnspecifiedOpcodesOnlyAdvance :
    (let s := vec [0x05] [] []
     s.running ∧ s.implemented (s.reg .pc) = true ∧ s.byteAt (s.reg .pc) = 0x05 ∧ isUnspecified 0x05 = true) ∧
    (let s := vec [0xFF] [] []
     s.running ∧ s.implemented (s.reg .pc) = true ∧ s.byteAt (s.reg .pc) = 0xFF ∧ isUnspecified 0xFF = true) := by decide

theorem witness_ClrStoresZero :
    (checkOperands busy.params [(full .pc, .regOrMem)] = .ok () ∧
      ∃ l s1 t, resolve (full .pc) busy = .ok (l, s1) ∧ store l 0 s1 = .ok t) ∧
    (checkOperands busy.params [(bumpR0, .regOrMem)] = .ok () ∧
      ∃ l s1 t, resolve bumpR0 busy = .ok (l, s1) ∧ store l 0 s1 = .ok t) :=
  ⟨⟨by decide, _, _, _, rfl, rfl⟩, by decide, _, _, _, rfl, rfl⟩

theorem witness_DmpAppendsToTheTrace :
    checkOperands busy.params [(bumpR0, .any)] = .ok () ∧ ∃ l s1 v, resolve bumpR0 busy = .ok (l, s1) ∧ val l s1 = .ok v :=
  ⟨by decide, _, _, _, rfl, rfl⟩

theorem witness_OutSendsToItsPort :
    (checkOperands busy.params [(nyb 7, .any)] = .ok () ∧ ∃ l s1 v, resolve (nyb 7) busy = .ok (l, s1) ∧ val l s1 = .ok v) ∧
    (checkOperands busy.params [(bumpR0, .any), (atR0, .any)] = .ok () ∧
      resolves2 bumpR0 atR0 fun l1 l2 s1 => ∃ v port, val l1 s1 = .ok v ∧ val l2 s1 = .ok port) :=
  ⟨⟨by decide, _, _, _, rfl, rfl⟩, by decide, _, _, _, rfl, _, _, rfl, rfl⟩

theorem witness_TwoSourceResults :
    (checkOperands busy.params [(full .r1, .regOrMem), (atR0, .any)] = .ok () ∧
      resolves2 (full .r1) atR0 fun l1 l2 s1 => ∃ x y t1 t2 t3 t4 t5, val l1 s1 = .ok x ∧ val l2 s1 = .ok y ∧
        store l1 (x + y) s1 = .ok t1 ∧ store l1 (x - y) s1 = .ok t2 ∧ store l1 (x &&& y) s1 = .ok t3 ∧
        store l1 (x ||| y) s1 = .ok t4 ∧ store l1 (x ^^^ y) s1 = .ok t5) ∧
    (checkOperands busy.params [(bumpR0, .regOrMem), (full .r1, .any), (nyb 3, .any)] = .ok () ∧
      ∃ d l1 l2 s1 x y t, resolve3 bumpR0 (full .r1) (nyb 3) busy = .ok (d, l1, l2, s1) ∧ val l1 s1 = .ok x ∧
        val l2 s1 = .ok y ∧ store d (x + y) s1 = .ok t) :=
  ⟨⟨by decide, _, _, _, rfl, _, _, _, _, _, _, _, rfl, rfl, rfl, rfl, rfl, rfl, rfl⟩,
   by decide, _, _, _, _, _, _, _, rfl, rfl, rfl, rfl⟩

theorem witness_MulResults :
    (checkOperands busy.params [(full .r1, .regOrMem), (nyb 3, .any)] = .ok () ∧
      resolves2 (full .r1) (nyb 3) fun l1 l2 s1 => ∃ x y, val l1 s1 = .ok x ∧ val l2 s1 = .ok y ∧
        ∃ t, store l1 (x * y) s1 = .ok t) ∧
    (checkOperands busy.params [(full .r0, .regOrMem), (full .r1, .any), (nyb 3, .any)] = .ok () ∧
      ∃ d l1 l2 s1, resolve3 (full .r0) (full .r1) (nyb 3) busy = .ok (d, l1, l2, s1)) ∧
    (checkOperands busy.params [(full .r0, .regOrMem), (full .r2, .regOrMem), (full .r1, .any), (nyb 3, .any)] = .ok () ∧
      ∃ d o l1 l2 s1 x y s2 t, resolve4 (full .r0) (full .r2) (full .r1) (nyb 3) busy = .ok (d, o, l1, l2, s1) ∧
        val l1 s1 = .ok x ∧ val l2 s1 = .ok y ∧ store d 15 s1 = .ok s2 ∧ store o 0 s2 = .ok t) :=
  ⟨⟨by decide, _, _, _, rfl, _, _, rfl, rfl, _, rfl⟩, ⟨by decide, _, _, _, _, rfl⟩,
   by decide, _, _, _, _, _, _, _, _, _, rfl, rfl, rfl, rfl, rfl⟩

/-- The three ways to give a 2-operand DIV, and its 4-operand form; 5 is the dividend and the divisor of the first. -/
theorem witness_DivTwoAndFourOperandResults :
    (checkOperands busy.params [(full .r1, .any), (full .r1, .any)] = .ok () ∧ isImm busy.params (full .r1) = false ∧
      resolves2 (full .r1) (full .r1) fun l1 l2 s1 => val l1 s1 = .ok 5 ∧ val l2 s1 = .ok 5 ∧
        ∃ s2 t, store l1 1 s1 = .ok s2 ∧ store l2 0 s2 = .ok t) ∧
    (checkOperands busy.params [(full .r1, .any), (nyb 2, .any)] = .ok () ∧ isImm busy.params (nyb 2) = true ∧
      resolves2 (full .r1) (nyb 2) fun l1 l2 s1 => val l1 s1 = .ok 5 ∧ val l2 s1 = .ok 2 ∧
        ∃ t, store l1 2 s1 = .ok t) ∧
    (checkOperands busy.params [(nyb 7, .any), (full .r1, .any)] = .ok () ∧
      resolves2 (nyb 7) (full .r1) fun l1 l2 s1 => val l1 s1 = .ok 7 ∧ val l2 s1 = .ok 5 ∧
        ∃ t, store l2 2 s1 = .ok t) ∧
    (checkOperands busy.params [(full .r0, .regOrMem), (full .r2, .regOrMem), (nyb 7, .any), (full .r1, .any)] = .ok () ∧
      ∃ d m l1 l2 s1 s2 t, resolve4 (full .r0) (full .r2) (nyb 7) (full .r1) busy = .ok (d, m, l1, l2, s1) ∧
        val l1 s1 = .ok 7 ∧ val l2 s1 = .ok 5 ∧ store d 1 s1 = .ok s2 ∧ store m 2 s2 = .ok t) :=
  ⟨⟨by decide, rfl, _, _, _, rfl, by decide, by decide, _, _, rfl, rfl⟩,
   ⟨by decide, rfl, _, _, _, rfl, by decide, by decide, _, rfl⟩,
   ⟨by decide, _, _, _, rfl, by decide, by decide, _, rfl⟩,
   by decide, _, _, _, _, _, _, _, rfl, by decide, by decide, rfl, rfl⟩

/-- Each combination of immediate sources of a 3-operand DIV, with 5 divided by itself or 7 by 5, 5 by 2, 7 by 2. -/
theorem witness_DivThreeOperandResults :
    (checkOperands busy.params [(full .r0, .regOrMem), (full .r1, .any), (full .r1, .any)] = .ok () ∧
      isImm busy.params (full .r1) = false ∧ ∃ d l2 l3 s1 s2 s3 t, resolve3 (full .r0) (full .r1) (full .r1) busy = .ok (d, l2, l3, s1) ∧
        val l2 s1 = .ok 5 ∧ val l3 s1 = .ok 5 ∧ store d 1 s1 = .ok s2 ∧ store l2 0 s2 = .ok s3 ∧ store l3 0 s3 = .ok t) ∧
    (checkOperands busy.params [(full .r0, .regOrMem), (full .r1, .any), (nyb 2, .any)] = .ok () ∧
      isImm busy.params (nyb 2) = true ∧ ∃ d l2 l3 s1 s2 t, resolve3 (full .r0) (full .r1) (nyb 2) busy = .ok (d, l2, l3, s1) ∧
        val l2 s1 = .ok 5 ∧ val l3 s1 = .ok 2 ∧ store d 2 s1 = .ok s2 ∧ store l2 1 s2 = .ok t) ∧
    (checkOperands busy.params [(full .r0, .regOrMem), (nyb 7, .any), (full .r1, .any)] = .ok () ∧
      ∃ d l2 l3 s1 s2 t, resolve3 (full .r0) (nyb 7) (full .r1) busy = .ok (d, l2, l3, s1) ∧
        val l2 s1 = .ok 7 ∧ val l3 s1 = .ok 5 ∧ store d 1 s1 = .ok s2 ∧ store l3 2 s2 = .ok t) ∧
    (checkOperands busy.params [(full .r0, .regOrMem), (nyb 7, .any), (nyb 2, .any)] = .ok () ∧
      ∃ d l2 l3 s1 t, resolve3 (full .r0) (nyb 7) (nyb 2) busy = .ok (d, l2, l3, s1) ∧
        val l2 s1 = .ok 7 ∧ val l3 s1 = .ok 2 ∧ store d 3 s1 = .ok t) ∧
    busy.params.div3ModRule = .literal ∧
    ({ busy.params with div3ModRule := .firstNonImm } : Params).div3ModRule = .firstNonImm :=
  ⟨⟨by decide, rfl, _, _, _, _, _, _, _, rfl, by decide, by decide, rfl, rfl, rfl⟩,
   ⟨by decide, rfl, _, _, _, _, _, _, rfl, by decide, by decide, rfl, rfl⟩,
   ⟨by decide, _, _, _, _, _, _, rfl, by decide, by decide, rfl, rfl⟩,
   ⟨by decide, _, _, _, _, _, rfl, by decide, by decide, rfl⟩, rfl, rfl⟩

theorem witness_ModResult :
    checkOperands busy.params [(atR0, .regOrMem), (nyb 7, .any), (full .r1, .any)] = .ok () ∧
      ∃ d l2 l3 s1 t, resolve3 atR0 (nyb 7) (full .r1) busy = .ok (d, l2, l3, s1) ∧
        val l2 s1 = .ok 7 ∧ val l3 s1 = .ok 5 ∧ store d (divRem busy.params.mulDivSigned 7 5).2 s1 = .ok t :=
  ⟨by decide, _, _, _, _, _, rfl, by decide, by decide, rfl⟩

theorem witness_ZeroDivisorFaults :
    (∃ l s1, resolveDiv (.two (full .r1) (full .r2)) busy = .ok (l, s1) ∧ val l.src1 s1 = .ok 5 ∧
      val l.src2 s1 = .ok 0) ∧
    (checkOperands busy.params [(full .r0, .regOrMem), (full .r1, .any), (nyb 0, .any)] = .ok () ∧
      ∃ d l2 l3 s1, resolve3 (full .r0) (full .r1) (nyb 0) busy = .ok (d, l2, l3, s1) ∧ val l2 s1 = .ok 5 ∧
        val l3 s1 = .ok 0) ∧
    exec (.mod (full .r0) (full .r1) (nyb 0)) busy = .fault .divideByZero :=
  ⟨⟨_, _, rfl, by decide, by decide⟩, ⟨by decide, _, _, _, _, rfl, by decide, by decide⟩, rfl⟩

theorem witness_DivRemLaws :
    (0xFFFFFFFF : Word) ≠ 0 ∧ ¬ ((0x80000001 : Word) = 0x80000000 ∧ (0xFFFFFFFF : Word) = 0xFFFFFFFF) ∧
    0 ≤ (0x7FFFFFFF : Word).toInt ∧ (0x80000000 : Word).toInt ≤ 0 := by decide

theorem witness_CmpComplements :
    (checkOperands busy.params [(full .r1, .regOrMem)] = .ok () ∧
      ∃ l s1 x t, resolve (full .r1) busy = .ok (l, s1) ∧ val l s1 = .ok x ∧ store l (~~~ x) s1 = .ok t) ∧
    (checkOperands busy.params [(atR0, .regOrMem), (nyb 3, .any)] = .ok () ∧
      resolves2 atR0 (nyb 3) fun d l s1 => ∃ x t, val l s1 = .ok x ∧ store d (~~~ x) s1 = .ok t) :=
  ⟨⟨by decide, _, _, _, _, rfl, rfl, rfl⟩, by decide, _, _, _, rfl, _, _, rfl, rfl⟩

theorem witness_IncAndDecResults :
    checkOperands busy.params [(bumpR0, .regOrMem)] = .ok () ∧
      ∃ l s1 x t u, resolve bumpR0 busy = .ok (l, s1) ∧ val l s1 = .ok x ∧ store l (x + 1) s1 = .ok t ∧
        store l (x - 1) s1 = .ok u :=
  ⟨by decide, _, _, _, _, _, rfl, rfl, rfl, rfl⟩

/-- The same machine under the customary instantiation of `FLAG_WRITE`. -/
def customary (s : State) : State := { s with params := { s.params with flagRule := .customary } }

theorem witness_FlagWriteGivesTheFlags :
    busy.params.flagRule = .free ∧ (customary busy).params.flagRule = .customary := by decide

theorem witness_FlagsAreWrittenByTheListedInstructions :
    (∃ t, exec (.inc (full .r1)) busy = .next t ∧ writesFlags (.inc (full .r1)) = true ∧
      flagInputs (.inc (full .r1)) busy = some ⟨.inc, 5, 1, .b4⟩) ∧
    ∃ t, exec (.clr (full .r1)) busy = .next t ∧ writesFlags (.clr (full .r1)) = false :=
  ⟨⟨_, rfl, rfl, by decide⟩, _, rfl, rfl⟩

theorem witness_MovStoresItsSource :
    checkOperands busy.params [(bumpR0, .regOrMem), (atR0, .any)] = .ok () ∧
      resolves2 bumpR0 atR0 fun l1 l2 s1 => ∃ v t, val l2 s1 = .ok v ∧ store l1 v s1 = .ok t :=
  ⟨by decide, _, _, _, rfl, _, _, rfl, rfl⟩

theorem witness_SwpExchanges :
    checkOperands busy.params [(full .r1, .regOrMem), (atR0, .regOrMem)] = .ok () ∧
      resolves2 (full .r1) atR0 fun l1 l2 s1 => ∃ x y s2 t, val l1 s1 = .ok x ∧ val l2 s1 = .ok y ∧
        store l1 y s1 = .ok s2 ∧ store l2 x s2 = .ok t :=
  ⟨by decide, _, _, _, rfl, _, _, _, _, rfl, rfl, rfl, rfl⟩

/-- A copy's selector at each of its three kinds, 0, 1 and the least count, in both forms that have one. -/
theorem witness_CpySelectorAndLimit :
    (checkOperands busy.params [(absolute 0x40, .mem), (atR0, .mem)] = .ok () ∧
      resolves2 (absolute 0x40) atR0 fun l1 l2 _ => l1.place = .mem 0x40 .b4 ∧ l2.place = .mem 0x30 .b4) ∧
    (∀ v ∈ [(0 : BitVec 4), 1, 2],
      checkOperands busy.params [(absolute 0x40, .mem), (atR0, .mem), (nyb v, .any)] = .ok () ∧
      ∃ l1 l2 l3 s1, resolve3 (absolute 0x40) atR0 (nyb v) busy = .ok (l1, l2, l3, s1) ∧
        l1.place = .mem 0x40 .b4 ∧ l2.place = .mem 0x30 .b4 ∧ val l3 s1 = .ok (v.setWidth 32)) ∧
    (∀ v ∈ [(0 : BitVec 4), 1, 2],
      checkOperands busy.params [(absolute 0x40, .mem), (atR0, .mem), (nyb v, .any), (full .r1, .any)] = .ok () ∧
      ∃ l1 l2 l3 l4 s1, resolve4 (absolute 0x40) atR0 (nyb v) (full .r1) busy = .ok (l1, l2, l3, l4, s1) ∧
        l1.place = .mem 0x40 .b4 ∧ l2.place = .mem 0x30 .b4 ∧ val l3 s1 = .ok (v.setWidth 32) ∧ val l4 s1 = .ok 5) ∧
    memRead 0x30 4 busy = .ok 0x77006948 := by
  refine ⟨⟨by decide, _, _, _, rfl, rfl, rfl⟩, ?_, ?_, by decide⟩
  · intro v hv
    fin_cases hv <;> exact ⟨by decide, _, _, _, _, rfl, rfl, rfl, by decide⟩
  · intro v hv
    fin_cases hv <;> exact ⟨by decide, _, _, _, _, _, rfl, rfl, rfl, by decide, by decide⟩

/-- A counted copy with a limit that is smaller than its count, one without, and the bounds that meet. -/
theorem witness_CountedCopyMovesItsBytes :
    (∃ p s1, copyPlan (.four (absolute 0x40) atR0 (nyb 4) (nyb 2)) busy = .ok (p, s1) ∧ p.kind = .counted 4 ∧
      p.limit = 2) ∧
    (∃ p s1, copyPlan (.three (absolute 0x40) atR0 (nyb 4)) busy = .ok (p, s1) ∧ p.kind = .counted 4 ∧ p.limit = 0) ∧
    (∀ k < 4, busy.implemented (0x30 + BitVec.ofNat 32 k) = true ∧ busy.implemented (0x40 + BitVec.ofNat 32 k) = true) ∧
    (∀ j < 4, ∀ k < 4, (0x40 : Word) + BitVec.ofNat 32 j ≠ 0x30 + BitVec.ofNat 32 k) :=
  ⟨⟨_, _, rfl, rfl, rfl⟩, ⟨_, _, rfl, rfl, rfl⟩, by decide, by decide⟩

/-- "S" is three bytes up to its zero: copied downward over itself with no limit; and, one byte up with a limit of 2,
its first byte twice. -/
theorem witness_CStringCopyMovesItsBytes :
    (∃ p s1, copyPlan (.two (absolute 0x2F) atR0) busy = .ok (p, s1) ∧ p.kind = .cString ∧ p.limit = 0 ∧
      (let b : Nat → Byte := fun k => s1.byteAt (0x30 + BitVec.ofNat 32 k)
       copyReads p.dst p.src 3 s1 b ∧ b (3 - 1) = 0 ∧ ∀ k < 2, b k ≠ 0)) ∧
    (∃ p s1, copyPlan (.four (absolute 0x31) atR0 (nyb 0) (nyb 2)) busy = .ok (p, s1) ∧ p.kind = .cString ∧
      p.limit = 2 ∧ copyReads p.dst p.src 2 s1 fun _ => 0x48) :=
  ⟨⟨_, _, rfl, rfl, rfl, fun k hk => by interval_cases k <;> exact ⟨by decide, by decide⟩, by decide, by decide⟩,
   _, _, rfl, rfl, rfl, fun k hk => by interval_cases k <;> exact ⟨by decide, by decide⟩⟩

/-- A pointer, a source and a destination outside the map, and copies whose third byte cannot be read or written. -/
theorem witness_UnimplementedAccessFaults :
    (let i := Instr.mov (full .r0) ⟨false, .plain (.memInd 0xFD)⟩
     classCheck (small busy).params i = .ok () ∧ resolveAll i.operands (small busy) = .error .memoryAccess) ∧
    (let i := Instr.mov (full .r0) (absolute 0xFD)
     classCheck (small busy).params i = .ok () ∧ ∃ ls s1, resolveAll i.operands (small busy) = .ok (ls, s1) ∧
      sources i ls = [⟨false, .mem 0xFD .b4⟩] ∧ (small busy).implemented (0xFD + BitVec.ofNat 32 3) = false) ∧
    (let i := Instr.mod (absolute 0xFD) (full .r0) (full .r1)
     classCheck (small busy).params i = .ok () ∧ destinations i (small busy) = [⟨false, .mem 0xFD .b4⟩] ∧
      divisor i (small busy) = some 5) ∧
    copyPlan (.three (absolute 0x40) (absolute 0xFD) (nyb 1)) (small busy) = .error .memoryAccess ∧
    (∃ p s1, copyPlan (.three (absolute 0x40) (absolute 0xFE) (nyb 3)) (small busy) = .ok (p, s1) ∧
      copyReads p.dst p.src 2 s1 (fun _ => 0) ∧ p.limit = 0 ∧ p.kind = .counted 3 ∧
      s1.implemented (p.src + BitVec.ofNat 32 2) = false) ∧
    ∃ p s1, copyPlan (.two (absolute 0xFE) atR0) (small busy) = .ok (p, s1) ∧
      copyReads p.dst p.src 2 s1 (fun k => s1.byteAt (0x30 + BitVec.ofNat 32 k)) ∧ p.limit = 0 ∧ p.kind = .cString ∧
      s1.implemented (p.dst + BitVec.ofNat 32 2) = false :=
  ⟨⟨by decide, by decide⟩, ⟨by decide, _, _, rfl, rfl, by decide⟩, ⟨by decide, by decide, by decide⟩, by decide,
   ⟨_, _, rfl, fun k hk => by interval_cases k <;> exact ⟨by decide, by decide⟩, rfl, rfl, by decide⟩,
   _, _, rfl, fun k hk => by interval_cases k <;> exact ⟨by decide, by decide⟩, rfl, rfl, by decide⟩

theorem witness_CpyFrame :
    (∃ t, exec (.cpy (.two (absolute 0x40) atR0)) busy = .next t) ∧
    ∃ t, exec (.cpy (.three (absolute 0x31) atR0 (nyb 4))) busy = .next t :=
  ⟨⟨_, rfl⟩, _, rfl⟩

/-- One byte of a copy from `a` to the address after it leaves the next byte to copy what this one was. -/
theorem copyByte_smears {p : CopyPlan} (hd : p.dst = p.src + 1) {n : Nat} {s : State} (hs : s.wholeMap) {b : Byte}
    (hb : s.byteAt (p.src + BitVec.ofNat 32 n) = b) :
    ∃ t, copyByte p n s = .ok (b, t) ∧ t.wholeMap ∧ t.byteAt (p.src + BitVec.ofNat 32 (n + 1)) = b := by
  have ha : p.dst + BitVec.ofNat 32 n = p.src + BitVec.ofNat 32 (n + 1) := by
    rw [hd]; apply BitVec.eq_of_toNat_eq; simp [BitVec.toNat_add]; omega
  refine ⟨{ s with mem := s.mem.write (p.src + BitVec.ofNat 32 (n + 1)).toNat b }, ?_, hs, ?_⟩
  · simp only [copyByte, memRead, memWrite, State.accessOk_of_wholeMap hs, if_true, ok_bind, ha]
    simp [State.bytesAt, Memory.writeBytes, hb]
  · simp [State.byteAt]

/-- A C string copy with no limit from a byte that is not zero to the address after it never ends. -/
theorem smear_never_ends {p : CopyPlan} (hk : p.kind = .cString) (hl : p.limit = 0) (hd : p.dst = p.src + 1)
    (fuel n : Nat) (s : State) (hs : s.wholeMap) (hb : s.byteAt (p.src + BitVec.ofNat 32 n) ≠ 0) :
    copyLoop p fuel n s = .refused .copyNeverEnds := by
  induction fuel generalizing n s with
  | zero => simp [copyLoop, copyDone, hk, hl]
  | succ fuel ih =>
    obtain ⟨t, ht, hw, hn⟩ := copyByte_smears hd hs (n := n) rfl
    have hb' : ¬ s.byteAt (p.src + BitVec.ofNat 32 n) = 0#8 := hb
    simp only [copyLoop, copyDone, hk, hl, ht]
    simp [hb', ih (n + 1) t hw (by rw [hn]; exact hb)]

theorem busy_wholeMap : busy.wholeMap := by
  intro a
  have h : busy.params.memMap = [⟨0, 2 ^ 32⟩] := rfl
  have h' : busy.params.alen = 32 := rfl
  simp [State.implemented, h, h', regionHolds, a.isLt]

/-- The copy of "S" one byte up, without a limit: its first byte fills all of memory. -/
theorem witness_CopyNeverEndsIsExact :
    exec (.cpy (.two (absolute 0x31) atR0)) busy = .refused .copyNeverEnds := by
  have h : copyPlan (.two (absolute 0x31) atR0) busy = .ok (⟨0x31, 0x30, .cString, 0⟩, busy) := rfl
  simp only [exec, execCpy, h]
  exact smear_never_ends (p := ⟨0x31, 0x30, .cString, 0⟩) rfl rfl rfl (copyFuel .cString) 0 busy busy_wholeMap (by decide)

theorem witness_JmpGoesToTheEffectiveAddress :
    checkOperands busy.params [(bumpR0, .mem)] = .ok () ∧
      ∃ l s1, resolve bumpR0 busy = .ok (l, s1) ∧ l.place = .mem 0x30 .b1 :=
  ⟨by decide, _, _, rfl, rfl⟩

theorem witness_JalPushesAndJumps :
    (checkOperands busy.params [(atR0, .mem)] = .ok () ∧ ∃ l s1, resolve atR0 busy = .ok (l, s1) ∧ l.place = .mem 0x30 .b4 ∧
      ∀ k < 8, s1.implemented (s1.reg .pS - 8 + BitVec.ofNat 32 k) = true) ∧
    (let s := (small busy).setReg .pS 0x108
     ∃ l s1, resolve atR0 s = .ok (l, s1) ∧ l.place = .mem 0x30 .b4 ∧
      s1.implemented (s1.reg .pS - 8 + BitVec.ofNat 32 7) = false) :=
  ⟨⟨by decide, _, _, rfl, rfl, by decide⟩, _, _, rfl, rfl, by decide⟩

theorem witness_RetRestores :
    (let src : Source := fun k => [0x33][k]?
     src 0 = some 0x33) ∧
    (∀ k < 8, busy.implemented (busy.reg .pB - 4 + BitVec.ofNat 32 k) = true) ∧
    (∀ k < 4, busy.implemented (busy.reg .pB + 4 + BitVec.ofNat 32 k) = true) ∧
    busy.params.retPsRule = .literal ∧ (arithmeticReturn busy).params.retPsRule = .arithmetic ∧
    (let s := (small busy).setReg .pB 0xFC
     (∀ k < 8, s.implemented (s.reg .pB - 4 + BitVec.ofNat 32 k) = true) ∧
     s.implemented (s.reg .pB + 4 + BitVec.ofNat 32 0) = false) ∧
    (let s := (small busy).setReg .pB 3
     s.implemented (s.reg .pB - 4 + BitVec.ofNat 32 0) = false) := by decide

/-- The word at 0x80 that the caller puts there, as R182 asks. -/
def caller : State := vec [0x32, 0x80, 0x20] [(0x80, [0x80])] [(.pS, 0x80), (.pB, 0x1111), (.pR, 0x2222)]

theorem witness_RetUndoesJal :
    ∃ l s1 t, resolve (absolute 0x20) caller = .ok (l, s1) ∧ exec (.jal (absolute 0x20)) caller = .next t ∧
      memRead (s1.reg .pS) 4 t = .ok (s1.reg .pS) :=
  ⟨_, _, _, rfl, rfl, by decide⟩

theorem witness_ComparingBranches :
    (checkOperands busy.params [(full .r1, .any), (atR0, .mem)] = .ok () ∧
      resolves2 (full .r1) atR0 fun l1 lt s1 => val l1 s1 = .ok 5 ∧ lt.place = .mem 0x30 .b4) ∧
    (checkOperands busy.params [(full .r1, .any), (nyb 5, .any), (atR0, .mem)] = .ok () ∧
      ∃ l1 l2 lt s1, resolve3 (full .r1) (nyb 5) atR0 busy = .ok (l1, l2, lt, s1) ∧ val l1 s1 = .ok 5 ∧
        val l2 s1 = .ok 5 ∧ lt.place = .mem 0x30 .b4) ∧
    busy.params.compareSigned = true ∧ (unsignedCompare busy).params.compareSigned = false :=
  ⟨⟨by decide, _, _, _, rfl, by decide, rfl⟩, ⟨by decide, _, _, _, _, rfl, by decide, by decide, rfl⟩, rfl, rfl⟩

theorem witness_LoopBranches :
    (checkOperands busy.params [(full .r1, .regOrMem), (atR0, .mem)] = .ok () ∧
      resolves2 (full .r1) atR0 fun l1 lt s1 => ∃ s2, val l1 s1 = .ok 5 ∧ store l1 (5 + 1) s1 = .ok s2 ∧
        val l1 s2 = .ok 6 ∧ lt.place = .mem 0x30 .b4) ∧
    (checkOperands busy.params [(full .r1, .regOrMem), (full .r1, .any), (atR0, .mem)] = .ok () ∧
      ∃ l1 l2 lt s1 s2, resolve3 (full .r1) (full .r1) atR0 busy = .ok (l1, l2, lt, s1) ∧ val l1 s1 = .ok 5 ∧
        store l1 (5 - 1) s1 = .ok s2 ∧ val l1 s2 = .ok 4 ∧ val l2 s2 = .ok 4 ∧ lt.place = .mem 0x30 .b4) :=
  ⟨⟨by decide, _, _, _, rfl, _, by decide, rfl, by decide, rfl⟩,
   by decide, _, _, _, _, _, rfl, by decide, rfl, by decide, by decide, rfl⟩

theorem witness_FlagBranches :
    checkOperands busy.params [(atR0, .mem)] = .ok () ∧ ∃ l s1, resolve atR0 busy = .ok (l, s1) ∧ l.place = .mem 0x30 .b4 :=
  ⟨by decide, _, _, rfl, rfl⟩

theorem witness_StoreNothingFrame :
    (storesNothing (.dmp bumpR0) = true ∧ ∃ t, exec (.dmp bumpR0) busy = .next t) ∧
    (storesNothing .ret = true ∧ ∃ t, exec .ret busy = .next t) ∧
    (storesNothing (.bao atR0) = true ∧ ∃ t, exec (.bao atR0) busy = .next t) :=
  ⟨⟨rfl, _, rfl⟩, ⟨rfl, _, rfl⟩, rfl, _, rfl⟩

theorem witness_DestinationFrame :
    (storesNothing (.mov bumpR0 (full .r1)) = false ∧ ∃ t, exec (.mov bumpR0 (full .r1)) busy = .next t) ∧
    (storesNothing (.bie (.two (full .r1) atR0)) = false ∧ ∃ t, exec (.bie (.two (full .r1) atR0)) busy = .next t) :=
  ⟨⟨rfl, _, rfl⟩, rfl, _, rfl⟩

theorem witness_EveryStepKeepsTheInvariant : busy.Inv ∧ ∃ t, step busy = .next t :=
  ⟨⟨by decide, rfl⟩, _, rfl⟩

theorem witness_HistoryOnlyGrows :
    (∃ t, step busy = .next t) ∧ (∃ t, step (vec [0x03, 0x37] [] []) = .next t) ∧ ∃ t, step (vec [0x00] [] []) = .next t :=
  ⟨⟨_, rfl⟩, ⟨_, rfl⟩, _, rfl⟩

/-- One instruction of each kind of the statement: without a divisor, with one, and the copies. -/
theorem witness_EveryInstructionCompletes :
    busy.wholeMap ∧ classCheck busy.params (.add (.two (full .r0) atR0)) = .ok () ∧ divisor (.add (.two (full .r0) atR0)) busy ≠ some 0 ∧
    (classCheck busy.params (.div (.two (full .r0) (full .r1))) = .ok () ∧ divisor (.div (.two (full .r0) (full .r1))) busy ≠ some 0) ∧
    (classCheck busy.params (.cpy (.three atR0 bumpR0 (nyb 2))) = .ok () ∧
      ∃ p s1, copyPlan (.three atR0 bumpR0 (nyb 2)) busy = .ok (p, s1) ∧ p.kind ≠ .cString) :=
  ⟨busy_wholeMap, by decide, by decide, ⟨by decide, by decide⟩, by decide, _, _, rfl, by decide⟩

end Sys2Proof.Tests.Slice0
end

section
/-! SUPPORT. What an execution can do, once for all instructions: it writes registers, memory and flags, and at its end
HLT, DMP and OUT write their one record. An invariant of every step needs its proof for `DataOp` and for those three. -/

namespace Sys2Proof.Machine

/-! ## Data operations -/

/-- One operation on the registers, the memory or the flags (R20, R26, R42). -/
inductive DataOp : State → State → Prop
  | regs (s : State) (g : Regs) : DataOp s { s with regs := g }
  | memory {s : State} {a : Word} {n : Nat} (v : Word) (h : s.accessOk a n = true) :
      DataOp s { s with mem := s.mem.writeBytes a n v }
  | flags (op : FlagOp) (a b : Word) (n : Size) (s : State) : DataOp s (writeFlags op a b n s)

/-- Any number of data operations, one after the other. -/
abbrev DataOps : State → State → Prop := Relation.ReflTransGen DataOp

theorem dataOps_setReg (s : State) (r : Reg) (v : Word) : DataOps s (s.setReg r v) :=
  .single (.regs s _)

theorem dataOps_writeFlags (op : FlagOp) (a b : Word) (n : Size) (s : State) : DataOps s (writeFlags op a b n s) :=
  .single (.flags op a b n s)

theorem dataOps_branchIf (taken : Bool) (target : Word) (s : State) : DataOps s (branchIf taken target s) := by
  cases taken
  · exact .refl
  · exact dataOps_setReg s .pc target

theorem dataOps_memWrite {a v : Word} {n : Nat} {s t : State} (h : memWrite a n v s = .ok t) : DataOps s t := by
  obtain ⟨hok, rfl⟩ := memWrite_eq_ok.1 h
  exact .single (.memory v hok)

theorem dataOps_store {l : Location} {v : Word} {s t : State} (h : store l v s = .ok t) : DataOps s t := by
  obtain ⟨r, n, -, rfl⟩ | ⟨a, n, -, hok, rfl⟩ := store_cases h
  · exact dataOps_setReg s r _
  · exact .single (.memory v hok)

theorem dataOps_storeAll {v : Word} {l : List Location} {s t : State} (h : storeAll v l s = .ok t) : DataOps s t := by
  induction l generalizing s with
  | nil => obtain rfl := Except.ok.inj h; exact .refl
  | cons x rest ih =>
    obtain ⟨u, hu, ht⟩ := bind_eq_ok.1 h
    exact (dataOps_store hu).trans (ih ht)

/-! ## Operands and operand forms -/

theorem dataOps_resolve {o : Operand} {s t : State} {l : Location} (h : resolve o s = .ok (l, t)) : DataOps s t := by
  obtain ⟨-, ht, -⟩ := resolve_cases h
  rw [ht]
  exact .single (.regs s _)

theorem dataOps_resolve2 {a b : Operand} {s t : State} {la lb : Location} (h : resolve2 a b s = .ok (la, lb, t)) :
    DataOps s t := by
  obtain ⟨u, ha, hb⟩ := resolve2_eq_ok.1 h
  exact (dataOps_resolve ha).trans (dataOps_resolve hb)

theorem dataOps_resolve3 {a b c : Operand} {s t : State} {la lb lc : Location}
    (h : resolve3 a b c s = .ok (la, lb, lc, t)) : DataOps s t := by
  obtain ⟨u, v, ha, hb, hc⟩ := resolve3_eq_ok.1 h
  exact ((dataOps_resolve ha).trans (dataOps_resolve hb)).trans (dataOps_resolve hc)

theorem dataOps_resolve4 {a b c d : Operand} {s t : State} {la lb lc ld : Location}
    (h : resolve4 a b c d s = .ok (la, lb, lc, ld, t)) : DataOps s t := by
  obtain ⟨u, v, w, ha, hb, hc, hd⟩ := resolve4_eq_ok.1 h
  exact (((dataOps_resolve ha).trans (dataOps_resolve hb)).trans (dataOps_resolve hc)).trans (dataOps_resolve hd)

theorem dataOps_resolveBin {ops : TwoOrThree} {s t : State} {l : BinPlaces} (h : resolveBin ops s = .ok (l, t)) :
    DataOps s t := by
  cases ops with
  | two a b =>
    simp only [resolveBin, bind_eq_ok, Prod.exists, Except.ok.injEq, Prod.mk.injEq] at h
    obtain ⟨-, -, la, lb, u, hr, -, rfl⟩ := h
    exact dataOps_resolve2 hr
  | three a b c =>
    simp only [resolveBin, bind_eq_ok, Prod.exists, Except.ok.injEq, Prod.mk.injEq] at h
    obtain ⟨-, -, la, lb, lc, u, hr, -, rfl⟩ := h
    exact dataOps_resolve3 hr

theorem dataOps_resolveMul {ops : TwoToFour} {s t : State} {l : MulPlaces} (h : resolveMul ops s = .ok (l, t)) :
    DataOps s t := by
  cases ops with
  | two a b =>
    simp only [resolveMul, bind_eq_ok, Prod.exists, Except.ok.injEq, Prod.mk.injEq] at h
    obtain ⟨-, -, la, lb, u, hr, -, rfl⟩ := h
    exact dataOps_resolve2 hr
  | three a b c =>
    simp only [resolveMul, bind_eq_ok, Prod.exists, Except.ok.injEq, Prod.mk.injEq] at h
    obtain ⟨-, -, la, lb, lc, u, hr, -, rfl⟩ := h
    exact dataOps_resolve3 hr
  | four a b c d =>
    simp only [resolveMul, bind_eq_ok, Prod.exists, Except.ok.injEq, Prod.mk.injEq] at h
    obtain ⟨-, -, la, lb, lc, ld, u, hr, -, rfl⟩ := h
    exact dataOps_resolve4 hr

theorem dataOps_resolveDiv {ops : TwoToFour} {s t : State} {l : DivPlaces} (h : resolveDiv ops s = .ok (l, t)) :
    DataOps s t := by
  cases ops with
  | two a b =>
    obtain ⟨-, -, h⟩ := bind_eq_ok.1 h
    dsimp only at h
    split at h
    · cases h
    · simp only [bind_eq_ok, Prod.exists, Except.ok.injEq, Prod.mk.injEq] at h
      obtain ⟨la, lb, u, hr, -, rfl⟩ := h
      exact dataOps_resolve2 hr
  | three a b c =>
    simp only [resolveDiv, bind_eq_ok, Prod.exists, Except.ok.injEq, Prod.mk.injEq] at h
    obtain ⟨-, -, la, lb, lc, u, hr, -, rfl⟩ := h
    exact dataOps_resolve3 hr
  | four a b c d =>
    simp only [resolveDiv, bind_eq_ok, Prod.exists, Except.ok.injEq, Prod.mk.injEq] at h
    obtain ⟨-, -, la, lb, lc, ld, u, hr, -, rfl⟩ := h
    exact dataOps_resolve4 hr

theorem dataOps_resolveCmp {ops : OneOrTwo} {s t : State} {d l : Location} (h : resolveCmp ops s = .ok (d, l, t)) :
    DataOps s t := by
  cases ops with
  | one a =>
    simp only [resolveCmp, bind_eq_ok, Prod.exists, Except.ok.injEq, Prod.mk.injEq] at h
    obtain ⟨-, -, la, u, hr, -, -, rfl⟩ := h
    exact dataOps_resolve hr
  | two a b =>
    obtain ⟨-, -, hr⟩ := bind_eq_ok.1 h
    exact dataOps_resolve2 hr

theorem dataOps_resolveTarget {o : Operand} {s t : State} {a : Word} (h : resolveTarget o s = .ok (a, t)) :
    DataOps s t := by
  simp only [resolveTarget, bind_eq_ok, Prod.exists, Except.ok.injEq, Prod.mk.injEq] at h
  obtain ⟨-, -, l, u, hr, -, -, -, rfl⟩ := h
  exact dataOps_resolve hr

theorem dataOps_resolveBranch {q : Requirement} {ops : TwoOrThree} {s t : State} {l : BranchPlaces}
    (h : resolveBranch q ops s = .ok (l, t)) : DataOps s t := by
  cases ops with
  | two a b =>
    simp only [resolveBranch, bind_eq_ok, Prod.exists, Except.ok.injEq, Prod.mk.injEq] at h
    obtain ⟨-, -, la, lb, u, hr, -, rfl⟩ := h
    exact dataOps_resolve2 hr
  | three a b c =>
    simp only [resolveBranch, bind_eq_ok, Prod.exists, Except.ok.injEq, Prod.mk.injEq] at h
    obtain ⟨-, -, la, lb, lc, u, hr, -, rfl⟩ := h
    exact dataOps_resolve3 hr

theorem dataOps_copyPlan {ops : TwoToFour} {s t : State} {p : CopyPlan} (h : copyPlan ops s = .ok (p, t)) :
    DataOps s t := by
  cases ops with
  | two a b =>
    simp only [copyPlan, bind_eq_ok, Prod.exists, Except.ok.injEq, Prod.mk.injEq] at h
    obtain ⟨-, -, la, lb, u, hr, -, -, -, -, -, rfl⟩ := h
    exact dataOps_resolve2 hr
  | three a b c =>
    simp only [copyPlan, bind_eq_ok, Prod.exists, Except.ok.injEq, Prod.mk.injEq] at h
    obtain ⟨-, -, la, lb, lc, u, hr, -, -, -, -, -, -, -, -, -, rfl⟩ := h
    exact dataOps_resolve3 hr
  | four a b c d =>
    simp only [copyPlan, bind_eq_ok, Prod.exists, Except.ok.injEq, Prod.mk.injEq] at h
    obtain ⟨-, -, la, lb, lc, ld, u, hr, -, -, -, -, -, -, -, -, -, -, -, rfl⟩ := h
    exact dataOps_resolve4 hr

/-! ## The meanings that write data alone -/

theorem dataOps_execClr {dst : Operand} {s t : State} (h : execClr dst s = .next t) : DataOps s t := by
  simp only [execClr, finish_eq_next, bind_eq_ok, Prod.exists] at h
  obtain ⟨-, -, l, u, hr, hs⟩ := h
  exact (dataOps_resolve hr).trans (dataOps_store hs)

theorem dataOps_execBin {op : FlagOp} {f : Word → Word → Word} {ops : TwoOrThree} {s t : State}
    (h : execBin op f ops s = .next t) : DataOps s t := by
  simp only [execBin, finish_eq_next, bind_eq_ok, Prod.exists, Except.ok.injEq] at h
  obtain ⟨l, u, hr, a, -, b, -, w, hs, rfl⟩ := h
  exact ((dataOps_resolveBin hr).trans (dataOps_store hs)).trans (dataOps_writeFlags ..)

theorem dataOps_execMul {ops : TwoToFour} {s t : State} (h : execMul ops s = .next t) : DataOps s t := by
  simp only [execMul, finish_eq_next, bind_eq_ok, Prod.exists, Except.ok.injEq] at h
  obtain ⟨l, u, hr, a, -, b, -, v, hlow, w, hhigh, rfl⟩ := h
  exact (((dataOps_resolveMul hr).trans (dataOps_store hlow)).trans (dataOps_storeAll hhigh)).trans
    (dataOps_writeFlags ..)

theorem dataOps_execDiv {ops : TwoToFour} {s t : State} (h : execDiv ops s = .next t) : DataOps s t := by
  simp only [execDiv, finish_eq_next, bind_eq_ok, Prod.exists] at h
  obtain ⟨l, u, hr, a, -, b, -, h⟩ := h
  split at h
  · cases h
  · simp only [bind_eq_ok, Except.ok.injEq] at h
    obtain ⟨v, hquot, w, hrem, rfl⟩ := h
    exact (((dataOps_resolveDiv hr).trans (dataOps_storeAll hquot)).trans (dataOps_storeAll hrem)).trans
      (dataOps_writeFlags ..)

theorem dataOps_execMod {dst src1 src2 : Operand} {s t : State} (h : execMod dst src1 src2 s = .next t) :
    DataOps s t := by
  simp only [execMod, finish_eq_next, bind_eq_ok, Prod.exists] at h
  obtain ⟨-, -, l1, l2, l3, u, hr, a, -, b, -, h⟩ := h
  split at h
  · cases h
  · simp only [bind_eq_ok, Except.ok.injEq] at h
    obtain ⟨w, hs, rfl⟩ := h
    exact ((dataOps_resolve3 hr).trans (dataOps_store hs)).trans (dataOps_writeFlags ..)

theorem dataOps_execCmp {ops : OneOrTwo} {s t : State} (h : execCmp ops s = .next t) : DataOps s t := by
  simp only [execCmp, finish_eq_next, bind_eq_ok, Prod.exists, Except.ok.injEq] at h
  obtain ⟨d, l, u, hr, a, -, w, hs, rfl⟩ := h
  exact ((dataOps_resolveCmp hr).trans (dataOps_store hs)).trans (dataOps_writeFlags ..)

theorem dataOps_execUpdate {op : FlagOp} {f : Word → Word} {dst : Operand} {s t : State}
    (h : execUpdate op f dst s = .next t) : DataOps s t := by
  simp only [execUpdate, finish_eq_next, bind_eq_ok, Prod.exists, Except.ok.injEq] at h
  obtain ⟨-, -, l, u, hr, a, -, w, hs, rfl⟩ := h
  exact ((dataOps_resolve hr).trans (dataOps_store hs)).trans (dataOps_writeFlags ..)

theorem dataOps_execMov {dst src : Operand} {s t : State} (h : execMov dst src s = .next t) : DataOps s t := by
  simp only [execMov, finish_eq_next, bind_eq_ok, Prod.exists] at h
  obtain ⟨-, -, l1, l2, u, hr, v, -, hs⟩ := h
  exact (dataOps_resolve2 hr).trans (dataOps_store hs)

theorem dataOps_execSwp {dst src : Operand} {s t : State} (h : execSwp dst src s = .next t) : DataOps s t := by
  simp only [execSwp, finish_eq_next, bind_eq_ok, Prod.exists] at h
  obtain ⟨-, -, l1, l2, u, hr, a, -, b, -, w, hs1, hs2⟩ := h
  exact ((dataOps_resolve2 hr).trans (dataOps_store hs1)).trans (dataOps_store hs2)

theorem dataOps_copyByte {p : CopyPlan} {n : Nat} {s t : State} {b : Byte} (h : copyByte p n s = .ok (b, t)) :
    DataOps s t := by
  simp only [copyByte, bind_eq_ok, Except.ok.injEq, Prod.mk.injEq] at h
  obtain ⟨v, -, u, hw, -, rfl⟩ := h
  exact dataOps_memWrite hw

theorem dataOps_copyLoop {p : CopyPlan} {fuel n : Nat} {s t : State} (h : copyLoop p fuel n s = .next t) :
    DataOps s t := by
  induction fuel generalizing n s with
  | zero =>
    unfold copyLoop at h
    split at h
    · cases h; exact .refl
    · cases h
  | succ fuel ih =>
    unfold copyLoop at h
    split at h
    · cases h; exact .refl
    · dsimp only at h
      split at h
      · cases h
      · next b u hb =>
        have hu := dataOps_copyByte hb
        split at h
        · cases h; exact hu
        · exact hu.trans (ih h)

theorem dataOps_execCpy {ops : TwoToFour} {s t : State} (h : execCpy ops s = .next t) : DataOps s t := by
  unfold execCpy at h
  split at h
  · cases h
  · next p u hp => exact (dataOps_copyPlan hp).trans (dataOps_copyLoop h)

theorem dataOps_execJmp {target : Operand} {s t : State} (h : execJmp target s = .next t) : DataOps s t := by
  simp only [execJmp, finish_eq_next, bind_eq_ok, Prod.exists, Except.ok.injEq] at h
  obtain ⟨a, u, hr, rfl⟩ := h
  exact (dataOps_resolveTarget hr).trans (dataOps_setReg u .pc a)

theorem dataOps_call {a : Word} {s t : State} (h : call a s = .ok t) : DataOps s t := by
  simp only [call, bind_eq_ok, Except.ok.injEq] at h
  obtain ⟨u, hB, v, hR, rfl⟩ := h
  have hv : DataOps s v := ((dataOps_memWrite hB).trans (dataOps_setReg u .pB _)).trans (dataOps_memWrite hR)
  exact ((hv.trans (dataOps_setReg ..)).trans (dataOps_setReg ..)).trans (dataOps_setReg ..)

theorem dataOps_execJal {target : Operand} {s t : State} (h : execJal target s = .next t) : DataOps s t := by
  simp only [execJal, finish_eq_next, bind_eq_ok, Prod.exists] at h
  obtain ⟨a, u, hr, hc⟩ := h
  exact (dataOps_resolveTarget hr).trans (dataOps_call hc)

theorem dataOps_execRet {s t : State} (h : execRet s = .next t) : DataOps s t := by
  simp only [execRet, finish_eq_next, bind_eq_ok, Except.ok.injEq] at h
  obtain ⟨r, -, sp, -, b, -, rfl⟩ := h
  exact (((dataOps_setReg ..).trans (dataOps_setReg ..)).trans (dataOps_setReg ..)).trans (dataOps_setReg ..)

theorem dataOps_execCompare {cond : Word → Word → Bool} {ops : TwoOrThree} {s t : State}
    (h : execCompare cond ops s = .next t) : DataOps s t := by
  simp only [execCompare, finish_eq_next, bind_eq_ok, Prod.exists, Except.ok.injEq] at h
  obtain ⟨l, u, hr, a, -, b, -, target, -, rfl⟩ := h
  exact (dataOps_resolveBranch hr).trans (dataOps_branchIf ..)

theorem dataOps_execLoop {op : FlagOp} {f : Word → Word} {ops : TwoOrThree} {s t : State}
    (h : execLoop op f ops s = .next t) : DataOps s t := by
  simp only [execLoop, finish_eq_next, bind_eq_ok, Prod.exists, Except.ok.injEq] at h
  obtain ⟨l, u, hr, old, -, w, hs, a, -, b, -, target, -, rfl⟩ := h
  have hw : DataOps s w := (dataOps_resolveBranch hr).trans (dataOps_store hs)
  exact (hw.trans (dataOps_branchIf ..)).trans (dataOps_writeFlags ..)

theorem dataOps_execFlagBranch {flag : Bool} {target : Operand} {s t : State}
    (h : execFlagBranch flag target s = .next t) : DataOps s t := by
  simp only [execFlagBranch, finish_eq_next, bind_eq_ok, Prod.exists, Except.ok.injEq] at h
  obtain ⟨a, u, hr, rfl⟩ := h
  exact (dataOps_resolveTarget hr).trans (dataOps_branchIf ..)

/-! ## The meanings that write a record -/

/-- DMP ends its data operations with one value dumped (R103). -/
theorem execDmp_cases {src : Operand} {s t : State} (h : execDmp src s = .next t) :
    ∃ u v, DataOps s u ∧ t = u.dump v := by
  simp only [execDmp, finish_eq_next, bind_eq_ok, Prod.exists, Except.ok.injEq] at h
  obtain ⟨-, -, l, u, hr, v, -, rfl⟩ := h
  exact ⟨u, v, dataOps_resolve hr, rfl⟩

/-- OUT ends its data operations with one value sent (R104). -/
theorem execOut_cases {ops : OneOrTwo} {s t : State} (h : execOut ops s = .next t) :
    ∃ u port v, DataOps s u ∧ t = u.send port v := by
  cases ops with
  | one src =>
    simp only [execOut, finish_eq_next, bind_eq_ok, Prod.exists, Except.ok.injEq] at h
    obtain ⟨-, -, l, u, hr, v, -, rfl⟩ := h
    exact ⟨u, 0, v, dataOps_resolve hr, rfl⟩
  | two src dst =>
    simp only [execOut, finish_eq_next, bind_eq_ok, Prod.exists, Except.ok.injEq] at h
    obtain ⟨-, -, l1, l2, u, hr, v, -, port, -, rfl⟩ := h
    exact ⟨u, port, v, dataOps_resolve2 hr, rfl⟩

/-! ## Every instruction and every step -/

/-- An instruction that writes no record: neither HLT nor DMP nor OUT. -/
def WritesDataAlone (i : Instr) : Prop := i ≠ .hlt ∧ (∀ a, i ≠ .dmp a) ∧ ∀ ops, i ≠ .out ops

theorem dataOps_exec {i : Instr} {s t : State} (hi : WritesDataAlone i) (h : exec i s = .next t) : DataOps s t := by
  obtain ⟨hhlt, hdmp, hout⟩ := hi
  cases i with
  | hlt => exact absurd rfl hhlt
  | dmp a => exact absurd rfl (hdmp a)
  | out ops => exact absurd rfl (hout ops)
  | nop => cases h; exact .refl
  | unspecified opc => cases h; exact .refl
  | clr dst => exact dataOps_execClr h
  | add ops => exact dataOps_execBin h
  | sub ops => exact dataOps_execBin h
  | mul ops => exact dataOps_execMul h
  | div ops => exact dataOps_execDiv h
  | mod dst src1 src2 => exact dataOps_execMod h
  | and ops => exact dataOps_execBin h
  | or ops => exact dataOps_execBin h
  | xor ops => exact dataOps_execBin h
  | cmp ops => exact dataOps_execCmp h
  | inc dst => exact dataOps_execUpdate h
  | dec dst => exact dataOps_execUpdate h
  | mov dst src => exact dataOps_execMov h
  | swp dst src => exact dataOps_execSwp h
  | cpy ops => exact dataOps_execCpy h
  | jmp target => exact dataOps_execJmp h
  | jal target => exact dataOps_execJal h
  | ret => exact dataOps_execRet h
  | beq ops => exact dataOps_execCompare h
  | bne ops => exact dataOps_execCompare h
  | bgt ops => exact dataOps_execCompare h
  | bge ops => exact dataOps_execCompare h
  | bie ops => exact dataOps_execLoop h
  | bde ops => exact dataOps_execLoop h
  | bao target => exact dataOps_execFlagBranch h
  | bac target => exact dataOps_execFlagBranch h

/-- Everything a completing instruction can do: data operations, and after them one record for HLT, DMP and OUT. -/
theorem exec_cases {i : Instr} {s t : State} (h : exec i s = .next t) :
    ∃ u, DataOps s u ∧
      ((i = .hlt ∧ t = u.halt) ∨ (∃ a v, i = .dmp a ∧ t = u.dump v) ∨
        (∃ ops port v, i = .out ops ∧ t = u.send port v) ∨ (WritesDataAlone i ∧ t = u)) := by
  by_cases hi : WritesDataAlone i
  · exact ⟨t, dataOps_exec hi h, .inr (.inr (.inr ⟨hi, rfl⟩))⟩
  · obtain rfl | ⟨a, rfl⟩ | ⟨ops, rfl⟩ : i = .hlt ∨ (∃ a, i = .dmp a) ∨ ∃ ops, i = .out ops := by
      by_contra hn
      simp only [not_or, not_exists] at hn
      exact hi hn
    · cases h
      exact ⟨s, .refl, .inl ⟨rfl, rfl⟩⟩
    · obtain ⟨u, v, hu, rfl⟩ := execDmp_cases h
      exact ⟨u, hu, .inr (.inl ⟨a, v, rfl, rfl⟩)⟩
    · obtain ⟨u, port, v, hu, rfl⟩ := execOut_cases h
      exact ⟨u, hu, .inr (.inr (.inl ⟨ops, port, v, rfl, rfl⟩))⟩

/-- A step completes exactly when the machine runs, the fetch decodes, and the instruction completes (R94). -/
theorem step_eq_next {s t : State} :
    step s = .next t ↔ s.fault = none ∧ s.halted = false ∧
      ∃ i len, fetch s = .ok (i, len) ∧ exec i (s.advancePc len) = .next t := by
  unfold step
  cases hf : s.fault with
  | some r => simp
  | none =>
    cases hh : s.halted with
    | true => simp
    | false =>
      cases hd : fetch s with
      | error e => cases e <;> simp [decodeFailure]
      | ok p => obtain ⟨i, len⟩ := p; simp

/-! ## The records -/

/-- The parameters, the halted bit, the two output channels and the fault record are the same in two states. -/
structure SameRecords (s t : State) : Prop where
  params : t.params = s.params
  halted : t.halted = s.halted
  trace : t.trace = s.trace
  output : t.output = s.output
  fault : t.fault = s.fault

theorem SameRecords.refl (s : State) : SameRecords s s := ⟨rfl, rfl, rfl, rfl, rfl⟩

theorem SameRecords.trans {s t u : State} (h : SameRecords s t) (k : SameRecords t u) : SameRecords s u :=
  ⟨k.params.trans h.params, k.halted.trans h.halted, k.trace.trans h.trace, k.output.trans h.output,
    k.fault.trans h.fault⟩

theorem DataOp.sameRecords {s t : State} (h : DataOp s t) : SameRecords s t := by
  cases h with
  | regs g => exact ⟨rfl, rfl, rfl, rfl, rfl⟩
  | memory v h => exact ⟨rfl, rfl, rfl, rfl, rfl⟩
  | flags op a b n =>
    exact ⟨writeFlags_params .., writeFlags_halted .., writeFlags_trace .., writeFlags_output .., writeFlags_fault ..⟩

theorem sameRecords_of_dataOps {s t : State} (h : DataOps s t) : SameRecords s t := by
  induction h with
  | refl => exact .refl s
  | tail _ hop ih => exact ih.trans hop.sameRecords

end Sys2Proof.Machine

open Sys2Proof Sys2Proof.Machine

/-- Settles O59: an instruction's data operations keep every record, and the one record written after them is that of
HLT, DMP or OUT. -/
theorem historyOnlyGrows : Obligations.HistoryOnlyGrows := by
  intro s t h
  obtain ⟨-, hrun, i, len, hfetch, hexec⟩ := step_eq_next.1 h
  obtain ⟨u, hops, hrec⟩ := exec_cases hexec
  have hu := sameRecords_of_dataOps ((dataOps_setReg s .pc _).trans hops)
  have hhalted : u.halted = false := hu.halted.trans hrun
  obtain ⟨rfl, rfl⟩ | ⟨a, v, rfl, rfl⟩ | ⟨ops, port, v, rfl, rfl⟩ | ⟨⟨hhlt, hdmp, hout⟩, rfl⟩ := hrec
  · exact ⟨hu.params, _, len, hfetch, by simp, .inl ⟨hu.trace, by simp⟩, .inl ⟨hu.output, by simp⟩⟩
  · exact ⟨hu.params, _, len, hfetch, by simp [hhalted], .inr ⟨a, v, rfl, by simp [hu.trace]⟩,
      .inl ⟨hu.output, by simp⟩⟩
  · exact ⟨hu.params, _, len, hfetch, by simp [hhalted], .inl ⟨hu.trace, by simp⟩,
      .inr ⟨ops, (port, v), rfl, by simp [hu.output]⟩⟩
  · exact ⟨hu.params, i, len, hfetch, by simp [hhalted, hhlt], .inl ⟨hu.trace, hdmp⟩, .inl ⟨hu.output, hout⟩⟩

end

section
/-! SUPPORT. The invariant: every data operation keeps it, and so does every record that HLT, DMP and OUT write. -/

namespace Sys2Proof.Machine

theorem DataOp.inv {s t : State} (h : DataOp s t) (hs : s.Inv) : t.Inv := by
  obtain ⟨hmem, hfault⟩ := hs
  cases h with
  | regs g => exact ⟨hmem, hfault⟩
  | memory v h => exact ⟨Memory.wf_writeBytes _ _ v hmem, hfault⟩
  | flags op a b n => exact ⟨(writeFlags_mem ..).symm ▸ hmem, (writeFlags_fault ..).trans hfault⟩

theorem inv_of_dataOps {s t : State} (h : DataOps s t) (hs : s.Inv) : t.Inv := by
  induction h with
  | refl => exact hs
  | tail _ hop ih => exact hop.inv ih

end Sys2Proof.Machine

open Sys2Proof Sys2Proof.Machine

/-- Settles O55: the advance of PC and the instruction are data operations, which keep the invariant; a record that
HLT, DMP or OUT writes after them is neither memory nor fault record. -/
theorem everyStepKeepsTheInvariant : Obligations.EveryStepKeepsTheInvariant := by
  intro s t hs h
  obtain ⟨-, -, i, len, -, hexec⟩ := step_eq_next.1 h
  obtain ⟨u, hops, hrec⟩ := exec_cases hexec
  have hu : u.Inv := inv_of_dataOps ((dataOps_setReg s .pc _).trans hops) hs
  obtain ⟨-, rfl⟩ | ⟨a, v, -, rfl⟩ | ⟨ops, port, v, -, rfl⟩ | ⟨-, rfl⟩ := hrec
  · exact hu
  · exact hu
  · exact hu
  · exact hu

/-- Settles O8: the third branch of `step`, and the advance writes the one register PC. -/
theorem stepRunsTheDecodedInstruction : Obligations.StepRunsTheDecodedInstruction := by
  intro s i len ⟨hhalted, hfault⟩ hfetch
  refine ⟨?_, s.reg_advancePc_pc len, fun q hq => s.reg_advancePc_ne len hq, rfl⟩
  simp [step, hfault, hhalted, hfetch]

/-- Settles O57: the launch gives PC its own value and every other register that of `INIT_REGS`; the rest is `launch`
field by field. -/
theorem launchState : Obligations.LaunchState := by
  intro p entry g f m
  have hregs : (State.launch p entry g f m).regs = g.set .pc entry := rfl
  refine ⟨rfl, fun q hq => ?_, rfl, rfl, rfl, rfl, rfl, rfl, rfl⟩
  rw [State.reg, hregs, Regs.get_set_ne g entry hq]

/-- Settles O58: memory lists nothing at reset, and the one region of the default map holds every address. -/
theorem resetMeetsTheInvariant : Obligations.ResetMeetsTheInvariant := by
  refine ⟨⟨Memory.wf_nil, rfl⟩, ⟨rfl, rfl⟩, rfl, fun r => ?_, rfl, fun a => ?_, fun _ => rfl⟩
  · cases r <;> rfl
  · have hmap : State.reset.params.memMap = [⟨0, 2 ^ 32⟩] := rfl
    have halen : State.reset.params.alen = 32 := rfl
    simp [State.implemented, hmap, halen, regionHolds, a.isLt]

end

section
/-! SUPPORT. What a fetch and an execution can refuse. Only the loop over sign-extend bytes can meet its bound, and then
that many bytes in a row are sign-extend bytes; only CPY refuses. -/

namespace Sys2Proof.Machine

/-- A chain fails when its first part does, or the rest does on its answer. -/
theorem bind_eq_error {ε α β : Type} {x : Except ε α} {f : α → Except ε β} {e : ε} :
    (x >>= f) = .error e ↔ x = .error e ∨ ∃ a, x = .ok a ∧ f a = .error e := by
  cases x with
  | ok a => simp
  | error e' => simp

end Sys2Proof.Machine

namespace Sys2Proof

open Sys2Proof.Machine

/-! ## The parts of the decoder without a bound -/

/-- A part of the decoder that does not meet the bound on sign-extend bytes. -/
def NotEndless {α : Type} (x : Except DecodeError α) : Prop := x ≠ .error .endlessPrefixes

theorem NotEndless.ok {α : Type} (a : α) : NotEndless (.ok a) := by simp [NotEndless]

theorem NotEndless.error {α : Type} {e : DecodeError} (he : e ≠ .endlessPrefixes) :
    NotEndless (.error e : Except DecodeError α) := by simpa [NotEndless] using he

theorem NotEndless.bind {α β : Type} {x : Except DecodeError α} {f : α → Except DecodeError β} (hx : NotEndless x)
    (hf : ∀ a, NotEndless (f a)) : NotEndless (x >>= f) := by
  intro h
  obtain h | ⟨a, -, h⟩ := bind_eq_error.1 h
  · exact hx h
  · exact hf a h

theorem notEndless_readByte (src : Source) (p : Nat) : NotEndless (readByte src p) := by
  unfold readByte
  split
  · exact .ok _
  · exact .error (by decide)

theorem notEndless_readImm (src : Source) (n p : Nat) : NotEndless (readImm src n p) := by
  induction n generalizing p with
  | zero => exact .ok _
  | succ n ih => exact (notEndless_readByte src p).bind fun _ => (ih _).bind fun _ => .ok _

theorem notEndless_readReg (src : Source) (f : BitVec 2) (p : Nat) : NotEndless (readReg src f p) := by
  unfold readReg
  split
  · exact .ok _
  · exact .ok _
  · exact .ok _
  · refine (notEndless_readByte src p).bind fun _ => ?_
    dsimp only
    split
    · exact .ok _
    · exact .error (by decide)

theorem notEndless_requireFixed (b : Byte) : NotEndless (requireFixed b) := by
  unfold requireFixed
  split
  · exact .ok _
  · exact .error (by decide)

theorem notEndless_decodeBody (src : Source) (b : Byte) (p : Nat) : NotEndless (decodeBody src b p) := by
  have hreg := notEndless_readReg src
  have himm := notEndless_readImm src
  have hfixed := notEndless_requireFixed b
  unfold decodeBody
  split
  · exact .ok _
  · exact hfixed.bind fun _ => (himm _ _).bind fun _ => .ok _
  · exact (hreg _ _).bind fun _ => .ok _
  · exact (hreg _ _).bind fun _ => .ok _
  · exact hfixed.bind fun _ => (himm _ _).bind fun _ => .ok _
  · exact (hreg _ _).bind fun _ => (hreg _ _).bind fun _ => .ok _
  · exact (hreg _ _).bind fun _ => (himm _ _).bind fun _ => .ok _
  · exact hfixed.bind fun _ => (himm _ _).bind fun _ => .ok _
  · exact (hreg _ _).bind fun _ => .ok _
  · exact (hreg _ _).bind fun _ => .ok _
  · exact (hreg _ _).bind fun _ => .ok _
  · exact (hreg _ _).bind fun _ => .ok _
  · exact .error (by decide)
  · exact .error (by decide)
  · exact .error (by decide)

theorem notEndless_decodeDesc (src : Source) (b : Byte) (p : Nat) : NotEndless (decodeDesc src b p) := by
  unfold decodeDesc
  split
  · exact (notEndless_readReg src _ _).bind fun _ => (notEndless_readByte src _).bind fun _ =>
      (notEndless_decodeBody src _ _).bind fun _ => .ok _
  · exact (notEndless_decodeBody src _ _).bind fun _ => .ok _

/-! ## The loop over sign-extend bytes (R64, log 13) -/

theorem readByte_eq_ok {src : Source} {p q : Nat} {b : Byte} :
    readByte src p = .ok (b, q) ↔ src p = some b ∧ q = p + 1 := by
  unfold readByte
  split <;> simp_all [eq_comm]

theorem eq_signExtendByte {b : Byte} (hmode : modeBits b = 0) (hlow : lowNibble b = 0b0001) : b = 0x01 := by
  revert b
  decide

/-- The loop meets its bound after that many sign-extend bytes in a row, beside the one it starts with. -/
theorem skipControl_endless {src : Source} {fuel : Nat} {sx : Bool} {b : Byte} {p : Nat}
    (h : skipControl src fuel sx b p = .error .endlessPrefixes) :
    b = 0x01 ∧ ∀ k < fuel, src (p + k) = some 0x01 := by
  induction fuel generalizing sx b p with
  | zero =>
    unfold skipControl at h
    split at h
    · cases h
    · next hmode =>
      split at h
      · next hlow => exact ⟨eq_signExtendByte (not_not.1 hmode) hlow, by simp⟩
      · split at h <;> cases h
  | succ fuel ih =>
    unfold skipControl at h
    split at h
    · cases h
    · next hmode =>
      split at h
      · next hlow =>
        refine ⟨eq_signExtendByte (not_not.1 hmode) hlow, ?_⟩
        dsimp only at h
        split at h
        · next b' p' hread =>
          obtain ⟨hp, rfl⟩ := readByte_eq_ok.1 hread
          obtain ⟨rfl, hrest⟩ := ih h
          intro k hk
          cases k with
          | zero => exact hp
          | succ k => exact (congrArg src (by omega)).trans (hrest k (by omega))
        · next e hread =>
          cases h
          exact absurd hread (notEndless_readByte src p)
      · split at h <;> cases h

/-- An operand slot meets the bound on 2^32 sign-extend bytes and the one before them. -/
theorem decodeSlot_endless {src : Source} {p : Nat} (h : decodeSlot src p = .error .endlessPrefixes) :
    ∀ k ≤ controlFuel, src (p + k) = some 0x01 := by
  obtain h | ⟨⟨b, q⟩, hread, h⟩ := bind_eq_error.1 h
  · exact absurd h (notEndless_readByte src p)
  obtain ⟨hp, rfl⟩ := readByte_eq_ok.1 hread
  dsimp only at h
  split at h
  · cases h
  obtain h | ⟨⟨sx, b', q⟩, -, h⟩ := bind_eq_error.1 h
  · obtain ⟨rfl, hrest⟩ := skipControl_endless h
    intro k hk
    cases k with
    | zero => exact hp
    | succ k => exact (congrArg src (by omega)).trans (hrest k (by omega))
  · exact absurd h ((notEndless_decodeDesc src b' q).bind fun _ => .ok _)

theorem decodeOperands_endless {src : Source} {n p : Nat} (h : decodeOperands src n p = .error .endlessPrefixes) :
    ∃ q, ∀ k ≤ controlFuel, src (q + k) = some 0x01 := by
  induction n generalizing p with
  | zero => cases h
  | succ n ih =>
    obtain h | ⟨⟨slot, q⟩, -, h⟩ := bind_eq_error.1 h
    · exact ⟨p, decodeSlot_endless h⟩
    · cases slot with
      | none => cases h
      | some o =>
        obtain h | ⟨a, -, h⟩ := bind_eq_error.1 h
        · exact ih h
        · cases h

theorem decode_endless {src : Source} (h : decode src = .error .endlessPrefixes) :
    ∃ q, ∀ k ≤ controlFuel, src (q + k) = some 0x01 := by
  obtain h | ⟨⟨b, p⟩, -, h⟩ := bind_eq_error.1 h
  · exact absurd h (notEndless_readByte src 0)
  dsimp only at h
  split at h
  · cases h
  · obtain h | ⟨⟨ops, q⟩, -, h⟩ := bind_eq_error.1 h
    · exact decodeOperands_endless h
    · dsimp only at h
      split at h <;> cases h

/-- NOP takes no operand, so that what follows its byte is not looked at. -/
theorem decode_of_nopByte {src : Source} (h : src 0 = some 0x01) : decode src = .ok (.nop, 1) := by
  unfold decode
  rw [readByte_eq_ok.2 ⟨h, rfl⟩]
  rfl

end Sys2Proof

namespace Sys2Proof.Machine

/-! ## Refusals -/

/-- A fetch that has gone round all 2^32 addresses reads the opcode byte again (R52). -/
theorem fetchSource_of_dvd (s : State) {k : Nat} (h : 2 ^ 32 ∣ k) : fetchSource s k = fetchSource s 0 := by
  have hk : BitVec.ofNat 32 k = 0 := BitVec.eq_of_toNat_eq (Nat.mod_eq_zero_of_dvd h)
  simp [fetchSource, hk]

/-- No fetch meets the bound: the bytes in a row would hold the opcode byte too, which would then be NOP (log 13). -/
theorem fetch_notEndless (s : State) : NotEndless (fetch s) := by
  intro h
  obtain ⟨q, hq⟩ := decode_endless h
  have hopcode : fetchSource s 0 = some 0x01 := by
    rw [← fetchSource_of_dvd s (k := q + (2 ^ 32 - q % 2 ^ 32)) (by omega)]
    exact hq _ (Nat.sub_le ..)
  rw [fetch, decode_of_nopByte hopcode] at h
  cases h

theorem decodeFailure_eq_refused {e : DecodeError} {r : Refusal} (h : decodeFailure e = .refused r) :
    e = .endlessPrefixes := by
  cases e with
  | endlessPrefixes => rfl
  | _ => cases h

theorem copyLoop_eq_refused {p : CopyPlan} {fuel n : Nat} {s : State} {r : Refusal}
    (h : copyLoop p fuel n s = .refused r) : r = .copyNeverEnds := by
  induction fuel generalizing n s with
  | zero =>
    unfold copyLoop at h
    split at h
    · cases h
    · cases h; rfl
  | succ fuel ih =>
    unfold copyLoop at h
    split at h
    · cases h
    · dsimp only at h
      split at h
      · cases h
      · split at h
        · cases h
        · exact ih h

theorem execCpy_eq_refused {ops : TwoToFour} {s : State} {r : Refusal} (h : execCpy ops s = .refused r) :
    r = .copyNeverEnds := by
  unfold execCpy at h
  split at h
  · cases h
  · exact copyLoop_eq_refused h

/-- Every meaning but that of CPY is a chain of answers and faults, or completes at once. -/
theorem exec_eq_refused {i : Instr} {s : State} {r : Refusal} (h : exec i s = .refused r) :
    r = .copyNeverEnds ∧ ∃ ops, i = .cpy ops := by
  cases i with
  | cpy ops => exact ⟨execCpy_eq_refused h, ops, rfl⟩
  | hlt => cases h
  | nop => cases h
  | unspecified opc => cases h
  | out ops => cases ops <;> exact absurd h (finish_ne_refused _ r)
  | _ => exact absurd h (finish_ne_refused _ r)

end Sys2Proof.Machine

open Sys2Proof Sys2Proof.Machine

/-- Settles O13: of a machine not in fault `step` refuses where it is halted, where decoding meets its bound, which no
fetch does, and where the instruction refuses, which CPY alone does. -/
theorem refusalsAreHaltOrEndlessCopy : Obligations.RefusalsAreHaltOrEndlessCopy := by
  intro s r h
  unfold step at h
  split at h
  · cases h
  next hfault =>
  refine ⟨hfault, ?_⟩
  split at h
  · next hhalted => exact .inl ⟨(Host.Outcome.refused.inj h).symm, hhalted⟩
  next hrunning =>
  split at h
  · next e hfetch =>
    obtain rfl := decodeFailure_eq_refused h
    exact absurd hfetch (fetch_notEndless s)
  · next i len hfetch =>
    obtain ⟨rfl, ops, rfl⟩ := exec_eq_refused h
    exact .inr ⟨rfl, by simpa using hrunning, ops, len, hfetch⟩

end

section
/-! SUPPORT. The customary flags against the exact results (R123). -/

namespace Sys2Proof.Machine

theorem widthOf_pos (n : Size) : 0 < widthOf n := by cases n <;> decide

theorem widthOf_le (n : Size) : widthOf n ≤ 32 := by cases n <;> decide

/-- The top bit of R123 is the sign of the low part. -/
theorem topBit_eq_msb (n : Size) (v : Word) : topBit n v = (v.setWidth (widthOf n)).msb := by
  simp [topBit, BitVec.msb_setWidth, widthOf_pos]

/-- A number that `W` bits hold in two's complement. -/
def FitsSigned (n : Size) (z : Int) : Prop := -(2 ^ (widthOf n - 1) : Int) ≤ z ∧ z < (2 ^ (widthOf n - 1) : Int)

/-- The overflow of an addition is that of adding the low parts as signed numbers. -/
theorem addFlags_ovf (n : Size) (a b : Word) :
    (addFlags n a b).ovf = (a.setWidth (widthOf n)).saddOverflow (b.setWidth (widthOf n)) := by
  rw [BitVec.saddOverflow_eq, ← BitVec.setWidth_add a b (widthOf_le n)]
  simp only [addFlags, topBit_eq_msb]
  rfl

/-- The overflow of a subtraction is that of subtracting the low parts as signed numbers. -/
theorem subFlags_ovf (n : Size) (a b : Word) :
    (subFlags n a b).ovf = (a.setWidth (widthOf n)).ssubOverflow (b.setWidth (widthOf n)) := by
  have hsub : (a - b).setWidth (widthOf n) = a.setWidth (widthOf n) - b.setWidth (widthOf n) := by
    rw [BitVec.sub_eq_add_neg, BitVec.setWidth_add _ _ (widthOf_le n),
      BitVec.setWidth_neg_of_le (widthOf_le n), BitVec.sub_eq_add_neg]
  rw [BitVec.ssubOverflow_eq, ← hsub]
  simp only [subFlags, topBit_eq_msb]
  cases (a.setWidth (widthOf n)).msb <;> cases (b.setWidth (widthOf n)).msb <;> simp

theorem addFlags_ovf_eq_false {n : Size} {a b : Word} :
    (addFlags n a b).ovf = false ↔ FitsSigned n (lowSigned n a + lowSigned n b) := by
  rw [addFlags_ovf]
  simp [BitVec.saddOverflow, FitsSigned, lowSigned, and_comm]

theorem subFlags_ovf_eq_false {n : Size} {a b : Word} :
    (subFlags n a b).ovf = false ↔ FitsSigned n (lowSigned n a - lowSigned n b) := by
  rw [subFlags_ovf]
  simp [BitVec.ssubOverflow, FitsSigned, lowSigned, and_comm]

theorem mulFlags_ovf_eq_false {n : Size} {a b : Word} :
    (mulFlags n a b).ovf = false ↔ FitsSigned n (lowSigned n a * lowSigned n b) := by
  simp [mulFlags, FitsSigned]

end Sys2Proof.Machine

open Sys2Proof Sys2Proof.Machine

/-- Settles O37: the two flag rules are the two equations of `writeFlags`; the rows of the table are the customary flags
of an addition, a subtraction and a product. -/
theorem flagWriteGivesTheFlags : Obligations.FlagWriteGivesTheFlags := by
  intro op a b n s
  refine ⟨writeFlags_free op a b n s, writeFlags_customary op a b n s,
    fun h => ?_, fun h => ?_, fun h => ?_, fun h => ?_⟩
  · fin_cases h <;> exact ⟨decide_eq_true_iff, addFlags_ovf_eq_false⟩
  · fin_cases h <;> exact ⟨decide_eq_true_iff, subFlags_ovf_eq_false⟩
  · subst h
    exact ⟨decide_eq_true_iff, mulFlags_ovf_eq_false⟩
  · fin_cases h <;> rfl

end

section
/-! SUPPORT. Every operand form resolves its operands in order, which writes registers alone; and what an instruction
that stores nothing does after that. -/

namespace Sys2Proof.Machine

/-! ## Operand forms resolve their operands in order (R86, R110, R113, R114, R119, R132, R140, R143) -/

theorem resolveAll_of_resolve {a : Operand} {s t : State} {la : Location} (h : resolve a s = .ok (la, t)) :
    resolveAll [a] s = .ok ([la], t) := by
  simp [resolveAll, h]

theorem resolveAll_of_resolve2 {a b : Operand} {s t : State} {la lb : Location}
    (h : resolve2 a b s = .ok (la, lb, t)) : resolveAll [a, b] s = .ok ([la, lb], t) := by
  obtain ⟨u, ha, hb⟩ := resolve2_eq_ok.1 h
  simp [resolveAll, ha, hb]

theorem resolveAll_of_resolve3 {a b c : Operand} {s t : State} {la lb lc : Location}
    (h : resolve3 a b c s = .ok (la, lb, lc, t)) : resolveAll [a, b, c] s = .ok ([la, lb, lc], t) := by
  obtain ⟨u, v, ha, hb, hc⟩ := resolve3_eq_ok.1 h
  simp [resolveAll, ha, hb, hc]

theorem resolveAll_of_resolve4 {a b c d : Operand} {s t : State} {la lb lc ld : Location}
    (h : resolve4 a b c d s = .ok (la, lb, lc, ld, t)) : resolveAll [a, b, c, d] s = .ok ([la, lb, lc, ld], t) := by
  obtain ⟨u, v, w, ha, hb, hc, hd⟩ := resolve4_eq_ok.1 h
  simp [resolveAll, ha, hb, hc, hd]

theorem resolveAll_of_resolveBin {ops : TwoOrThree} {s t : State} {l : BinPlaces} (h : resolveBin ops s = .ok (l, t)) :
    ∃ ls, resolveAll ops.toList s = .ok (ls, t) := by
  cases ops with
  | two a b =>
    simp only [resolveBin, bind_eq_ok, Prod.exists, Except.ok.injEq, Prod.mk.injEq] at h
    obtain ⟨-, -, la, lb, u, hr, -, rfl⟩ := h
    exact ⟨_, resolveAll_of_resolve2 hr⟩
  | three a b c =>
    simp only [resolveBin, bind_eq_ok, Prod.exists, Except.ok.injEq, Prod.mk.injEq] at h
    obtain ⟨-, -, la, lb, lc, u, hr, -, rfl⟩ := h
    exact ⟨_, resolveAll_of_resolve3 hr⟩

theorem resolveAll_of_resolveMul {ops : TwoToFour} {s t : State} {l : MulPlaces} (h : resolveMul ops s = .ok (l, t)) :
    ∃ ls, resolveAll ops.toList s = .ok (ls, t) := by
  cases ops with
  | two a b =>
    simp only [resolveMul, bind_eq_ok, Prod.exists, Except.ok.injEq, Prod.mk.injEq] at h
    obtain ⟨-, -, la, lb, u, hr, -, rfl⟩ := h
    exact ⟨_, resolveAll_of_resolve2 hr⟩
  | three a b c =>
    simp only [resolveMul, bind_eq_ok, Prod.exists, Except.ok.injEq, Prod.mk.injEq] at h
    obtain ⟨-, -, la, lb, lc, u, hr, -, rfl⟩ := h
    exact ⟨_, resolveAll_of_resolve3 hr⟩
  | four a b c d =>
    simp only [resolveMul, bind_eq_ok, Prod.exists, Except.ok.injEq, Prod.mk.injEq] at h
    obtain ⟨-, -, la, lb, lc, ld, u, hr, -, rfl⟩ := h
    exact ⟨_, resolveAll_of_resolve4 hr⟩

theorem resolveAll_of_resolveDiv {ops : TwoToFour} {s t : State} {l : DivPlaces} (h : resolveDiv ops s = .ok (l, t)) :
    ∃ ls, resolveAll ops.toList s = .ok (ls, t) := by
  cases ops with
  | two a b =>
    obtain ⟨-, -, h⟩ := bind_eq_ok.1 h
    dsimp only at h
    split at h
    · cases h
    · simp only [bind_eq_ok, Prod.exists, Except.ok.injEq, Prod.mk.injEq] at h
      obtain ⟨la, lb, u, hr, -, rfl⟩ := h
      exact ⟨_, resolveAll_of_resolve2 hr⟩
  | three a b c =>
    simp only [resolveDiv, bind_eq_ok, Prod.exists, Except.ok.injEq, Prod.mk.injEq] at h
    obtain ⟨-, -, la, lb, lc, u, hr, -, rfl⟩ := h
    exact ⟨_, resolveAll_of_resolve3 hr⟩
  | four a b c d =>
    simp only [resolveDiv, bind_eq_ok, Prod.exists, Except.ok.injEq, Prod.mk.injEq] at h
    obtain ⟨-, -, la, lb, lc, ld, u, hr, -, rfl⟩ := h
    exact ⟨_, resolveAll_of_resolve4 hr⟩

theorem resolveAll_of_resolveCmp {ops : OneOrTwo} {s t : State} {d l : Location} (h : resolveCmp ops s = .ok (d, l, t)) :
    ∃ ls, resolveAll ops.toList s = .ok (ls, t) := by
  cases ops with
  | one a =>
    simp only [resolveCmp, bind_eq_ok, Prod.exists, Except.ok.injEq, Prod.mk.injEq] at h
    obtain ⟨-, -, la, u, hr, -, -, rfl⟩ := h
    exact ⟨_, resolveAll_of_resolve hr⟩
  | two a b =>
    obtain ⟨-, -, hr⟩ := bind_eq_ok.1 h
    exact ⟨_, resolveAll_of_resolve2 hr⟩

theorem resolveAll_of_resolveTarget {o : Operand} {s t : State} {a : Word} (h : resolveTarget o s = .ok (a, t)) :
    ∃ ls, resolveAll [o] s = .ok (ls, t) := by
  simp only [resolveTarget, bind_eq_ok, Prod.exists, Except.ok.injEq, Prod.mk.injEq] at h
  obtain ⟨-, -, l, u, hr, -, -, -, rfl⟩ := h
  exact ⟨_, resolveAll_of_resolve hr⟩

theorem resolveAll_of_resolveBranch {q : Requirement} {ops : TwoOrThree} {s t : State} {l : BranchPlaces}
    (h : resolveBranch q ops s = .ok (l, t)) : ∃ ls, resolveAll ops.toList s = .ok (ls, t) := by
  cases ops with
  | two a b =>
    simp only [resolveBranch, bind_eq_ok, Prod.exists, Except.ok.injEq, Prod.mk.injEq] at h
    obtain ⟨-, -, la, lb, u, hr, -, rfl⟩ := h
    exact ⟨_, resolveAll_of_resolve2 hr⟩
  | three a b c =>
    simp only [resolveBranch, bind_eq_ok, Prod.exists, Except.ok.injEq, Prod.mk.injEq] at h
    obtain ⟨-, -, la, lb, lc, u, hr, -, rfl⟩ := h
    exact ⟨_, resolveAll_of_resolve3 hr⟩

theorem resolveAll_of_copyPlan {ops : TwoToFour} {s t : State} {p : CopyPlan} (h : copyPlan ops s = .ok (p, t)) :
    ∃ ls, resolveAll ops.toList s = .ok (ls, t) := by
  cases ops with
  | two a b =>
    simp only [copyPlan, bind_eq_ok, Prod.exists, Except.ok.injEq, Prod.mk.injEq] at h
    obtain ⟨-, -, la, lb, u, hr, -, -, -, -, -, rfl⟩ := h
    exact ⟨_, resolveAll_of_resolve2 hr⟩
  | three a b c =>
    simp only [copyPlan, bind_eq_ok, Prod.exists, Except.ok.injEq, Prod.mk.injEq] at h
    obtain ⟨-, -, la, lb, lc, u, hr, -, -, -, -, -, -, -, -, -, rfl⟩ := h
    exact ⟨_, resolveAll_of_resolve3 hr⟩
  | four a b c d =>
    simp only [copyPlan, bind_eq_ok, Prod.exists, Except.ok.injEq, Prod.mk.injEq] at h
    obtain ⟨-, -, la, lb, lc, ld, u, hr, -, -, -, -, -, -, -, -, -, -, -, rfl⟩ := h
    exact ⟨_, resolveAll_of_resolve4 hr⟩

/-! ## Registers written by address modes (R23, R86) -/

/-- Two states differ in registers alone, and only in those that the modes of some operands write. -/
structure ModeWrites (ops : List Operand) (s t : State) : Prop where
  eq : t = { s with regs := t.regs }
  reg : ∀ q, (∀ o ∈ ops, q ∉ modifiedRegs o) → t.reg q = s.reg q

theorem ModeWrites.refl (ops : List Operand) (s : State) : ModeWrites ops s s := ⟨rfl, fun _ _ => rfl⟩

theorem modeWrites_of_resolveAll {ops : List Operand} {s t : State} (h : ∃ ls, resolveAll ops s = .ok (ls, t)) :
    ModeWrites ops s t := by
  obtain ⟨ls, h⟩ := h
  induction ops generalizing s ls with
  | nil =>
    cases h
    exact .refl [] _
  | cons o rest ih =>
    simp only [resolveAll, bind_eq_ok, Prod.exists, Except.ok.injEq, Prod.mk.injEq] at h
    obtain ⟨l, u, ho, ls', v, hrest, -, rfl⟩ := h
    obtain ⟨-, hu, hreg⟩ := resolve_cases ho
    have k := ih _ hrest
    refine ⟨?_, fun q hq => ?_⟩
    · rw [k.eq, hu]
    · rw [List.forall_mem_cons] at hq
      exact (k.reg q hq.2).trans (hreg q hq.1)

/-! ## The instructions that store nothing (R46) -/

/-- What an instruction that stores nothing does after its operands have been resolved: nothing, one record, one jump, or
the four loads of RET. -/
inductive StoreFreeEnd (i : Instr) (u : State) : State → Prop
  | nothing : StoreFreeEnd i u u
  | halt (h : i = .hlt) : StoreFreeEnd i u u.halt
  | dump (a : Operand) (v : Word) (h : i = .dmp a) : StoreFreeEnd i u (u.dump v)
  | send (ops : OneOrTwo) (port v : Word) (h : i = .out ops) : StoreFreeEnd i u (u.send port v)
  | jump (target : Word) (h : mayJump i = true) : StoreFreeEnd i u (u.jump target)
  | load (target r sp b : Word) (h : i = .ret) :
      StoreFreeEnd i u ((((u.jump target).setReg .pR r).setReg .pS sp).setReg .pB b)

section
variable {i : Instr} {u t : State}

theorem StoreFreeEnd.branchIf (hi : mayJump i = true) (taken : Bool) (target : Word) :
    StoreFreeEnd i u (branchIf taken target u) := by
  cases taken
  · exact .nothing
  · exact .jump target hi

theorem StoreFreeEnd.eq (h : StoreFreeEnd i u t) :
    t = { u with regs := t.regs, halted := t.halted, trace := t.trace, output := t.output } := by
  cases h <;> rfl

theorem StoreFreeEnd.reg (h : StoreFreeEnd i u t) {q : Reg} (hjump : ¬ (mayJump i = true ∧ q = .pc))
    (hret : ¬ (i = .ret ∧ (q = .pR ∨ q = .pB ∨ q = .pS))) : t.reg q = u.reg q := by
  cases h with
  | nothing => rfl
  | halt _ => rfl
  | dump a v _ => rfl
  | send ops port v _ => rfl
  | jump target h => exact u.reg_jump_ne target fun hq => hjump ⟨h, hq⟩
  | load target r sp b h =>
    subst h
    simp only [mayJump, true_and, not_or] at hjump hret
    obtain ⟨hR, hB, hS⟩ := hret
    rw [State.reg_setReg_ne _ _ hB, State.reg_setReg_ne _ _ hS, State.reg_setReg_ne _ _ hR, State.reg_jump_ne _ _ hjump]

theorem StoreFreeEnd.halted (h : StoreFreeEnd i u t) (hi : i ≠ .hlt) : t.halted = u.halted := by
  cases h with
  | halt h => exact absurd h hi
  | _ => rfl

theorem StoreFreeEnd.trace (h : StoreFreeEnd i u t) (hi : ∀ a, i ≠ .dmp a) : t.trace = u.trace := by
  cases h with
  | dump a v h => exact absurd h (hi a)
  | _ => rfl

theorem StoreFreeEnd.output (h : StoreFreeEnd i u t) (hi : ∀ ops, i ≠ .out ops) : t.output = u.output := by
  cases h with
  | send ops port v h => exact absurd h (hi ops)
  | _ => rfl

end

/-- An instruction whose operands' modes are all that happens before an end without a store. -/
def StoreFree (i : Instr) (s t : State) : Prop := ∃ u, ModeWrites i.operands s u ∧ StoreFreeEnd i u t

theorem storeFree_dmp {src : Operand} {s t : State} (h : execDmp src s = .next t) : StoreFree (.dmp src) s t := by
  simp only [execDmp, finish_eq_next, bind_eq_ok, Prod.exists, Except.ok.injEq] at h
  obtain ⟨-, -, l, u, hr, v, -, rfl⟩ := h
  exact ⟨u, modeWrites_of_resolveAll ⟨_, resolveAll_of_resolve hr⟩, .dump src v rfl⟩

theorem storeFree_out {ops : OneOrTwo} {s t : State} (h : execOut ops s = .next t) : StoreFree (.out ops) s t := by
  cases ops with
  | one src =>
    simp only [execOut, finish_eq_next, bind_eq_ok, Prod.exists, Except.ok.injEq] at h
    obtain ⟨-, -, l, u, hr, v, -, rfl⟩ := h
    exact ⟨u, modeWrites_of_resolveAll ⟨_, resolveAll_of_resolve hr⟩, .send _ 0 v rfl⟩
  | two src dst =>
    simp only [execOut, finish_eq_next, bind_eq_ok, Prod.exists, Except.ok.injEq] at h
    obtain ⟨-, -, l1, l2, u, hr, v, -, port, -, rfl⟩ := h
    exact ⟨u, modeWrites_of_resolveAll ⟨_, resolveAll_of_resolve2 hr⟩, .send _ port v rfl⟩

theorem storeFree_jmp {target : Operand} {s t : State} (h : execJmp target s = .next t) :
    StoreFree (.jmp target) s t := by
  simp only [execJmp, finish_eq_next, bind_eq_ok, Prod.exists, Except.ok.injEq] at h
  obtain ⟨a, u, hr, rfl⟩ := h
  exact ⟨u, modeWrites_of_resolveAll (resolveAll_of_resolveTarget hr), .jump a rfl⟩

theorem storeFree_ret {s t : State} (h : execRet s = .next t) : StoreFree .ret s t := by
  simp only [execRet, finish_eq_next, bind_eq_ok, Except.ok.injEq] at h
  obtain ⟨r, -, sp, -, b, -, rfl⟩ := h
  exact ⟨s, .refl [] s, .load _ r sp b rfl⟩

theorem storeFree_compare {cond : Word → Word → Bool} {i : Instr} {ops : TwoOrThree} {s t : State}
    (hops : i.operands = ops.toList) (hi : mayJump i = true) (h : execCompare cond ops s = .next t) :
    StoreFree i s t := by
  simp only [execCompare, finish_eq_next, bind_eq_ok, Prod.exists, Except.ok.injEq] at h
  obtain ⟨l, u, hr, a, -, b, -, target, -, rfl⟩ := h
  exact ⟨u, hops ▸ modeWrites_of_resolveAll (resolveAll_of_resolveBranch hr), .branchIf hi _ target⟩

theorem storeFree_flagBranch {flag : Bool} {i : Instr} {target : Operand} {s t : State}
    (hops : i.operands = [target]) (hi : mayJump i = true) (h : execFlagBranch flag target s = .next t) :
    StoreFree i s t := by
  simp only [execFlagBranch, finish_eq_next, bind_eq_ok, Prod.exists, Except.ok.injEq] at h
  obtain ⟨a, u, hr, rfl⟩ := h
  exact ⟨u, hops ▸ modeWrites_of_resolveAll (resolveAll_of_resolveTarget hr), .branchIf hi flag a⟩

theorem storeFree_exec {i : Instr} {s t : State} (hi : storesNothing i = true) (h : exec i s = .next t) :
    StoreFree i s t := by
  cases i with
  | hlt => cases h; exact ⟨s, .refl [] s, .halt rfl⟩
  | nop => cases h; exact ⟨s, .refl [] s, .nothing⟩
  | unspecified opc => cases h; exact ⟨s, .refl [] s, .nothing⟩
  | dmp src => exact storeFree_dmp h
  | out ops => exact storeFree_out h
  | jmp target => exact storeFree_jmp h
  | ret => exact storeFree_ret h
  | beq ops => exact storeFree_compare rfl rfl h
  | bne ops => exact storeFree_compare rfl rfl h
  | bgt ops => exact storeFree_compare rfl rfl h
  | bge ops => exact storeFree_compare rfl rfl h
  | bao target => exact storeFree_flagBranch rfl rfl h
  | bac target => exact storeFree_flagBranch rfl rfl h
  | _ => cases hi

end Sys2Proof.Machine

open Sys2Proof Sys2Proof.Machine

/-- Settles O53: the operands' modes write registers alone, and the end of an instruction that stores nothing writes no
more than its one record or its own registers. -/
theorem storeNothingFrame : Obligations.StoreNothingFrame := by
  intro i s t hi h
  obtain ⟨u, hu, hend⟩ := storeFree_exec hi h
  have ht : t = { s with regs := t.regs, halted := t.halted, trace := t.trace, output := t.output } := by
    rw [hend.eq, hu.eq]
  refine ⟨by rw [ht], fun x => by rw [ht]; rfl, by rw [ht], by rw [ht], by rw [ht], by rw [ht],
    fun q hq hjump hret => (hend.reg hjump hret).trans (hu.reg q hq), fun hne => ?_, fun hne => ?_, fun hne => ?_⟩
  · rw [hend.halted hne, hu.eq]
  · rw [hend.trace hne, hu.eq]
  · rw [hend.output hne, hu.eq]

end

section
/-! SUPPORT. What the instructions that store through their operands do, in order: their operands' modes, their stores,
for BIE and BDE a jump, and the flags once. -/

namespace Sys2Proof.Machine

/-! ## Changes of registers and memory -/

/-- Two states differ in registers and memory alone. -/
def DataChange (s t : State) : Prop := t = { s with regs := t.regs, mem := t.mem }

theorem DataChange.refl (s : State) : DataChange s s := rfl

theorem DataChange.trans {s t u : State} (h : DataChange s t) (k : DataChange t u) : DataChange s u := by
  unfold DataChange at h k ⊢
  rw [k, h]

section
variable {s t : State} (h : DataChange s t)
include h

theorem DataChange.flags : t.flags = s.flags := by
  unfold DataChange at h
  rw [h]

theorem DataChange.draws : t.draws = s.draws := by
  unfold DataChange at h
  rw [h]

theorem DataChange.params : t.params = s.params := by
  unfold DataChange at h
  rw [h]

end

theorem ModeWrites.dataChange {ops : List Operand} {s t : State} (h : ModeWrites ops s t) : DataChange s t := by
  unfold DataChange
  rw [h.eq]

theorem dataChange_jump (s : State) (target : Word) : DataChange s (s.jump target) := rfl

/-! ## Stores to locations (R88) -/

/-- Two states differ in registers and memory alone, and only where a store to one of some locations writes. -/
structure StoresTo (ls : List Location) (s t : State) : Prop where
  data : DataChange s t
  reg : ∀ q, (∀ l ∈ ls, ¬ coversReg l q) → t.reg q = s.reg q
  byte : ∀ x, (∀ l ∈ ls, ¬ coversByte l x) → t.byteAt x = s.byteAt x

theorem StoresTo.refl (s : State) : StoresTo [] s s := ⟨rfl, fun _ _ => rfl, fun _ _ => rfl⟩

theorem StoresTo.append {ls ms : List Location} {s t u : State} (h : StoresTo ls s t) (k : StoresTo ms t u) :
    StoresTo (ls ++ ms) s u := by
  refine ⟨h.data.trans k.data, fun q hq => ?_, fun x hx => ?_⟩
  · rw [List.forall_mem_append] at hq
    exact (k.reg q hq.2).trans (h.reg q hq.1)
  · rw [List.forall_mem_append] at hx
    exact (k.byte x hx.2).trans (h.byte x hx.1)

theorem storesTo_store {l : Location} {v : Word} {s t : State} (h : store l v s = .ok t) : StoresTo [l] s t := by
  obtain ⟨r, n, hl, rfl⟩ | ⟨a, n, hl, -, rfl⟩ := store_cases h
  · refine ⟨rfl, fun q hq => s.reg_setReg_ne _ fun hqr => ?_, fun x _ => rfl⟩
    exact hq l (by simp) (by simp [coversReg, hl, hqr])
  · refine ⟨rfl, fun q _ => rfl, fun x hx => Memory.read_writeBytes_outside _ _ _ _ _ fun k hk hxk => ?_⟩
    exact hx l (by simp) (by simp only [coversByte, hl]; exact ⟨k, hk, hxk⟩)

theorem storesTo_storeAll {v : Word} {ls : List Location} {s t : State} (h : storeAll v ls s = .ok t) :
    StoresTo ls s t := by
  induction ls generalizing s with
  | nil => cases h; exact .refl _
  | cons l rest ih =>
    obtain ⟨u, hu, ht⟩ := bind_eq_ok.1 h
    exact (storesTo_store hu).append (ih ht)

/-! ## The instructions that store and write no flag -/

/-- The operands' modes, then the stores. -/
def ModesThenStores (ops : List Operand) (ls : List Location) (s w : State) : Prop :=
  ∃ u, ModeWrites ops s u ∧ StoresTo ls u w

section
variable {ops : List Operand} {ls : List Location} {s w : State}

theorem ModesThenStores.data (h : ModesThenStores ops ls s w) : DataChange s w := by
  obtain ⟨u, hu, hw⟩ := h
  exact hu.dataChange.trans hw.data

theorem ModesThenStores.reg (h : ModesThenStores ops ls s w) {q : Reg} (hmodes : ∀ o ∈ ops, q ∉ modifiedRegs o)
    (hstores : ∀ l ∈ ls, ¬ coversReg l q) : w.reg q = s.reg q := by
  obtain ⟨u, hu, hw⟩ := h
  exact (hw.reg q hstores).trans (hu.reg q hmodes)

theorem ModesThenStores.byte (h : ModesThenStores ops ls s w) {x : Word} (hx : ∀ l ∈ ls, ¬ coversByte l x) :
    w.byteAt x = s.byteAt x := by
  obtain ⟨u, hu, hw⟩ := h
  rw [hw.byte x hx, hu.eq]
  rfl

end

theorem modesThenStores_clr {dst : Operand} {s t : State} (h : execClr dst s = .next t) :
    ModesThenStores [dst] (destinations (.clr dst) s) s t := by
  simp only [execClr, finish_eq_next, bind_eq_ok, Prod.exists] at h
  obtain ⟨-, -, l, u, hr, hs⟩ := h
  simp only [destinations, hr, placesOf]
  exact ⟨u, modeWrites_of_resolveAll ⟨_, resolveAll_of_resolve hr⟩, storesTo_store hs⟩

theorem modesThenStores_mov {dst src : Operand} {s t : State} (h : execMov dst src s = .next t) :
    ModesThenStores [dst, src] (destinations (.mov dst src) s) s t := by
  simp only [execMov, finish_eq_next, bind_eq_ok, Prod.exists] at h
  obtain ⟨-, -, l1, l2, u, hr, v, -, hs⟩ := h
  simp only [destinations, hr, placesOf]
  exact ⟨u, modeWrites_of_resolveAll ⟨_, resolveAll_of_resolve2 hr⟩, storesTo_store hs⟩

theorem modesThenStores_swp {dst src : Operand} {s t : State} (h : execSwp dst src s = .next t) :
    ModesThenStores [dst, src] (destinations (.swp dst src) s) s t := by
  simp only [execSwp, finish_eq_next, bind_eq_ok, Prod.exists] at h
  obtain ⟨-, -, l1, l2, u, hr, a, -, b, -, w, hs1, hs2⟩ := h
  simp only [destinations, hr, placesOf]
  exact ⟨u, modeWrites_of_resolveAll ⟨_, resolveAll_of_resolve2 hr⟩, (storesTo_store hs1).append (storesTo_store hs2)⟩

theorem modesThenStores_exec {i : Instr} {s t : State} (hi : storesNothing i = false) (hflags : writesFlags i = false)
    (hjal : ∀ a, i ≠ .jal a) (hcpy : ∀ ops, i ≠ .cpy ops) (h : exec i s = .next t) :
    ModesThenStores i.operands (destinations i s) s t := by
  cases i with
  | clr dst => exact modesThenStores_clr h
  | mov dst src => exact modesThenStores_mov h
  | swp dst src => exact modesThenStores_swp h
  | jal a => exact absurd rfl (hjal a)
  | cpy ops => exact absurd rfl (hcpy ops)
  | _ => simp [storesNothing, writesFlags] at hi hflags

/-! ## The instructions that write the flags (R27) -/

/-- The operands' modes and the stores, then perhaps a jump, then the flags, once, from the given inputs. -/
def StoresThenFlags (ops : List Operand) (ls : List Location) (x : Option FlagInputs) (jumps : Bool) (s t : State) :
    Prop :=
  ∃ w v y, ModesThenStores ops ls s w ∧ (v = w ∨ jumps = true ∧ ∃ target, v = w.jump target) ∧ x = some y ∧
    t = writeFlags y.op y.a y.b y.size v

theorem storesThenFlags_bin {op : FlagOp} {f : Word → Word → Word} {ops : TwoOrThree} {s t : State}
    (h : execBin op f ops s = .next t) :
    StoresThenFlags ops.toList (placesOf (resolveBin ops s) fun x => [x.1.dst]) (flagInputs.bin s op ops) false s t := by
  simp only [execBin, finish_eq_next, bind_eq_ok, Prod.exists, Except.ok.injEq] at h
  obtain ⟨l, u, hr, a, ha, b, hb, w, hs, rfl⟩ := h
  simp only [flagInputs.bin, hr, placesOf, ha, hb, flagInputsOf]
  exact ⟨w, w, _, ⟨u, modeWrites_of_resolveAll (resolveAll_of_resolveBin hr), storesTo_store hs⟩, .inl rfl, rfl, rfl⟩

theorem storesThenFlags_mul {ops : TwoToFour} {s t : State} (h : execMul ops s = .next t) :
    StoresThenFlags ops.toList (destinations (.mul ops) s) (flagInputs (.mul ops) s) false s t := by
  simp only [execMul, finish_eq_next, bind_eq_ok, Prod.exists, Except.ok.injEq] at h
  obtain ⟨l, u, hr, a, ha, b, hb, v, hlow, w, hhigh, rfl⟩ := h
  simp only [destinations, flagInputs, hr, placesOf, ha, hb, flagInputsOf]
  exact ⟨w, w, _, ⟨u, modeWrites_of_resolveAll (resolveAll_of_resolveMul hr),
    (storesTo_store hlow).append (storesTo_storeAll hhigh)⟩, .inl rfl, rfl, rfl⟩

theorem storesThenFlags_div {ops : TwoToFour} {s t : State} (h : execDiv ops s = .next t) :
    StoresThenFlags ops.toList (destinations (.div ops) s) (flagInputs (.div ops) s) false s t := by
  simp only [execDiv, finish_eq_next, bind_eq_ok, Prod.exists] at h
  obtain ⟨l, u, hr, a, ha, b, hb, h⟩ := h
  split at h
  · cases h
  · simp only [bind_eq_ok, Except.ok.injEq] at h
    obtain ⟨v, hquot, w, hrem, rfl⟩ := h
    simp only [destinations, flagInputs, hr, placesOf, ha, hb, flagInputsOf]
    exact ⟨w, w, _, ⟨u, modeWrites_of_resolveAll (resolveAll_of_resolveDiv hr),
      (storesTo_storeAll hquot).append (storesTo_storeAll hrem)⟩, .inl rfl, rfl, rfl⟩

theorem storesThenFlags_mod {dst src1 src2 : Operand} {s t : State} (h : execMod dst src1 src2 s = .next t) :
    StoresThenFlags [dst, src1, src2] (destinations (.mod dst src1 src2) s) (flagInputs (.mod dst src1 src2) s) false
      s t := by
  simp only [execMod, finish_eq_next, bind_eq_ok, Prod.exists] at h
  obtain ⟨-, -, l1, l2, l3, u, hr, a, ha, b, hb, h⟩ := h
  split at h
  · cases h
  · simp only [bind_eq_ok, Except.ok.injEq] at h
    obtain ⟨w, hs, rfl⟩ := h
    simp only [destinations, flagInputs, hr, placesOf, ha, hb, flagInputsOf]
    exact ⟨w, w, _, ⟨u, modeWrites_of_resolveAll ⟨_, resolveAll_of_resolve3 hr⟩, storesTo_store hs⟩, .inl rfl, rfl, rfl⟩

theorem storesThenFlags_cmp {ops : OneOrTwo} {s t : State} (h : execCmp ops s = .next t) :
    StoresThenFlags ops.toList (destinations (.cmp ops) s) (flagInputs (.cmp ops) s) false s t := by
  simp only [execCmp, finish_eq_next, bind_eq_ok, Prod.exists, Except.ok.injEq] at h
  obtain ⟨d, l, u, hr, a, ha, w, hs, rfl⟩ := h
  simp only [destinations, flagInputs, hr, placesOf, ha, flagInputsOf]
  exact ⟨w, w, _, ⟨u, modeWrites_of_resolveAll (resolveAll_of_resolveCmp hr), storesTo_store hs⟩, .inl rfl, rfl, rfl⟩

theorem storesThenFlags_update {op : FlagOp} {f : Word → Word} {dst : Operand} {s t : State}
    (h : execUpdate op f dst s = .next t) :
    StoresThenFlags [dst] (placesOf (resolve dst s) fun x => [x.1]) (flagInputs.unary s op dst) false s t := by
  simp only [execUpdate, finish_eq_next, bind_eq_ok, Prod.exists, Except.ok.injEq] at h
  obtain ⟨-, -, l, u, hr, a, ha, w, hs, rfl⟩ := h
  simp only [flagInputs.unary, hr, placesOf, ha, flagInputsOf]
  exact ⟨w, w, _, ⟨u, modeWrites_of_resolveAll ⟨_, resolveAll_of_resolve hr⟩, storesTo_store hs⟩, .inl rfl, rfl, rfl⟩

theorem branchIf_cases (taken : Bool) (target : Word) (w : State) :
    branchIf taken target w = w ∨ branchIf taken target w = w.jump target := by
  cases taken
  · exact .inl rfl
  · exact .inr rfl

theorem storesThenFlags_loop {op : FlagOp} {f : Word → Word} {ops : TwoOrThree} {s t : State}
    (h : execLoop op f ops s = .next t) :
    StoresThenFlags ops.toList (placesOf (resolveBranch .regOrMem ops s) fun x => [x.1.src1])
      (flagInputs.loop s op ops) true s t := by
  simp only [execLoop, finish_eq_next, bind_eq_ok, Prod.exists, Except.ok.injEq] at h
  obtain ⟨l, u, hr, old, hold, w, hs, a, -, b, -, target, -, rfl⟩ := h
  simp only [flagInputs.loop, hr, placesOf, hold, flagInputsOf]
  exact ⟨w, _, _, ⟨u, modeWrites_of_resolveAll (resolveAll_of_resolveBranch hr), storesTo_store hs⟩,
    (branchIf_cases _ target w).imp_right fun h => ⟨rfl, target, h⟩, rfl, rfl⟩

theorem storesThenFlags_exec {i : Instr} {s t : State} (hi : writesFlags i = true) (h : exec i s = .next t) :
    StoresThenFlags i.operands (destinations i s) (flagInputs i s) (mayJump i) s t := by
  cases i with
  | add ops => exact storesThenFlags_bin h
  | sub ops => exact storesThenFlags_bin h
  | mul ops => exact storesThenFlags_mul h
  | div ops => exact storesThenFlags_div h
  | mod dst src1 src2 => exact storesThenFlags_mod h
  | and ops => exact storesThenFlags_bin h
  | or ops => exact storesThenFlags_bin h
  | xor ops => exact storesThenFlags_bin h
  | cmp ops => exact storesThenFlags_cmp h
  | inc dst => exact storesThenFlags_update h
  | dec dst => exact storesThenFlags_update h
  | bie ops => exact storesThenFlags_loop h
  | bde ops => exact storesThenFlags_loop h
  | _ => cases hi

end Sys2Proof.Machine

open Sys2Proof Sys2Proof.Machine

/-- Settles O54: the stores follow the operands' modes; of what follows them the jump writes PC and the flags write
neither register nor memory. -/
theorem destinationFrame : Obligations.DestinationFrame := by
  intro i s t hi hjal hcpy h
  have hdata : WritesDataAlone i :=
    ⟨fun e => (by subst e; cases hi), fun a e => (by subst e; cases hi), fun ops e => (by subst e; cases hi)⟩
  obtain ⟨hparams, hhalted, htrace, houtput, hfault⟩ := sameRecords_of_dataOps (dataOps_exec hdata h)
  refine ⟨fun q hmodes hstores hjump => ?_, fun x hx => ?_, hhalted, htrace, houtput, hfault, hparams⟩
  · cases hflags : writesFlags i with
    | false => exact (modesThenStores_exec hi hflags hjal hcpy h).reg hmodes hstores
    | true =>
      obtain ⟨w, v, y, hw, hv, -, rfl⟩ := storesThenFlags_exec hflags h
      rw [writeFlags_reg, ← hw.reg hmodes hstores]
      obtain rfl | ⟨hmay, target, rfl⟩ := hv
      · rfl
      · exact w.reg_jump_ne target fun hq => hjump ⟨hmay, hq⟩
  · cases hflags : writesFlags i with
    | false => exact (modesThenStores_exec hi hflags hjal hcpy h).byte hx
    | true =>
      obtain ⟨w, v, y, hw, hv, -, rfl⟩ := storesThenFlags_exec hflags h
      rw [writeFlags_byteAt, ← hw.byte hx]
      obtain rfl | ⟨-, target, rfl⟩ := hv <;> rfl

end

section
/-! SUPPORT. The flags of the instructions that do not write them, and what one write of the flags depends on. -/

namespace Sys2Proof.Machine

theorem dataChange_memWrite {a v : Word} {n : Nat} {s t : State} (h : memWrite a n v s = .ok t) : DataChange s t := by
  obtain ⟨-, rfl⟩ := memWrite_eq_ok.1 h
  rfl

theorem dataChange_copyLoop {p : CopyPlan} {fuel n : Nat} {s t : State} (h : copyLoop p fuel n s = .next t) :
    DataChange s t := by
  induction fuel generalizing n s with
  | zero =>
    unfold copyLoop at h
    split at h
    · cases h; exact .refl _
    · cases h
  | succ fuel ih =>
    unfold copyLoop at h
    split at h
    · cases h; exact .refl _
    · dsimp only at h
      split at h
      · cases h
      · next b u hb =>
        simp only [copyByte, bind_eq_ok, Except.ok.injEq, Prod.mk.injEq] at hb
        obtain ⟨v, -, u, hw, -, rfl⟩ := hb
        split at h
        · cases h; exact dataChange_memWrite hw
        · exact (dataChange_memWrite hw).trans (ih h)

theorem dataChange_cpy {ops : TwoToFour} {s t : State} (h : execCpy ops s = .next t) : DataChange s t := by
  unfold execCpy at h
  split at h
  · cases h
  · next p u hp =>
    exact (modeWrites_of_resolveAll (resolveAll_of_copyPlan hp)).dataChange.trans (dataChange_copyLoop h)

theorem dataChange_call {a : Word} {s t : State} (h : call a s = .ok t) : DataChange s t := by
  simp only [call, bind_eq_ok, Except.ok.injEq] at h
  obtain ⟨u, hB, v, hR, rfl⟩ := h
  obtain ⟨-, rfl⟩ := memWrite_eq_ok.1 hB
  obtain ⟨-, rfl⟩ := memWrite_eq_ok.1 hR
  rfl

theorem dataChange_jal {target : Operand} {s t : State} (h : execJal target s = .next t) : DataChange s t := by
  simp only [execJal, finish_eq_next, bind_eq_ok, Prod.exists] at h
  obtain ⟨a, u, hr, hc⟩ := h
  exact (modeWrites_of_resolveAll (resolveAll_of_resolveTarget hr)).dataChange.trans (dataChange_call hc)

/-- An instruction that stores and writes no flag changes registers and memory alone. -/
theorem dataChange_exec {i : Instr} {s t : State} (hi : storesNothing i = false) (hflags : writesFlags i = false)
    (h : exec i s = .next t) : DataChange s t := by
  cases i with
  | clr dst => exact (modesThenStores_clr h).data
  | mov dst src => exact (modesThenStores_mov h).data
  | swp dst src => exact (modesThenStores_swp h).data
  | cpy ops => exact dataChange_cpy h
  | jal target => exact dataChange_jal h
  | _ => simp [storesNothing, writesFlags] at hi hflags

/-- What a write of the flags leaves in them depends on the flag rule and the counter of draws alone. -/
theorem writeFlags_congr (op : FlagOp) (a b : Word) (n : Size) {s v : State} (hp : v.params = s.params)
    (hd : v.draws = s.draws) :
    (writeFlags op a b n v).flags = (writeFlags op a b n s).flags ∧
      (writeFlags op a b n v).draws = (writeFlags op a b n s).draws := by
  unfold writeFlags
  rw [hp]
  cases s.params.flagRule <;> simp [hd]

end Sys2Proof.Machine

open Sys2Proof Sys2Proof.Machine

/-- Settles O38: an instruction that writes no flag ends without one or changes registers and memory alone; one that
does writes them last, in a state whose flag rule and draws are still those it began with. -/
theorem flagsAreWrittenByTheListedInstructions : Obligations.FlagsAreWrittenByTheListedInstructions := by
  intro i s t h
  refine ⟨fun hflags => ?_, fun hflags => ?_⟩
  · cases hi : storesNothing i with
    | true =>
      obtain ⟨-, -, hflags, -, -, hdraws, -⟩ := storeNothingFrame i s t hi h
      exact ⟨hflags, hdraws⟩
    | false =>
      have hdata := dataChange_exec hi hflags h
      exact ⟨hdata.flags, hdata.draws⟩
  · obtain ⟨w, v, y, hw, hv, hy, rfl⟩ := storesThenFlags_exec hflags h
    have hdata : DataChange s v := by
      obtain rfl | ⟨-, target, rfl⟩ := hv
      · exact hw.data
      · exact hw.data.trans (dataChange_jump w target)
    exact ⟨y, hy, writeFlags_congr _ _ _ _ hdata.params hdata.draws⟩

end

section
/-! SUPPORT. `MemRead`, `MemWrite` and the fetch, byte by byte; and that no data operation reaches an address that is
not implemented. -/

namespace Sys2Proof.Machine

/-! ## Which accesses are answered (R41, R42, R47) -/

theorem add_ofNat_succ (a : Word) (k : Nat) : a + BitVec.ofNat 32 (k + 1) = a + 1 + BitVec.ofNat 32 k := by
  rw [BitVec.ofNat_add]
  ac_rfl

/-- `MEM_MAP` holds an access exactly when it holds each of its addresses. -/
theorem State.accessOk_iff {s : State} {a : Word} {n : Nat} :
    s.accessOk a n = true ↔ ∀ k < n, s.implemented (a + BitVec.ofNat 32 k) = true := by
  induction n generalizing a with
  | zero => simp [State.accessOk]
  | succ n ih =>
    rw [State.accessOk, Bool.and_eq_true, ih, Nat.forall_lt_succ_left, BitVec.add_zero]
    simp only [← add_ofNat_succ]

/-- One address that is not implemented is enough to refuse an access. -/
theorem State.accessOk_eq_false {s : State} {a : Word} {n k : Nat} (hk : k < n)
    (h : s.implemented (a + BitVec.ofNat 32 k) = false) : s.accessOk a n = false := by
  rw [Bool.eq_false_iff]
  intro hok
  rw [State.accessOk_iff.1 hok k hk] at h
  cases h

theorem memRead_of_accessOk {s : State} {a : Word} {n : Nat} (h : s.accessOk a n = true) :
    memRead a n s = .ok (s.bytesAt a n) :=
  memRead_eq_ok.2 ⟨h, rfl⟩

theorem memRead_of_not_accessOk {s : State} {a : Word} {n : Nat} (h : s.accessOk a n = false) :
    memRead a n s = .error .memoryAccess := by
  simp [memRead, h]

theorem memWrite_of_accessOk {s : State} {a : Word} {n : Nat} (v : Word) (h : s.accessOk a n = true) :
    memWrite a n v s = .ok { s with mem := s.mem.writeBytes a n v } :=
  memWrite_eq_ok.2 ⟨h, rfl⟩

theorem memWrite_of_not_accessOk {s : State} {a : Word} {n : Nat} (v : Word) (h : s.accessOk a n = false) :
    memWrite a n v s = .error .memoryAccess := by
  simp [memWrite, h]

/-! ## The bytes of a value (R41, R42) -/

/-- A byte below a value, the value moved up by eight bits, is the two side by side. -/
theorem byte_or_shiftLeft {w : Nat} (b : Byte) (v : BitVec w) :
    b.setWidth 32 ||| (v.setWidth 32 <<< 8) = (v ++ b).setWidth 32 := by
  ext i hi
  by_cases h : i < 8
  · simp [BitVec.getLsbD_append, h]
  · simp [BitVec.getLsbD_append, h, BitVec.getLsbD_of_ge b i (by omega)]

theorem State.bytesAt_one (s : State) (a : Word) : s.bytesAt a 1 = (s.byteAt a).setWidth 32 := by
  simp [State.bytesAt]

theorem State.bytesAt_two (s : State) (a : Word) :
    s.bytesAt a 2 = (s.byteAt (a + 1) ++ s.byteAt a).setWidth 32 := by
  rw [State.bytesAt, State.bytesAt_one, byte_or_shiftLeft]

theorem State.bytesAt_three (s : State) (a : Word) :
    s.bytesAt a 3 = (s.byteAt (a + 2) ++ s.byteAt (a + 1) ++ s.byteAt a).setWidth 32 := by
  rw [State.bytesAt, State.bytesAt_two, byte_or_shiftLeft, BitVec.add_assoc]
  rfl

theorem State.bytesAt_four (s : State) (a : Word) :
    s.bytesAt a 4 = s.byteAt (a + 3) ++ s.byteAt (a + 2) ++ s.byteAt (a + 1) ++ s.byteAt a := by
  rw [State.bytesAt, State.bytesAt_three, byte_or_shiftLeft, BitVec.setWidth_eq, BitVec.add_assoc,
    BitVec.add_assoc]
  rfl

/-- A byte written among others reads back as its part of the value, unless more are written than there are addresses. -/
theorem Memory.read_writeBytes_inside (m : Memory) (a : Word) {n k : Nat} (v : Word) (hn : n ≤ 2 ^ 32) (hk : k < n) :
    (m.writeBytes a n v).read (a + BitVec.ofNat 32 k).toNat = v.extractLsb' (8 * k) 8 := by
  induction n generalizing m a v k with
  | zero => omega
  | succ n ih =>
    rw [Memory.writeBytes]
    cases k with
    | zero =>
      have hne : ∀ j < n, a ≠ a + 1 + BitVec.ofNat 32 j := fun j hj e => by
        rw [← add_ofNat_succ] at e
        have hj' := congrArg BitVec.toNat e
        simp only [BitVec.toNat_add, BitVec.toNat_ofNat] at hj'
        omega
      rw [BitVec.add_zero, Memory.read_writeBytes_outside _ _ _ _ _ hne, Memory.read_write_same]
      exact BitVec.setWidth_eq_extractLsb' (by decide)
    | succ k =>
      rw [add_ofNat_succ, ih _ _ _ (by omega) (by omega)]
      ext i hi
      simp [Nat.mul_add, Nat.add_left_comm, Nat.add_comm]

/-- An address is implemented when it is one of the 2^ALEN and a region holds it (R47, D17). -/
theorem State.implemented_iff {s : State} {x : Word} :
    s.implemented x = true ↔
      x.toNat < 2 ^ s.params.alen ∧ ∃ r ∈ s.params.memMap, r.base ≤ x.toNat ∧ x.toNat < r.base + r.size := by
  simp [State.implemented, regionHolds]

/-- Implementation is a matter of the parameters alone. -/
theorem State.implemented_congr {s t : State} (h : t.params = s.params) : t.implemented = s.implemented := by
  funext x
  simp [State.implemented, h]

/-- Data operations change no byte at an address that is not implemented. -/
theorem byteAt_of_dataOps {s t : State} {x : Word} (hx : s.implemented x = false) (h : DataOps s t) :
    t.byteAt x = s.byteAt x := by
  induction h with
  | refl => rfl
  | @tail u v hops hop ih =>
    rw [← ih]
    cases hop with
    | regs g => rfl
    | flags op a b n => exact writeFlags_byteAt ..
    | memory w hok =>
      refine Memory.read_writeBytes_outside _ _ _ _ _ fun k hk e => ?_
      have himp := State.accessOk_iff.1 hok k hk
      rw [← e, State.implemented_congr (sameRecords_of_dataOps hops).params, hx] at himp
      cases himp

end Sys2Proof.Machine

open Sys2Proof Sys2Proof.Machine

/-- Settles O14: each width adds one byte above the ones before, and one address outside the map refuses the access. -/
theorem memReadIsLittleEndian : Obligations.MemReadIsLittleEndian := by
  intro s a
  refine ⟨fun h0 => ?_, fun h0 h1 => ?_, fun h0 h1 h2 => ?_, fun h0 h1 h2 h3 => ?_,
    fun n k _ hk h => memRead_of_not_accessOk (State.accessOk_eq_false hk h)⟩
  · rw [memRead_of_accessOk (by simp_all [State.accessOk]), State.bytesAt_one]
  · rw [memRead_of_accessOk (by simp_all [State.accessOk]), State.bytesAt_two]
  · rw [memRead_of_accessOk (by simp_all [State.accessOk, BitVec.add_assoc]), State.bytesAt_three]
  · rw [memRead_of_accessOk (by simp_all [State.accessOk, BitVec.add_assoc]), State.bytesAt_four]

/-- Settles O15: a written byte reads back as its part of the value, and no other byte is written. -/
theorem memWriteIsLittleEndian : Obligations.MemWriteIsLittleEndian := by
  intro s a v n _ hn
  refine ⟨fun h => ?_, fun k hk h => memWrite_of_not_accessOk v (State.accessOk_eq_false hk h)⟩
  refine ⟨_, memWrite_of_accessOk v (State.accessOk_iff.2 h), fun k hk => ?_, fun x hx => ?_, rfl⟩
  · exact Memory.read_writeBytes_inside _ _ _ (by omega) hk
  · exact Memory.read_writeBytes_outside _ _ _ _ _ hx

/-- Settles O16: the write was answered, so its addresses are implemented; and the fetch reads memory. -/
theorem storedByteIsFetched : Obligations.StoredByteIsFetched := by
  intro s t a v n k j hn h hk hj
  obtain ⟨hok, rfl⟩ := memWrite_eq_ok.1 h
  have himp := State.accessOk_iff.1 hok k hk
  have hread := Memory.read_writeBytes_inside s.mem a v (by omega) hk
  dsimp only [fetchSource]
  rw [hj]
  exact (if_pos himp).trans (congrArg some hread)

/-- Settles O17: a completing instruction is data operations and one record, which is not in memory. -/
theorem unimplementedMemoryNeverChanges : Obligations.UnimplementedMemoryNeverChanges := by
  refine ⟨fun s x => State.implemented_iff, fun s t x h hx => ?_⟩
  obtain ⟨-, -, i, len, -, hexec⟩ := step_eq_next.1 h
  obtain ⟨u, hops, hrec⟩ := exec_cases hexec
  have hu : u.byteAt x = s.byteAt x := byteAt_of_dataOps hx ((dataOps_setReg s .pc _).trans hops)
  obtain ⟨-, rfl⟩ | ⟨a, v, -, rfl⟩ | ⟨ops, port, v, -, rfl⟩ | ⟨-, rfl⟩ := hrec
  · exact hu
  · exact hu
  · exact hu
  · exact hu

end

section
/-! SUPPORT. The stages of an execution, once for every instruction: the class check, the operands in order, and what
follows them, which faults at an address that is not implemented and at a zero divisor alone. -/

namespace Sys2Proof.Machine

variable {α β : Type}

/-! ## Chains that only the memory map can stop (R41, R42) -/

/-- A chain over the parameters of `s` answers as `Q` says, or has met an address that is not implemented. -/
def MapOnly (s : State) (Q : α → Prop) (x : Except Fault α) : Prop :=
  (∃ a, x = .ok a ∧ Q a) ∨ (x = .error .memoryAccess ∧ ¬ s.wholeMap)

theorem MapOnly.ok {s : State} {Q : α → Prop} {a : α} (h : Q a) : MapOnly s Q (.ok a) := .inl ⟨a, rfl, h⟩

theorem MapOnly.bind {s : State} {Q : α → Prop} {R : β → Prop} {x : Except Fault α} {f : α → Except Fault β}
    (h : MapOnly s Q x) (hf : ∀ a, Q a → MapOnly s R (f a)) : MapOnly s R (x >>= f) := by
  obtain ⟨a, rfl, ha⟩ | ⟨rfl, hs⟩ := h
  · exact hf a ha
  · exact .inr ⟨rfl, hs⟩

theorem MapOnly.imp {s : State} {Q R : α → Prop} {x : Except Fault α} (h : MapOnly s Q x) (hQR : ∀ a, Q a → R a) :
    MapOnly s R x :=
  h.imp_left fun ⟨a, hx, ha⟩ => ⟨a, hx, hQR a ha⟩

/-- An access that is refused meets an address that is not implemented. -/
theorem State.not_wholeMap_of_accessOk {s : State} {a : Word} {n : Nat} (h : s.accessOk a n = false) : ¬ s.wholeMap :=
  fun hs => by rw [State.accessOk_of_wholeMap hs] at h; cases h

/-- A location that is in memory lies in implemented memory. -/
def State.holds (s : State) (l : Location) : Prop := ∀ a n, l.place = .mem a n → s.accessOk a n.bytes = true

section
variable {s u : State} (hu : u.params = s.params)
include hu

theorem mapOnly_memRead (a : Word) (n : Nat) : MapOnly s (fun _ => s.accessOk a n = true) (memRead a n u) := by
  cases h : s.accessOk a n with
  | true => exact .inl ⟨_, memRead_of_accessOk ((State.accessOk_congr hu a n).trans h), rfl⟩
  | false =>
    exact .inr ⟨memRead_of_not_accessOk ((State.accessOk_congr hu a n).trans h), State.not_wholeMap_of_accessOk h⟩

theorem mapOnly_memWrite (a : Word) (n : Nat) (v : Word) :
    MapOnly s (fun t => t.params = s.params ∧ s.accessOk a n = true) (memWrite a n v u) := by
  cases h : s.accessOk a n with
  | true => exact .inl ⟨_, memWrite_of_accessOk v ((State.accessOk_congr hu a n).trans h), hu, rfl⟩
  | false =>
    exact .inr ⟨memWrite_of_not_accessOk v ((State.accessOk_congr hu a n).trans h), State.not_wholeMap_of_accessOk h⟩

theorem mapOnly_val (l : Location) : MapOnly s (fun _ => s.holds l) (val l u) := by
  obtain ⟨sx, p⟩ := l
  cases p with
  | imm w v => exact .ok nofun
  | reg r n => exact .ok nofun
  | mem a n =>
    refine (mapOnly_memRead hu a n.bytes).bind fun raw hok => .ok fun a' n' h => ?_
    cases h
    exact hok

end

/-! ## Classes of locations (R86, R89) -/

/-- The class of a place, whatever descriptor it comes from. -/
def placeClass : Place → OperandClass
  | .imm _ _ => .imm
  | .reg _ _ => .reg
  | .mem _ _ => .mem

theorem placeClass_of_resolveBody {b : Body} {s t : State} {p : Place} (h : resolveBody b s = .ok (p, t)) :
    placeClass p = bodyClass b := by
  cases b with
  | memInd a =>
    obtain ⟨w, -, hw⟩ := bind_eq_ok.1 h
    cases hw
    rfl
  | _ => cases h; rfl

theorem placeClass_of_resolveScale {r : Reg} {n : Size} {b : Body} {s t : State} {p : Place}
    (h : resolveScale r n b s = .ok (p, t)) : placeClass p = Config.scaleClass r n b := by
  dsimp only [resolveScale] at h
  split at h
  · cases h
    cases Config.scaleClass r n b <;> rfl
  · cases h

/-- An operand resolves to a location of its own class. -/
theorem operandClass_of_resolve {o : Operand} {s t : State} {l : Location} (h : resolve o s = .ok (l, t)) :
    operandClass s.params o = some (placeClass l.place) := by
  obtain ⟨sx, d⟩ := o
  obtain ⟨⟨p, u⟩, hd, hu⟩ := bind_eq_ok.1 h
  cases hu
  cases d with
  | plain b => exact congrArg some (placeClass_of_resolveBody hd).symm
  | scale r n b =>
    simp only [resolveDesc] at hd
    split at hd
    · cases hd
    · next hg => simp [operandClass, hg, placeClass_of_resolveScale hd]

/-- A location that an operand resolves to has its class, which meets what the form asks of it. -/
structure Meets (p : Params) (o : Operand) (q : Requirement) (l : Location) : Prop where
  cls : operandClass p o = some (placeClass l.place)
  meets : meets (placeClass l.place) q = true

theorem Meets.storable {p : Params} {o : Operand} {l : Location} (h : Meets p o .regOrMem l) :
    placeClass l.place ≠ .imm := fun e => by
  have hm := h.meets
  rw [e] at hm
  cases hm

/-- An operand that must be Mem has an effective address. -/
theorem Meets.address {p : Params} {o : Operand} {l : Location} (h : Meets p o .mem l) (s : State) :
    MapOnly s (fun _ => True) (effectiveAddress l) := by
  obtain ⟨sx, place⟩ := l
  cases place with
  | imm w v => cases h.meets
  | reg r n => cases h.meets
  | mem a n => exact .ok trivial

section
variable {s u : State} (hu : u.params = s.params)
include hu

/-- A store to a register or to memory is stopped by the map alone. -/
theorem mapOnly_store {l : Location} (hl : placeClass l.place ≠ .imm) (v : Word) :
    MapOnly s (fun t => t.params = s.params ∧ s.holds l) (store l v u) := by
  obtain ⟨sx, p⟩ := l
  cases p with
  | imm w x => exact absurd rfl hl
  | reg r n => exact .ok ⟨hu, nofun⟩
  | mem a n =>
    refine (mapOnly_memWrite hu a n.bytes v).imp fun t ⟨ht, hok⟩ => ⟨ht, fun a' n' h => ?_⟩
    cases h
    exact hok

theorem mapOnly_storeAll {ls : List Location} (hls : ∀ l ∈ ls, placeClass l.place ≠ .imm) (v : Word) :
    MapOnly s (fun t => t.params = s.params ∧ ∀ l ∈ ls, s.holds l) (storeAll v ls u) := by
  induction ls generalizing u with
  | nil => exact .ok ⟨hu, nofun⟩
  | cons l rest ih =>
    rw [List.forall_mem_cons] at hls
    exact (mapOnly_store hu hls.1 v).bind fun w ⟨hw, hl⟩ =>
      (ih hw hls.2).imp fun t ⟨ht, hrest⟩ => ⟨ht, List.forall_mem_cons.2 ⟨hl, hrest⟩⟩

end

/-! ## The class check and the operands, in order (R86, R89, R94) -/

theorem params_of_resolve {o : Operand} {s t : State} {l : Location} (h : resolve o s = .ok (l, t)) :
    t.params = s.params := by
  obtain ⟨-, ht, -⟩ := resolve_cases h
  rw [ht]

theorem meets_of_resolve {p : Params} {o : Operand} {q : Requirement} {s t : State} {l : Location}
    (hs : s.params = p) (hq : checkOperand p o q = .ok ()) (h : resolve o s = .ok (l, t)) : Meets p o q l := by
  obtain ⟨c, hc, hm⟩ := checkOperand_eq_ok.1 hq
  have hcls := operandClass_of_resolve h
  rw [hs] at hcls
  obtain rfl := Option.some.inj (hc.symm.trans hcls)
  exact ⟨hcls, hm⟩

/-- Operands that pass their check resolve to locations that meet it, and leave the parameters alone. -/
theorem meets_of_resolveAll {p : Params} {reqs : List (Operand × Requirement)} {s t : State} {ls : List Location}
    (hs : s.params = p) (hq : checkOperands p reqs = .ok ()) (h : resolveAll (reqs.map Prod.fst) s = .ok (ls, t)) :
    t.params = p ∧ List.Forall₂ (fun x l => Meets p x.1 x.2 l) reqs ls := by
  induction reqs generalizing s ls with
  | nil =>
    cases h
    exact ⟨hs, .nil⟩
  | cons x rest ih =>
    simp only [List.map_cons, resolveAll, bind_eq_ok, Prod.exists, Except.ok.injEq, Prod.mk.injEq] at h
    obtain ⟨l, u, ho, ls', v, hrest, rfl, rfl⟩ := h
    obtain ⟨hx, hq⟩ := List.forall_mem_cons.1 (checkOperands_eq_ok.1 hq)
    obtain ⟨ht, hls⟩ := ih ((params_of_resolve ho).trans hs) (checkOperands_eq_ok.2 hq) hrest
    exact ⟨ht, .cons (meets_of_resolve hs hx ho) hls⟩

/-- A chain that begins with the class check `c` and the operands `ops`: it fails as these do, and where both answer,
`K` holds of the locations, the state after them, and the chain. -/
def AfterOperands (c : Except Fault Unit) (ops : List Operand) (s : State)
    (K : List Location → State → Except Fault α → Prop) (x : Except Fault α) : Prop :=
  match c >>= fun _ => resolveAll ops s with
  | .error r => x = .error r
  | .ok (ls, u) => K ls u x

theorem AfterOperands.bind {c : Except Fault Unit} {ops : List Operand} {s : State}
    {K : List Location → State → Except Fault α → Prop} {K' : List Location → State → Except Fault β → Prop}
    {x : Except Fault α} {f : α → Except Fault β} (h : AfterOperands c ops s K x)
    (hf : ∀ ls u, K ls u x → K' ls u (x >>= f)) : AfterOperands c ops s K' (x >>= f) := by
  unfold AfterOperands at h ⊢
  split
  · next r hr => simp only [hr] at h; simp [h]
  · next ls u hr => simp only [hr] at h; exact hf ls u h

/-- A class check, then a resolution that gives the locations of the checked operands, then a chain from these. -/
theorem afterOperands_of {reqs : List (Operand × Requirement)} {s : State} {y : Except Fault β}
    {locs : β → List Location × State} {K : List Location → State → Except Fault α → Prop} {k : β → Except Fault α}
    (hy : resolveAll (reqs.map Prod.fst) s = y >>= fun b => .ok (locs b))
    (h : ∀ b, y = .ok b → (locs b).2.params = s.params →
      List.Forall₂ (fun x l => Meets s.params x.1 x.2 l) reqs (locs b).1 → K (locs b).1 (locs b).2 (k b)) :
    AfterOperands (checkOperands s.params reqs) (reqs.map Prod.fst) s K
      (checkOperands s.params reqs >>= fun _ => y >>= k) := by
  unfold AfterOperands
  cases hq : checkOperands s.params reqs with
  | error r => rfl
  | ok _ =>
    cases y with
    | error r => rw [ok_bind, hy]; rfl
    | ok b =>
      obtain ⟨hp, hls⟩ := meets_of_resolveAll rfl hq hy
      rw [ok_bind, hy]
      exact h b rfl hp hls

theorem resolveAll_one_eq (a : Operand) (s : State) :
    resolveAll [a] s = resolve a s >>= fun x => .ok ([x.1], x.2) := by
  simp [resolveAll]

theorem resolveAll_two_eq (a b : Operand) (s : State) :
    resolveAll [a, b] s = resolve2 a b s >>= fun x => .ok ([x.1, x.2.1], x.2.2) := by
  simp [resolveAll, resolve2]

theorem resolveAll_three_eq (a b c : Operand) (s : State) :
    resolveAll [a, b, c] s = resolve3 a b c s >>= fun x => .ok ([x.1, x.2.1, x.2.2.1], x.2.2.2) := by
  simp [resolveAll, resolve3]

theorem resolveAll_four_eq (a b c d : Operand) (s : State) :
    resolveAll [a, b, c, d] s =
      resolve4 a b c d s >>= fun x => .ok ([x.1, x.2.1, x.2.2.1, x.2.2.2.1], x.2.2.2.2) := by
  simp [resolveAll, resolve4]

section
variable {a b c d : Operand} {qa qb qc qd : Requirement} {s : State}
  {K : List Location → State → Except Fault α → Prop}

theorem afterOperands_one {k : Location × State → Except Fault α}
    (h : ∀ la u, resolve a s = .ok (la, u) → u.params = s.params → Meets s.params a qa la → K [la] u (k (la, u))) :
    AfterOperands (checkOperands s.params [(a, qa)]) [a] s K
      (checkOperands s.params [(a, qa)] >>= fun _ => resolve a s >>= k) := by
  refine afterOperands_of (reqs := [(a, qa)]) (resolveAll_one_eq a s) fun (la, u) hr hp hls => ?_
  obtain ⟨ha, -⟩ := List.forall₂_cons.1 hls
  exact h la u hr hp ha

theorem afterOperands_two {k : Location × Location × State → Except Fault α}
    (h : ∀ la lb u, resolve2 a b s = .ok (la, lb, u) → u.params = s.params → Meets s.params a qa la →
      Meets s.params b qb lb → K [la, lb] u (k (la, lb, u))) :
    AfterOperands (checkOperands s.params [(a, qa), (b, qb)]) [a, b] s K
      (checkOperands s.params [(a, qa), (b, qb)] >>= fun _ => resolve2 a b s >>= k) := by
  refine afterOperands_of (reqs := [(a, qa), (b, qb)]) (resolveAll_two_eq a b s) fun (la, lb, u) hr hp hls => ?_
  simp only [List.forall₂_cons] at hls
  obtain ⟨ha, hb, -⟩ := hls
  exact h la lb u hr hp ha hb

theorem afterOperands_three {k : Location × Location × Location × State → Except Fault α}
    (h : ∀ la lb lc u, resolve3 a b c s = .ok (la, lb, lc, u) → u.params = s.params → Meets s.params a qa la →
      Meets s.params b qb lb → Meets s.params c qc lc → K [la, lb, lc] u (k (la, lb, lc, u))) :
    AfterOperands (checkOperands s.params [(a, qa), (b, qb), (c, qc)]) [a, b, c] s K
      (checkOperands s.params [(a, qa), (b, qb), (c, qc)] >>= fun _ => resolve3 a b c s >>= k) := by
  refine afterOperands_of (reqs := [(a, qa), (b, qb), (c, qc)]) (resolveAll_three_eq a b c s)
    fun (la, lb, lc, u) hr hp hls => ?_
  simp only [List.forall₂_cons] at hls
  obtain ⟨ha, hb, hc, -⟩ := hls
  exact h la lb lc u hr hp ha hb hc

theorem afterOperands_four {k : Location × Location × Location × Location × State → Except Fault α}
    (h : ∀ la lb lc ld u, resolve4 a b c d s = .ok (la, lb, lc, ld, u) → u.params = s.params →
      Meets s.params a qa la → Meets s.params b qb lb → Meets s.params c qc lc → Meets s.params d qd ld →
      K [la, lb, lc, ld] u (k (la, lb, lc, ld, u))) :
    AfterOperands (checkOperands s.params [(a, qa), (b, qb), (c, qc), (d, qd)]) [a, b, c, d] s K
      (checkOperands s.params [(a, qa), (b, qb), (c, qc), (d, qd)] >>= fun _ => resolve4 a b c d s >>= k) := by
  refine afterOperands_of (reqs := [(a, qa), (b, qb), (c, qc), (d, qd)]) (resolveAll_four_eq a b c d s)
    fun (la, lb, lc, ld, u) hr hp hls => ?_
  simp only [List.forall₂_cons] at hls
  obtain ⟨ha, hb, hc, hd, -⟩ := hls
  exact h la lb lc ld u hr hp ha hb hc hd

end

/-! ## The operand forms (R110, R113, R114, R119, R140, R143) -/

theorem afterOperands_resolveBin (ops : TwoOrThree) (s : State) :
    AfterOperands (checkOperands s.params (requirements.binRequirements ops)) ops.toList s
      (fun ls u x => ∃ l, x = .ok (l, u) ∧ u.params = s.params ∧ sources (.add ops) ls = [l.src1, l.src2] ∧
        placeClass l.dst.place ≠ .imm) (resolveBin ops s) := by
  cases ops with
  | two a b => exact afterOperands_two fun la lb u _ hu ha _ => ⟨_, rfl, hu, rfl, ha.storable⟩
  | three a b c => exact afterOperands_three fun la lb lc u _ hu ha _ _ => ⟨_, rfl, hu, rfl, ha.storable⟩

theorem afterOperands_resolveMul (ops : TwoToFour) (s : State) :
    AfterOperands (checkOperands s.params (requirements.mulRequirements ops)) ops.toList s
      (fun ls u x => ∃ l, x = .ok (l, u) ∧ u.params = s.params ∧ sources (.mul ops) ls = [l.src1, l.src2] ∧
        placeClass l.dst.place ≠ .imm ∧ ∀ y ∈ l.ovf.toList, placeClass y.place ≠ .imm) (resolveMul ops s) := by
  cases ops with
  | two a b => exact afterOperands_two fun la lb u _ hu ha _ => ⟨_, rfl, hu, rfl, ha.storable, nofun⟩
  | three a b c => exact afterOperands_three fun la lb lc u _ hu ha _ _ => ⟨_, rfl, hu, rfl, ha.storable, nofun⟩
  | four a b c d =>
    exact afterOperands_four fun la lb lc ld u _ hu ha hb _ _ =>
      ⟨_, rfl, hu, rfl, ha.storable, by simpa using hb.storable⟩

theorem afterOperands_resolveCmp (ops : OneOrTwo) (s : State) :
    AfterOperands (checkOperands s.params (requirements (.cmp ops))) ops.toList s
      (fun ls u x => ∃ d l, x = .ok (d, l, u) ∧ u.params = s.params ∧ sources (.cmp ops) ls = [l] ∧
        placeClass d.place ≠ .imm) (resolveCmp ops s) := by
  cases ops with
  | one a => exact afterOperands_one fun la u _ hu ha => ⟨la, la, rfl, hu, rfl, ha.storable⟩
  | two a b =>
    have hx : resolveCmp (.two a b) s =
        checkOperands s.params [(a, .regOrMem), (b, .any)] >>= fun _ => resolve2 a b s >>= .ok := by
      cases hr : resolve2 a b s <;> simp [resolveCmp, hr]
    rw [hx]
    exact afterOperands_two fun la lb u _ hu ha _ => ⟨la, lb, rfl, hu, rfl, ha.storable⟩

theorem afterOperands_resolveTarget (a : Operand) (s : State) :
    AfterOperands (checkOperands s.params [(a, .mem)]) [a] s
      (fun _ _ x => MapOnly s (fun y => y.2.params = s.params) x) (resolveTarget a s) :=
  afterOperands_one fun _ _ _ hu ha => (ha.address s).bind fun _ _ => .ok hu

theorem afterOperands_resolveBranch (q : Requirement) (ops : TwoOrThree) (s : State) :
    AfterOperands (checkOperands s.params (requirements.branchRequirements q ops)) ops.toList s
      (fun ls u x => ∃ l a t, x = .ok (l, u) ∧ u.params = s.params ∧ ls.dropLast = l.src1 :: l.src2.toList ∧
        Meets s.params a q l.src1 ∧ Meets s.params t .mem l.target) (resolveBranch q ops s) := by
  cases ops with
  | two a t => exact afterOperands_two fun la lt u _ hu ha ht => ⟨_, a, t, rfl, hu, rfl, ha, ht⟩
  | three a b t => exact afterOperands_three fun la lb lt u _ hu ha _ ht => ⟨_, a, t, rfl, hu, rfl, ha, ht⟩

/-- An operand is an immediate when its location is (R89). -/
theorem Meets.ne_imm_of_isImm {p : Params} {o : Operand} {q : Requirement} {l : Location} (h : Meets p o q l)
    (ho : isImm p o = false) : placeClass l.place ≠ .imm := fun e => by
  simp [isImm, h.cls, e] at ho

/-- No remainder goes to an immediate, under either rule (R114, C9). -/
theorem mem_div3Remainder {rule : Div3ModRule} {imm2 imm3 : Bool} {l2 l3 l : Location}
    (h : l ∈ div3Remainder rule imm2 imm3 l2 l3) : (imm2 = false ∧ l = l2) ∨ (imm3 = false ∧ l = l3) := by
  cases rule <;> cases imm2 <;> cases imm3 <;> simp_all [div3Remainder]

/-- The class check of every instruction but a 2-operand DIV is that of its operands one by one (R89). -/
theorem classCheck_eq {p : Params} {i : Instr} (hi : ∀ a b, i ≠ .div (.two a b)) :
    classCheck p i = checkOperands p (requirements i) := by
  unfold classCheck
  split
  · exact absurd rfl (hi _ _)
  · cases checkOperands p (requirements i) <;> rfl

/-- The class check of a 2-operand DIV refuses two immediates besides (R114). -/
theorem classCheck_div_two (p : Params) (a b : Operand) :
    classCheck p (.div (.two a b)) = if isImm p a && isImm p b
      then checkOperands p [(a, .any), (b, .any)] >>= fun _ => .error .operandClass
      else checkOperands p [(a, .any), (b, .any)] := by
  cases h : isImm p a && isImm p b <;> cases hq : checkOperands p [(a, .any), (b, .any)] <;>
    simp [classCheck, requirements, h, hq]

theorem resolveDiv_two (a b : Operand) (s : State) :
    resolveDiv (.two a b) s = if isImm s.params a && isImm s.params b
      then checkOperands s.params [(a, .any), (b, .any)] >>= fun _ => .error .operandClass
      else checkOperands s.params [(a, .any), (b, .any)] >>= fun _ => resolve2 a b s >>= fun x =>
        .ok (⟨if isImm s.params a then none else some x.1, if isImm s.params b then [] else [x.2.1], x.1, x.2.1⟩,
          x.2.2) := by
  cases h : isImm s.params a && isImm s.params b <;> simp [resolveDiv, h]

/-- Of the two operands of a DIV those that are no immediate receive a result (R114). -/
theorem mem_div2Destinations {imm1 imm2 : Bool} {l1 l2 l : Location}
    (h : l ∈ (if imm1 then none else some l1).toList ++ if imm2 then [] else [l2]) :
    (imm1 = false ∧ l = l1) ∨ (imm2 = false ∧ l = l2) := by
  cases imm1 <;> cases imm2 <;> simp_all

theorem afterOperands_resolveDiv (ops : TwoToFour) (s : State) :
    AfterOperands (classCheck s.params (.div ops)) ops.toList s
      (fun ls u x => ∃ l, x = .ok (l, u) ∧ u.params = s.params ∧ sources (.div ops) ls = [l.src1, l.src2] ∧
        ∀ y ∈ l.quotient.toList ++ l.remainder, placeClass y.place ≠ .imm) (resolveDiv ops s) := by
  cases ops with
  | two a b =>
    rw [classCheck_div_two, resolveDiv_two]
    split
    · unfold AfterOperands
      cases checkOperands s.params [(a, .any), (b, .any)] <;> rfl
    · refine afterOperands_two fun la lb u _ hu ha hb => ⟨_, rfl, hu, rfl, fun y hy => ?_⟩
      obtain ⟨himm, rfl⟩ | ⟨himm, rfl⟩ := mem_div2Destinations hy
      · exact ha.ne_imm_of_isImm himm
      · exact hb.ne_imm_of_isImm himm
  | three a b c =>
    rw [classCheck_eq (by simp)]
    refine afterOperands_three fun la lb lc u _ hu ha hb hc =>
      ⟨_, rfl, hu, rfl, List.forall_mem_cons.2 ⟨ha.storable, fun y hy => ?_⟩⟩
    obtain ⟨himm, rfl⟩ | ⟨himm, rfl⟩ := mem_div3Remainder hy
    · exact hb.ne_imm_of_isImm himm
    · exact hc.ne_imm_of_isImm himm
  | four a b c d =>
    rw [classCheck_eq (by simp)]
    exact afterOperands_four fun la lb lc ld u _ hu ha hb _ _ =>
      ⟨_, rfl, hu, rfl, by simp [ha.storable, hb.storable]⟩

/-! ## The copy's plan (R132) -/

theorem mapOnly_copyKind {s u : State} (hu : u.params = s.params) (sel src : Word) :
    MapOnly s (fun _ => True) (copyKind sel src u) := by
  unfold copyKind
  split_ifs
  · exact .ok trivial
  · exact (mapOnly_memRead hu src 4).bind fun _ _ => .ok trivial
  · exact .ok trivial

theorem afterOperands_copyPlan (ops : TwoToFour) (s : State) :
    AfterOperands (checkOperands s.params (requirements (.cpy ops))) ops.toList s
      (fun ls _ x => MapOnly s (fun y => y.2.params = s.params ∧ y.1.limit < 2 ^ 32 ∧
        ∀ l ∈ sources (.cpy ops) ls, s.holds l) x) (copyPlan ops s) := by
  cases ops with
  | two a b =>
    exact afterOperands_two fun la lb u _ hu ha hb => (ha.address s).bind fun _ _ => (hb.address s).bind fun _ _ =>
      .ok ⟨hu, Nat.two_pow_pos 32, nofun⟩
  | three a b c =>
    exact afterOperands_three fun la lb lc u _ hu ha hb _ => (ha.address s).bind fun _ _ =>
      (hb.address s).bind fun _ _ => (mapOnly_val hu lc).bind fun _ hc => (mapOnly_copyKind hu _ _).bind fun _ _ =>
      .ok ⟨hu, Nat.two_pow_pos 32, by simpa [sources] using hc⟩
  | four a b c d =>
    exact afterOperands_four fun la lb lc ld u _ hu ha hb _ _ => (ha.address s).bind fun _ _ =>
      (hb.address s).bind fun _ _ => (mapOnly_val hu lc).bind fun _ hc => (mapOnly_val hu ld).bind fun lim hd =>
      (mapOnly_copyKind hu _ _).bind fun _ _ => .ok ⟨hu, lim.isLt, by simp [sources, hc, hd]⟩

/-! ## What follows the operands

Every meaning but CPY is one chain, and of these only DIV and MOD can be stopped by anything but the map. -/

/-- An outcome is that of a chain which checks and resolves operands and then is stopped by the map alone; where it
completes, the locations it reads and stores, `locs` of those resolved, lie in implemented memory. -/
def Chain (reqs : List (Operand × Requirement)) (ops : List Operand) (s : State)
    (locs : List Location → List Location) (o : Host.Outcome State Fault Refusal) : Prop :=
  ∃ x, o = finish x ∧
    AfterOperands (checkOperands s.params reqs) ops s (fun ls _ => MapOnly s fun _ => ∀ l ∈ locs ls, s.holds l) x

/-- A meaning without operands. -/
theorem chain_nil {s : State} {x : Except Fault State} (h : MapOnly s (fun _ => True) x) :
    Chain [] [] s (fun _ => []) (finish x) :=
  ⟨x, rfl, h.imp fun _ _ => nofun⟩

theorem chain_clr (dst : Operand) (s : State) :
    Chain [(dst, .regOrMem)] [dst] s (fun ls => sources (.clr dst) ls ++ destinations (.clr dst) s) (execClr dst s) := by
  refine ⟨_, rfl, afterOperands_one fun l u hr hu hl => ?_⟩
  simp only [sources, destinations, hr, placesOf]
  exact (mapOnly_store hu hl.storable 0).imp fun t ⟨_, h⟩ => by simpa using h

theorem chain_dmp (src : Operand) (s : State) : Chain [(src, .any)] [src] s (fun ls => ls ++ []) (execDmp src s) :=
  ⟨_, rfl, afterOperands_one fun l _ _ hu _ => (mapOnly_val hu l).bind fun _ h => .ok (by simpa using h)⟩

theorem chain_out (ops : OneOrTwo) (s : State) :
    Chain (requirements (.out ops)) ops.toList s (fun ls => ls ++ []) (execOut ops s) := by
  cases ops with
  | one a =>
    exact ⟨_, rfl, afterOperands_one fun l _ _ hu _ => (mapOnly_val hu l).bind fun _ h => .ok (by simpa using h)⟩
  | two a b =>
    exact ⟨_, rfl, afterOperands_two fun la lb _ _ hu _ _ => (mapOnly_val hu la).bind fun _ ha =>
      (mapOnly_val hu lb).bind fun _ hb => .ok (by simp [ha, hb])⟩

theorem chain_bin (op : FlagOp) (f : Word → Word → Word) (ops : TwoOrThree) (s : State) :
    Chain (requirements.binRequirements ops) ops.toList s
      (fun ls => sources (.add ops) ls ++ destinations (.add ops) s) (execBin op f ops s) := by
  refine ⟨_, rfl, (afterOperands_resolveBin ops s).bind fun ls u ⟨l, hr, hu, hsrc, hdst⟩ => ?_⟩
  simp only [hsrc, destinations, hr, placesOf, ok_bind]
  exact (mapOnly_val hu _).bind fun a h1 => (mapOnly_val hu _).bind fun b h2 =>
    (mapOnly_store hu hdst _).bind fun w ⟨_, hd⟩ => .ok (by simp [h1, h2, hd])

theorem chain_mul (ops : TwoToFour) (s : State) :
    Chain (requirements (.mul ops)) ops.toList s (fun ls => sources (.mul ops) ls ++ destinations (.mul ops) s)
      (execMul ops s) := by
  refine ⟨_, rfl, (afterOperands_resolveMul ops s).bind fun ls u ⟨l, hr, hu, hsrc, hdst, hovf⟩ => ?_⟩
  simp only [hsrc, destinations, hr, placesOf, ok_bind]
  exact (mapOnly_val hu _).bind fun a h1 => (mapOnly_val hu _).bind fun b h2 =>
    (mapOnly_store hu hdst _).bind fun w ⟨hw, hd⟩ => (mapOnly_storeAll hw hovf _).bind fun t ⟨_, ho⟩ =>
    .ok (by simpa [h1, h2, hd] using ho)

theorem chain_cmp (ops : OneOrTwo) (s : State) :
    Chain (requirements (.cmp ops)) ops.toList s (fun ls => sources (.cmp ops) ls ++ destinations (.cmp ops) s)
      (execCmp ops s) := by
  refine ⟨_, rfl, (afterOperands_resolveCmp ops s).bind fun ls u ⟨d, l, hr, hu, hsrc, hdst⟩ => ?_⟩
  simp only [hsrc, destinations, hr, placesOf, ok_bind]
  exact (mapOnly_val hu _).bind fun a h1 => (mapOnly_store hu hdst _).bind fun w ⟨_, hd⟩ => .ok (by simp [h1, hd])

theorem chain_update (op : FlagOp) (f : Word → Word) (dst : Operand) (s : State) :
    Chain [(dst, .regOrMem)] [dst] s (fun ls => ls ++ placesOf (resolve dst s) fun x => [x.1])
      (execUpdate op f dst s) := by
  refine ⟨_, rfl, afterOperands_one fun l u hr hu hl => ?_⟩
  simp only [hr, placesOf]
  exact (mapOnly_val hu l).bind fun a h1 => (mapOnly_store hu hl.storable _).bind fun w _ => .ok (by simpa using h1)

theorem chain_mov (dst src : Operand) (s : State) :
    Chain [(dst, .regOrMem), (src, .any)] [dst, src] s
      (fun ls => sources (.mov dst src) ls ++ destinations (.mov dst src) s) (execMov dst src s) := by
  refine ⟨_, rfl, afterOperands_two fun l1 l2 u hr hu hl _ => ?_⟩
  simp only [sources, destinations, hr, placesOf]
  exact (mapOnly_val hu l2).bind fun v h2 =>
    (mapOnly_store hu hl.storable v).imp fun t ⟨_, h1⟩ => by simp [h1, h2]

theorem chain_swp (dst src : Operand) (s : State) :
    Chain [(dst, .regOrMem), (src, .regOrMem)] [dst, src] s
      (fun ls => ls ++ destinations (.swp dst src) s) (execSwp dst src s) := by
  refine ⟨_, rfl, afterOperands_two fun l1 l2 u hr hu hl1 hl2 => ?_⟩
  simp only [destinations, hr, placesOf]
  exact (mapOnly_val hu l1).bind fun a h1 => (mapOnly_val hu l2).bind fun b h2 =>
    (mapOnly_store hu hl1.storable b).bind fun w ⟨hw, _⟩ =>
    (mapOnly_store hw hl2.storable a).imp fun t _ => by simp [h1, h2]

theorem chain_jmp (target : Operand) (s : State) : Chain [(target, .mem)] [target] s (fun _ => []) (execJmp target s) :=
  ⟨_, rfl, (afterOperands_resolveTarget target s).bind fun _ _ h => h.bind fun _ _ => .ok nofun⟩

theorem mapOnly_call {s u : State} (hu : u.params = s.params) (t : Word) : MapOnly s (fun _ => True) (call t u) :=
  (mapOnly_memWrite hu _ 4 _).bind fun v ⟨hv, _⟩ =>
    (mapOnly_memWrite (u := v.setReg .pB (u.reg .pS - 4)) hv _ 4 _).bind fun _ _ => .ok trivial

theorem chain_jal (target : Operand) (s : State) : Chain [(target, .mem)] [target] s (fun _ => []) (execJal target s) :=
  ⟨_, rfl, (afterOperands_resolveTarget target s).bind fun _ _ h => h.bind fun ⟨t, _⟩ hu =>
    (mapOnly_call hu t).imp fun _ _ => nofun⟩

theorem mapOnly_returnedStackPointer {s u : State} (hu : u.params = s.params) (bp : Word) :
    MapOnly s (fun _ => True) (returnedStackPointer bp u) := by
  unfold returnedStackPointer
  split
  · exact (mapOnly_memRead hu (bp + 4) 4).imp fun _ _ => trivial
  · exact .ok trivial

theorem chain_ret (s : State) : Chain [] [] s (fun _ => []) (execRet s) :=
  chain_nil <| (mapOnly_memRead rfl _ 4).bind fun _ _ => (mapOnly_returnedStackPointer rfl _).bind fun _ _ =>
    (mapOnly_memRead rfl _ 4).bind fun _ _ => .ok trivial

theorem mapOnly_valOrZero {s u : State} (hu : u.params = s.params) (l : Option Location) :
    MapOnly s (fun _ => ∀ y ∈ l.toList, s.holds y) (valOrZero l u) := by
  cases l with
  | none => exact .ok nofun
  | some l => exact (mapOnly_val hu l).imp fun _ h => by simpa using h

theorem chain_compare (cond : Word → Word → Bool) (ops : TwoOrThree) (s : State) :
    Chain (requirements.branchRequirements .any ops) ops.toList s (fun ls => ls.dropLast ++ []) (execCompare cond ops s) := by
  refine ⟨_, rfl, (afterOperands_resolveBranch .any ops s).bind fun ls u ⟨l, a, t, hr, hu, hsrc, _, ht⟩ => ?_⟩
  simp only [hsrc, hr, ok_bind]
  exact (mapOnly_val hu _).bind fun _ h1 => (mapOnly_valOrZero hu _).bind fun _ h2 => (ht.address s).bind fun _ _ =>
    .ok (by rw [List.append_nil]; exact List.forall_mem_cons.2 ⟨h1, h2⟩)

theorem chain_loop (op : FlagOp) (f : Word → Word) (ops : TwoOrThree) (s : State) :
    Chain (requirements.branchRequirements .regOrMem ops) ops.toList s
      (fun ls => ls.dropLast ++ placesOf (resolveBranch .regOrMem ops s) fun x => [x.1.src1])
      (execLoop op f ops s) := by
  refine ⟨_, rfl, (afterOperands_resolveBranch .regOrMem ops s).bind fun ls u ⟨l, a, t, hr, hu, hsrc, ha, ht⟩ => ?_⟩
  simp only [hsrc, hr, placesOf, ok_bind]
  exact (mapOnly_val hu _).bind fun _ h1 => (mapOnly_store hu ha.storable _).bind fun _ ⟨hw, _⟩ =>
    (mapOnly_val hw _).bind fun _ _ => (mapOnly_valOrZero hw _).bind fun _ h2 => (ht.address s).bind fun _ _ =>
    .ok (List.forall_mem_append.2 ⟨List.forall_mem_cons.2 ⟨h1, h2⟩, by simpa using h1⟩)

theorem chain_flagBranch (flag : Bool) (target : Operand) (s : State) :
    Chain [(target, .mem)] [target] s (fun _ => []) (execFlagBranch flag target s) :=
  ⟨_, rfl, (afterOperands_resolveTarget target s).bind fun _ _ h => h.bind fun _ _ => .ok nofun⟩

/-! ## DIV and MOD (R114, R115, R163) -/

/-- How a chain ends whose operands have resolved to `ls`: it is stopped by the map alone, and what it reads and stores
lies in implemented memory where it completes; or its divisor is zero, and it has read its sources. -/
def Ends (i : Instr) (s : State) (ls : List Location) (x : Except Fault State) : Prop :=
  MapOnly s (fun _ => ∀ l ∈ sources i ls ++ destinations i s, s.holds l) x ∨
  (x = .error .divideByZero ∧ divisor i s = some 0 ∧ ∀ l ∈ sources i ls, s.holds l)

/-- Dividend and divisor are read, and a zero divisor faults before anything is stored. -/
theorem ends_division {i : Instr} {s u : State} {ls : List Location} {l1 l2 : Location} (hu : u.params = s.params)
    (hsrc : sources i ls = [l1, l2]) (hdiv : divisor i s = (val l2 u).toOption) {k : Word → Word → Except Fault State}
    (hk : ∀ a b, MapOnly s (fun _ => ∀ l ∈ destinations i s, s.holds l) (k a b)) :
    Ends i s ls (val l1 u >>= fun a => val l2 u >>= fun b => if b = 0 then .error .divideByZero else k a b) := by
  obtain ⟨a, ha, h1⟩ | ⟨ha, hmap⟩ := mapOnly_val hu l1
  swap
  · exact .inl (.inr ⟨by rw [ha]; rfl, hmap⟩)
  obtain ⟨b, hb, h2⟩ | ⟨hb, hmap⟩ := mapOnly_val hu l2
  swap
  · exact .inl (.inr ⟨by rw [ha, hb]; rfl, hmap⟩)
  have hsources : ∀ l ∈ sources i ls, s.holds l := by simp [hsrc, h1, h2]
  rw [ha, hb, ok_bind, ok_bind]
  split
  · next hzero => exact .inr ⟨rfl, by rw [hdiv, hb, hzero]; rfl, hsources⟩
  · exact .inl ((hk a b).imp fun t hd => List.forall_mem_append.2 ⟨hsources, hd⟩)

theorem ends_div (ops : TwoToFour) (s : State) :
    ∃ x, execDiv ops s = finish x ∧
      AfterOperands (classCheck s.params (.div ops)) ops.toList s (fun ls _ => Ends (.div ops) s ls) x := by
  refine ⟨_, rfl, (afterOperands_resolveDiv ops s).bind fun ls u ⟨l, hr, hu, hsrc, hdst⟩ => ?_⟩
  rw [List.forall_mem_append] at hdst
  simp only [hr, ok_bind]
  refine ends_division hu hsrc (by simp only [divisor, hr]) fun a b => ?_
  simp only [destinations, hr, placesOf]
  exact (mapOnly_storeAll hu hdst.1 _).bind fun v ⟨hv, hq⟩ => (mapOnly_storeAll hv hdst.2 _).bind fun w ⟨_, hm⟩ =>
    .ok (List.forall_mem_append.2 ⟨hq, hm⟩)

theorem ends_mod (dst src1 src2 : Operand) (s : State) :
    ∃ x, execMod dst src1 src2 s = finish x ∧
      AfterOperands (checkOperands s.params (requirements (.mod dst src1 src2))) [dst, src1, src2] s
        (fun ls _ => Ends (.mod dst src1 src2) s ls) x := by
  refine ⟨_, rfl, afterOperands_three fun l1 l2 l3 u hr hu hl _ _ => ?_⟩
  refine ends_division hu rfl (by simp only [divisor, hr]) fun a b => ?_
  simp only [destinations, hr, placesOf]
  exact (mapOnly_store hu hl.storable _).bind fun w ⟨_, hd⟩ => .ok (by simpa using hd)

/-! ## Every instruction -/

/-- How an instruction ends whose operands have resolved to `ls`: it goes on, and what it reads and stores lies in
implemented memory; or it meets an address that is not implemented; or its divisor is zero, and it has read its sources. -/
inductive ExecEnd (i : Instr) (s : State) (ls : List Location) : Host.Outcome State Fault Refusal → Prop
  | goesOn {o : Host.Outcome State Fault Refusal} (ho : ∀ r, o ≠ .fault r)
      (h : ∀ l ∈ sources i ls ++ destinations i s, s.holds l) : ExecEnd i s ls o
  | offMap (h : ¬ s.wholeMap) : ExecEnd i s ls (.fault .memoryAccess)
  | byZero (hdiv : divisor i s = some 0) (h : ∀ l ∈ sources i ls, s.holds l) : ExecEnd i s ls (.fault .divideByZero)

/-- The stages of R94 in their order, and the fault that each gives (R163). -/
structure ExecStages (i : Instr) (s : State) : Prop where
  check : ∀ r, classCheck s.params i = .error r → exec i s = .fault r
  operand : classCheck s.params i = .ok () → ∀ r, resolveAll i.operands s = .error r → exec i s = .fault r
  rest : classCheck s.params i = .ok () → ∀ ls u, resolveAll i.operands s = .ok (ls, u) → ExecEnd i s ls (exec i s)

theorem execEnd_finish {i : Instr} {s : State} {ls : List Location} {x : Except Fault State} (h : Ends i s ls x) :
    ExecEnd i s ls (finish x) := by
  obtain (⟨t, rfl, h⟩ | ⟨rfl, h⟩) | ⟨rfl, hdiv, h⟩ := h
  · exact .goesOn nofun h
  · exact .offMap h
  · exact .byZero hdiv h

/-- The stages of a meaning whose chain ends as `Ends` says. -/
theorem execStages_of_ends {i : Instr} {s : State}
    (h : ∃ x, exec i s = finish x ∧ AfterOperands (classCheck s.params i) i.operands s (fun ls _ => Ends i s ls) x) :
    ExecStages i s := by
  obtain ⟨x, hx, h⟩ := h
  rw [AfterOperands] at h
  refine ⟨fun r hc => ?_, fun hc r hr => ?_, fun hc ls u hr => ?_⟩
  · rw [hc] at h
    exact hx.trans (finish_eq_fault.2 h)
  · rw [hc, ok_bind, hr] at h
    exact hx.trans (finish_eq_fault.2 h)
  · rw [hc, ok_bind, hr] at h
    exact hx ▸ execEnd_finish h

theorem execStages_of_chain {i : Instr} {s : State} (hi : ∀ a b, i ≠ .div (.two a b))
    (h : Chain (requirements i) i.operands s (fun ls => sources i ls ++ destinations i s) (exec i s)) :
    ExecStages i s := by
  obtain ⟨x, hx, h⟩ := h
  refine execStages_of_ends ⟨x, hx, ?_⟩
  rw [classCheck_eq hi]
  unfold AfterOperands at h ⊢
  split
  · next r hr => simpa only [hr] using h
  · next ls u hr => simp only [hr] at h; exact .inl h

end Sys2Proof.Machine

end

section
/-! SUPPORT. The loop of a copy, byte by byte (R132, R133): what one byte does, what memory holds after some of them, and
where the loop stops. -/

namespace Sys2Proof.Machine

/-! ## One byte -/

theorem State.byteAt_of_mem_write_same (s : State) (a : Word) (v : Byte) :
    ({ s with mem := s.mem.write a.toNat v } : State).byteAt a = v :=
  Memory.read_write_same s.mem a.toNat v

theorem State.byteAt_of_mem_write_ne (s : State) {a x : Word} (v : Byte) (h : x ≠ a) :
    ({ s with mem := s.mem.write a.toNat v } : State).byteAt x = s.byteAt x :=
  Memory.read_write_ne s.mem v fun e => h (BitVec.eq_of_toNat_eq e)

section
variable {p : CopyPlan} {n : Nat} {s : State}

/-- A byte that can be read and written moves. -/
theorem copyByte_of_implemented (hsrc : s.implemented (p.src + BitVec.ofNat 32 n) = true)
    (hdst : s.implemented (p.dst + BitVec.ofNat 32 n) = true) :
    copyByte p n s = .ok (s.byteAt (p.src + BitVec.ofNat 32 n),
      { s with mem := s.mem.write (p.dst + BitVec.ofNat 32 n).toNat (s.byteAt (p.src + BitVec.ofNat 32 n)) }) := by
  have hread : s.accessOk (p.src + BitVec.ofNat 32 n) 1 = true := by simp [State.accessOk, hsrc]
  have hwrite : s.accessOk (p.dst + BitVec.ofNat 32 n) 1 = true := by simp [State.accessOk, hdst]
  simp [copyByte, memRead_of_accessOk hread, memWrite_of_accessOk _ hwrite, State.bytesAt_one, Memory.writeBytes]

/-- A byte that cannot be read or cannot be written faults. -/
theorem copyByte_of_not_implemented (h : s.implemented (p.src + BitVec.ofNat 32 n) = false ∨
    s.implemented (p.dst + BitVec.ofNat 32 n) = false) : copyByte p n s = .error .memoryAccess := by
  cases hsrc : s.implemented (p.src + BitVec.ofNat 32 n) with
  | false => simp [copyByte, memRead, State.accessOk, hsrc]
  | true =>
    have hdst := h.resolve_left (by simp [hsrc])
    simp [copyByte, memRead, memWrite, State.accessOk, hsrc, hdst]

theorem mapOnly_copyByte (p : CopyPlan) (n : Nat) {s u : State} (hu : u.params = s.params) :
    MapOnly s (fun y => y.2.params = s.params) (copyByte p n u) :=
  (mapOnly_memRead hu _ 1).bind fun _ _ => (mapOnly_memWrite hu _ 1 _).bind fun _ ⟨ht, _⟩ => .ok ht

/-! ## One turn of the loop -/

theorem copyLoop_of_done {fuel : Nat} (h : copyDone p n = true) : copyLoop p fuel n s = .next s := by
  unfold copyLoop
  simp [h]

theorem copyLoop_of_error {fuel : Nat} {r : Fault} (hdone : copyDone p n = false) (h : copyByte p n s = .error r) :
    copyLoop p (fuel + 1) n s = .fault r := by
  unfold copyLoop
  simp [hdone, h]

theorem copyLoop_of_zero {fuel : Nat} {b : Byte} {t : State} (hdone : copyDone p n = false)
    (h : copyByte p n s = .ok (b, t)) (hb : p.kind = .cString ∧ b = 0) : copyLoop p (fuel + 1) n s = .next t := by
  unfold copyLoop
  simp [hdone, h, hb]

theorem copyLoop_of_byte {fuel : Nat} {b : Byte} {t : State} (hdone : copyDone p n = false)
    (h : copyByte p n s = .ok (b, t)) (hb : ¬ (p.kind = .cString ∧ b = 0)) :
    copyLoop p (fuel + 1) n s = copyLoop p fuel (n + 1) t := by
  rw [copyLoop]
  simp only [hdone, h, if_neg hb, Bool.false_eq_true, if_false]

end

/-- A copy that faults has met an address that is not implemented. -/
theorem copyLoop_eq_fault {p : CopyPlan} {fuel n : Nat} {s u : State} {r : Fault} (hu : u.params = s.params)
    (h : copyLoop p fuel n u = .fault r) : r = .memoryAccess ∧ ¬ s.wholeMap := by
  induction fuel generalizing n u with
  | zero =>
    unfold copyLoop at h
    split at h <;> cases h
  | succ fuel ih =>
    cases hdone : copyDone p n with
    | true =>
      rw [copyLoop_of_done hdone] at h
      cases h
    | false =>
      obtain ⟨⟨b, t⟩, hbyte, ht⟩ | ⟨hbyte, hmap⟩ := mapOnly_copyByte p n hu
      · by_cases hb : p.kind = .cString ∧ b = 0
        · rw [copyLoop_of_zero hdone hbyte hb] at h
          cases h
        · rw [copyLoop_of_byte hdone hbyte hb] at h
          exact ih ht h
      · rw [copyLoop_of_error hdone hbyte] at h
        cases h
        exact ⟨rfl, hmap⟩

theorem copyDone_head_of_refused {p : CopyPlan} {fuel n : Nat} {s : State} {r : Refusal}
    (h : copyLoop p fuel n s = .refused r) : copyDone p n = false := by
  rw [Bool.eq_false_iff]
  intro hdone
  rw [copyLoop_of_done hdone] at h
  cases h

/-- A copy is refused only if its loop stops at its head at no count within its fuel. -/
theorem copyDone_of_refused {p : CopyPlan} {fuel n m : Nat} {s : State} {r : Refusal}
    (h : copyLoop p fuel n s = .refused r) (hn : n ≤ m) (hm : m ≤ n + fuel) : copyDone p m = false := by
  induction fuel generalizing n s with
  | zero =>
    obtain rfl : n = m := by omega
    exact copyDone_head_of_refused h
  | succ fuel ih =>
    have hdone := copyDone_head_of_refused h
    obtain rfl | hlt := hn.eq_or_lt
    · exact hdone
    cases hbyte : copyByte p n s with
    | error e =>
      rw [copyLoop_of_error hdone hbyte] at h
      cases h
    | ok y =>
      obtain ⟨b, t⟩ := y
      by_cases hb : p.kind = .cString ∧ b = 0
      · rw [copyLoop_of_zero hdone hbyte hb] at h
        cases h
      · rw [copyLoop_of_byte hdone hbyte hb] at h
        exact ih h hlt (by omega)

/-! ## The bytes that have been moved -/

/-- Of the numbers below `k` with a property there is a last one. -/
theorem exists_last_lt {P : Nat → Prop} {k : Nat} (h : ∃ j < k, P j) :
    ∃ j < k, P j ∧ ∀ m < k, j < m → ¬ P m := by
  induction k with
  | zero =>
    obtain ⟨j, hj, -⟩ := h
    omega
  | succ k ih =>
    by_cases hk : P k
    · exact ⟨k, Nat.lt_succ_self k, hk, fun m hm hgt => by omega⟩
    · obtain ⟨j, hj, hP⟩ := h
      have hne : j ≠ k := fun e => hk (e ▸ hP)
      obtain ⟨i, hi, hPi, hlast⟩ := ih ⟨j, by omega, hP⟩
      refine ⟨i, Nat.lt_succ_of_lt hi, hPi, fun m hm hgt => ?_⟩
      obtain hlt | rfl := Nat.lt_succ_iff_lt_or_eq.1 hm
      · exact hlast m hlt hgt
      · exact hk

section
variable {dst src : Word} {n k : Nat} {s t : State} {b : Nat → Byte}

/-- The byte that comes next is what the copy itself last wrote at its address, or what memory held there. -/
theorem byteAt_of_copyWrites (hb : copyReads dst src n s b) (hk : k < n) (ht : copyWrites dst k s t b) :
    t.byteAt (src + BitVec.ofNat 32 k) = b k := by
  obtain ⟨hwritten, hkept⟩ := ht
  obtain ⟨hfresh, hcopied⟩ := hb k hk
  by_cases hex : ∃ j < k, dst + BitVec.ofNat 32 j = src + BitVec.ofNat 32 k
  · obtain ⟨j, hj, haddr, hlast⟩ := exists_last_lt hex
    rw [hcopied j hj haddr hlast, ← hwritten j hj fun m hm hgt => haddr ▸ hlast m hm hgt, haddr]
  · have hnone : ∀ j < k, dst + BitVec.ofNat 32 j ≠ src + BitVec.ofNat 32 k := fun j hj e => hex ⟨j, hj, e⟩
    rw [hfresh hnone, hkept _ fun j hj => (hnone j hj).symm]

/-- One more byte written after the others. -/
theorem copyWrites_succ (h : copyWrites dst k s t b) :
    copyWrites dst (k + 1) s { t with mem := t.mem.write (dst + BitVec.ofNat 32 k).toNat (b k) } b := by
  obtain ⟨hwritten, hkept⟩ := h
  refine ⟨fun j hj hlast => ?_, fun x hx => ?_⟩
  · obtain hlt | rfl := Nat.lt_succ_iff_lt_or_eq.1 hj
    · rw [t.byteAt_of_mem_write_ne _ (hlast k (Nat.lt_succ_self k) hlt).symm]
      exact hwritten j hlt fun m hm => hlast m (Nat.lt_succ_of_lt hm)
    · exact t.byteAt_of_mem_write_same _ _
  · rw [t.byteAt_of_mem_write_ne _ (hx k (Nat.lt_succ_self k))]
    exact hkept x fun j hj => hx j (Nat.lt_succ_of_lt hj)

end

/-- A copy that nothing stops before its byte `n` has moved the bytes it read, and goes on from there. -/
theorem copyLoop_prefix {p : CopyPlan} {n : Nat} {s : State} {b : Nat → Byte} (hb : copyReads p.dst p.src n s b)
    (hdone : ∀ k < n, copyDone p k = false) (hzero : p.kind = .cString → ∀ k < n, b k ≠ 0)
    (hmap : ∀ k < n, s.implemented (p.src + BitVec.ofNat 32 k) = true ∧
      s.implemented (p.dst + BitVec.ofNat 32 k) = true) {k : Nat} (hk : k ≤ n) :
    ∃ t, t = { s with mem := t.mem } ∧ copyWrites p.dst k s t b ∧
      ∀ fuel, copyLoop p (k + fuel) 0 s = copyLoop p fuel k t := by
  induction k with
  | zero => exact ⟨s, rfl, ⟨nofun, fun _ _ => rfl⟩, fun fuel => by rw [Nat.zero_add]⟩
  | succ k ih =>
    obtain ⟨t, ht, hwrites, hloop⟩ := ih (by omega)
    have himp : t.implemented = s.implemented := State.implemented_congr (by rw [ht])
    obtain ⟨hsrc, hdst⟩ := hmap k hk
    have hbyte := copyByte_of_implemented (himp ▸ hsrc) (himp ▸ hdst)
    rw [byteAt_of_copyWrites hb hk hwrites] at hbyte
    refine ⟨_, by rw [ht], copyWrites_succ hwrites, fun fuel => ?_⟩
    rw [Nat.add_right_comm, Nat.add_assoc, hloop]
    exact copyLoop_of_byte (hdone k hk) hbyte fun h => hzero h.1 k hk h.2

/-- The first byte of a copy that lies off the map is one of the first 2^32: the bytes after these lie where they did. -/
theorem lt_of_not_implemented {s : State} {dst src : Word} {n : Nat}
    (hmap : ∀ k < n, s.implemented (src + BitVec.ofNat 32 k) = true ∧ s.implemented (dst + BitVec.ofNat 32 k) = true)
    (h : s.implemented (src + BitVec.ofNat 32 n) = false ∨ s.implemented (dst + BitVec.ofNat 32 n) = false) :
    n < 2 ^ 32 := by
  by_contra hge
  have hwrap : BitVec.ofNat 32 n = BitVec.ofNat 32 (n - 2 ^ 32) :=
    BitVec.eq_of_toNat_eq (by simp only [BitVec.toNat_ofNat]; omega)
  obtain ⟨hsrc, hdst⟩ := hmap (n - 2 ^ 32) (by omega)
  rw [hwrap, hsrc, hdst] at h
  simp at h

/-- A copy does not stop at its head before its limit or its count. -/
theorem copyDone_eq_false {p : CopyPlan} {n k : Nat} (hk : k ≤ n) (hlim : p.limit = 0 ∨ n < p.limit)
    (htotal : ∀ total, p.kind = .counted total → n < total) : copyDone p k = false := by
  have hcount : p.kind ≠ .counted k := fun e => by
    have := htotal k e
    omega
  simp only [copyDone, hcount, decide_false, Bool.or_false, Bool.and_eq_false_iff, decide_eq_false_iff_not]
  omega

/-- A copy has fuel for every byte before its count, or before it has gone round all addresses. -/
theorem lt_copyFuel {kind : CopyKind} {n : Nat} (hn : n < 2 ^ 32) (htotal : ∀ total, kind = .counted total → n < total) :
    n < copyFuel kind := by
  cases kind with
  | cString => exact hn
  | counted total => exact htotal total rfl

/-- A copy faults at the first byte that it comes to and cannot read or write. -/
theorem copyLoop_offMap {p : CopyPlan} {n : Nat} {s : State} {b : Nat → Byte} (hb : copyReads p.dst p.src n s b)
    (hlim : p.limit = 0 ∨ n < p.limit) (htotal : ∀ total, p.kind = .counted total → n < total)
    (hzero : p.kind = .cString → ∀ k < n, b k ≠ 0)
    (hmap : ∀ k < n, s.implemented (p.src + BitVec.ofNat 32 k) = true ∧
      s.implemented (p.dst + BitVec.ofNat 32 k) = true)
    (hoff : s.implemented (p.src + BitVec.ofNat 32 n) = false ∨ s.implemented (p.dst + BitVec.ofNat 32 n) = false) :
    copyLoop p (copyFuel p.kind) 0 s = .fault .memoryAccess := by
  obtain ⟨t, ht, -, hloop⟩ :=
    copyLoop_prefix hb (fun k hk => copyDone_eq_false hk.le hlim htotal) hzero hmap (Nat.le_refl n)
  obtain ⟨fuel, hfuel⟩ := Nat.exists_eq_add_of_lt (lt_copyFuel (lt_of_not_implemented hmap hoff) htotal)
  have himp : t.implemented = s.implemented := State.implemented_congr (by rw [ht])
  rw [hfuel, Nat.add_assoc, hloop]
  exact copyLoop_of_error (copyDone_eq_false (Nat.le_refl n) hlim htotal) (copyByte_of_not_implemented (himp ▸ hoff))

/-- A copy with a count or a limit is never refused (R133). -/
theorem copyLoop_ne_refused {p : CopyPlan} (hlim : p.limit < 2 ^ 32) (h : p.kind ≠ .cString ∨ p.limit ≠ 0) (s : State)
    (r : Refusal) : copyLoop p (copyFuel p.kind) 0 s ≠ .refused r := by
  intro hr
  cases hkind : p.kind with
  | counted total =>
    have hdone := copyDone_of_refused (m := total) hr (Nat.zero_le _) (by simp [hkind, copyFuel])
    simp [copyDone, hkind] at hdone
  | cString =>
    have hne : p.limit ≠ 0 := h.resolve_left (absurd hkind)
    have hdone := copyDone_of_refused (m := p.limit) hr (Nat.zero_le _) (by simp only [hkind, copyFuel]; omega)
    simp [copyDone, hne] at hdone

end Sys2Proof.Machine

end

section
/-! SUPPORT. The stages of every instruction, and what is left of them where every address is implemented. -/

namespace Sys2Proof.Machine

theorem execCpy_of_copyPlan {ops : TwoToFour} {s u : State} {p : CopyPlan} (h : copyPlan ops s = .ok (p, u)) :
    execCpy ops s = copyLoop p (copyFuel p.kind) 0 u := by
  simp [execCpy, h]

theorem execCpy_of_copyPlan_error {ops : TwoToFour} {s : State} {r : Fault} (h : copyPlan ops s = .error r) :
    execCpy ops s = .fault r := by
  simp [execCpy, h]

/-- What the plan of a copy says where its operands have passed their check and have resolved. -/
theorem mapOnly_copyPlan {ops : TwoToFour} {s u : State} {ls : List Location}
    (hc : classCheck s.params (.cpy ops) = .ok ()) (hr : resolveAll ops.toList s = .ok (ls, u)) :
    MapOnly s (fun y => y.2.params = s.params ∧ y.1.limit < 2 ^ 32 ∧ ∀ l ∈ sources (.cpy ops) ls, s.holds l)
      (copyPlan ops s) := by
  rw [classCheck_eq (by simp)] at hc
  have h := afterOperands_copyPlan ops s
  rw [AfterOperands, hc, ok_bind, hr] at h
  exact h

theorem execStages_cpy (ops : TwoToFour) (s : State) : ExecStages (.cpy ops) s := by
  have h := afterOperands_copyPlan ops s
  rw [← classCheck_eq (by simp), AfterOperands] at h
  refine ⟨fun r hc => ?_, fun hc r hr => ?_, fun hc ls u hr => ?_⟩
  · rw [hc] at h
    exact execCpy_of_copyPlan_error h
  · rw [hc, ok_bind, show resolveAll ops.toList s = .error r from hr] at h
    exact execCpy_of_copyPlan_error h
  · change ExecEnd _ s ls (execCpy ops s)
    obtain ⟨⟨p, v⟩, hp, hv, -, hsrc⟩ | ⟨hp, hmap⟩ := mapOnly_copyPlan hc hr
    · rw [execCpy_of_copyPlan hp]
      cases ho : copyLoop p (copyFuel p.kind) 0 v with
      | fault r =>
        obtain ⟨rfl, hmap⟩ := copyLoop_eq_fault hv ho
        exact .offMap hmap
      | _ => exact .goesOn nofun (by simpa [destinations] using hsrc)
    · rw [execCpy_of_copyPlan_error hp]
      exact .offMap hmap

/-- Every instruction checks its classes, resolves its operands in order, and then is stopped by the map or by a zero
divisor alone (R94, R163). -/
theorem execStages (i : Instr) (s : State) : ExecStages i s := by
  cases i with
  | hlt => exact execStages_of_chain (by simp) (chain_nil (.ok trivial))
  | nop => exact execStages_of_chain (by simp) (chain_nil (.ok trivial))
  | unspecified opc => exact execStages_of_chain (by simp) (chain_nil (.ok trivial))
  | clr dst => exact execStages_of_chain (by simp) (chain_clr dst s)
  | dmp src => exact execStages_of_chain (by simp) (chain_dmp src s)
  | out ops => exact execStages_of_chain (by simp) (chain_out ops s)
  | add ops => exact execStages_of_chain (by simp) (chain_bin _ _ ops s)
  | sub ops => exact execStages_of_chain (by simp) (chain_bin _ _ ops s)
  | mul ops => exact execStages_of_chain (by simp) (chain_mul ops s)
  | div ops => exact execStages_of_ends (ends_div ops s)
  | mod dst src1 src2 =>
    refine execStages_of_ends ?_
    rw [classCheck_eq (by simp)]
    exact ends_mod dst src1 src2 s
  | and ops => exact execStages_of_chain (by simp) (chain_bin _ _ ops s)
  | or ops => exact execStages_of_chain (by simp) (chain_bin _ _ ops s)
  | xor ops => exact execStages_of_chain (by simp) (chain_bin _ _ ops s)
  | cmp ops => exact execStages_of_chain (by simp) (chain_cmp ops s)
  | inc dst => exact execStages_of_chain (by simp) (chain_update _ _ dst s)
  | dec dst => exact execStages_of_chain (by simp) (chain_update _ _ dst s)
  | mov dst src => exact execStages_of_chain (by simp) (chain_mov dst src s)
  | swp dst src => exact execStages_of_chain (by simp) (chain_swp dst src s)
  | cpy ops => exact execStages_cpy ops s
  | jmp target => exact execStages_of_chain (by simp) (chain_jmp target s)
  | jal target => exact execStages_of_chain (by simp) (chain_jal target s)
  | ret => exact execStages_of_chain (by simp) (chain_ret s)
  | beq ops => exact execStages_of_chain (by simp) (chain_compare _ ops s)
  | bne ops => exact execStages_of_chain (by simp) (chain_compare _ ops s)
  | bgt ops => exact execStages_of_chain (by simp) (chain_compare _ ops s)
  | bge ops => exact execStages_of_chain (by simp) (chain_compare _ ops s)
  | bie ops => exact execStages_of_chain (by simp) (chain_loop _ _ ops s)
  | bde ops => exact execStages_of_chain (by simp) (chain_loop _ _ ops s)
  | bao target => exact execStages_of_chain (by simp) (chain_flagBranch _ target s)
  | bac target => exact execStages_of_chain (by simp) (chain_flagBranch _ target s)

/-! ## Destinations are those of resolved operands -/

theorem mem_placesOf {α : Type} {r : Except Fault α} {f : α → List Location} {l : Location} (h : l ∈ placesOf r f) :
    ∃ x, r = .ok x ∧ l ∈ f x := by
  cases r with
  | ok x => exact ⟨x, rfl, h⟩
  | error e => cases h

/-- An instruction has destinations only where its operands resolve. -/
theorem resolveAll_of_mem_destinations {i : Instr} {s : State} {l : Location} (h : l ∈ destinations i s) :
    ∃ u ls, resolveAll i.operands s = .ok (ls, u) := by
  cases i with
  | clr a | inc a | dec a =>
    obtain ⟨⟨_, u⟩, hr, -⟩ := mem_placesOf h
    exact ⟨u, _, resolveAll_of_resolve hr⟩
  | add ops | sub ops | and ops | or ops | xor ops =>
    obtain ⟨⟨_, u⟩, hr, -⟩ := mem_placesOf h
    exact ⟨u, resolveAll_of_resolveBin hr⟩
  | mul ops =>
    obtain ⟨⟨_, u⟩, hr, -⟩ := mem_placesOf h
    exact ⟨u, resolveAll_of_resolveMul hr⟩
  | div ops =>
    obtain ⟨⟨_, u⟩, hr, -⟩ := mem_placesOf h
    exact ⟨u, resolveAll_of_resolveDiv hr⟩
  | mod a b c =>
    obtain ⟨⟨_, _, _, u⟩, hr, -⟩ := mem_placesOf h
    exact ⟨u, _, resolveAll_of_resolve3 hr⟩
  | cmp ops =>
    obtain ⟨⟨_, _, u⟩, hr, -⟩ := mem_placesOf h
    exact ⟨u, resolveAll_of_resolveCmp hr⟩
  | mov a b | swp a b =>
    obtain ⟨⟨_, _, u⟩, hr, -⟩ := mem_placesOf h
    exact ⟨u, _, resolveAll_of_resolve2 hr⟩
  | bie ops | bde ops =>
    obtain ⟨⟨_, u⟩, hr, -⟩ := mem_placesOf h
    exact ⟨u, resolveAll_of_resolveBranch hr⟩
  | _ => cases h

/-- A location with an address that is not implemented does not lie in implemented memory. -/
theorem State.not_holds {s : State} {l : Location} {a : Word} {n : Size} {k : Nat} (hl : l.place = .mem a n)
    (hk : k < n.bytes) (h : s.implemented (a + BitVec.ofNat 32 k) = false) : ¬ s.holds l := fun hholds => by
  have hok := hholds a n hl
  rw [State.accessOk_eq_false hk h] at hok
  cases hok

/-- An instruction stops at the map where it reads, or stores after no zero divisor, off the map. -/
theorem ExecEnd.eq_memoryAccess {i : Instr} {s : State} {ls : List Location} {l : Location}
    {o : Host.Outcome State Fault Refusal} (h : ExecEnd i s ls o) (hl : ¬ s.holds l)
    (hmem : l ∈ sources i ls ∨ (l ∈ destinations i s ∧ divisor i s ≠ some 0)) : o = .fault .memoryAccess := by
  cases h with
  | goesOn _ h => exact absurd (h l (List.mem_append.2 (hmem.imp_right And.left))) hl
  | offMap _ => rfl
  | byZero hzero h =>
    obtain hsrc | ⟨-, hdiv⟩ := hmem
    · exact absurd (h l hsrc) hl
    · exact absurd hzero hdiv

/-! ## The whole map (R47) -/

theorem State.wholeMap_congr {s t : State} (h : t.params = s.params) (hs : s.wholeMap) : t.wholeMap := by
  unfold State.wholeMap
  rw [State.implemented_congr h]
  exact hs

/-- No instruction changes a parameter. -/
theorem params_of_exec {i : Instr} {s t : State} (h : exec i s = .next t) : t.params = s.params := by
  obtain ⟨u, hops, hrec⟩ := exec_cases h
  have hu := (sameRecords_of_dataOps hops).params
  obtain ⟨-, rfl⟩ | ⟨a, v, -, rfl⟩ | ⟨ops, port, v, -, rfl⟩ | ⟨-, rfl⟩ := hrec
  · exact hu
  · exact hu
  · exact hu
  · exact hu

/-- A class check that fails gives one of its two reasons (R89). -/
theorem checkOperands_eq_error {p : Params} {reqs : List (Operand × Requirement)} {r : Fault}
    (h : checkOperands p reqs = .error r) : r = .operandClass ∨ r = .scaleUnmodelled := by
  induction reqs with
  | nil => cases h
  | cons x rest ih =>
    obtain h | ⟨_, -, h⟩ := bind_eq_error.1 h
    · unfold checkOperand at h
      split at h
      · cases h; exact .inr rfl
      · split at h
        · cases h
        · cases h; exact .inl rfl
    · exact ih h

theorem classCheck_eq_error {p : Params} {i : Instr} {r : Fault} (h : classCheck p i = .error r) :
    r = .operandClass ∨ r = .scaleUnmodelled := by
  obtain h | ⟨_, -, h⟩ := bind_eq_error.1 h
  · exact checkOperands_eq_error h
  · split at h
    · split at h
      · cases h; exact .inl rfl
      · cases h
    · cases h

/-- The class check looks at the operands, in order (R89). -/
theorem requirements_map_fst (i : Instr) : (requirements i).map Prod.fst = i.operands := by
  cases i with
  | out ops | cmp ops => cases ops <;> rfl
  | add ops | sub ops | and ops | or ops | xor ops => cases ops <;> rfl
  | mul ops | div ops | cpy ops => cases ops <;> rfl
  | beq ops | bne ops | bgt ops | bge ops | bie ops | bde ops => cases ops <;> rfl
  | _ => rfl

/-- With the whole map implemented operands that have classes resolve. -/
theorem resolveAll_of_wholeMap {ops : List Operand} {s : State} (hs : s.wholeMap)
    (h : ∀ o ∈ ops, operandClass s.params o ≠ none) : ∃ ls u, resolveAll ops s = .ok (ls, u) := by
  induction ops generalizing s with
  | nil => exact ⟨[], s, rfl⟩
  | cons o rest ih =>
    rw [List.forall_mem_cons] at h
    obtain ⟨l, t, ho, ht⟩ := resolve_of_wholeMap hs h.1
    obtain ⟨ls, u, hrest⟩ := ih ht (by rw [params_of_resolve ho]; exact h.2)
    exact ⟨l :: ls, u, by simp [resolveAll, ho, hrest]⟩

/-- An operand that has passed a class check has a class. -/
theorem operandClass_of_classCheck {p : Params} {i : Instr} (hc : classCheck p i = .ok ()) :
    ∀ o ∈ i.operands, operandClass p o ≠ none := by
  obtain ⟨_, hc, -⟩ := bind_eq_ok.1 hc
  rw [← requirements_map_fst i]
  intro o ho
  obtain ⟨x, hx, rfl⟩ := List.mem_map.1 ho
  obtain ⟨c, hcls, -⟩ := checkOperand_eq_ok.1 (checkOperands_eq_ok.1 hc x hx)
  simp [hcls]

theorem exec_ne_memoryAccess {i : Instr} {s : State} (hs : s.wholeMap) : exec i s ≠ .fault .memoryAccess := by
  intro h
  have hstages := execStages i s
  cases hc : classCheck s.params i with
  | error r =>
    rw [hstages.check r hc] at h
    cases h
    obtain h | h := classCheck_eq_error hc <;> cases h
  | ok _ =>
    obtain ⟨ls, u, hr⟩ := resolveAll_of_wholeMap hs (operandClass_of_classCheck hc)
    have hend := hstages.rest hc ls u hr
    rw [h] at hend
    cases hend with
    | goesOn ho h => exact ho _ rfl
    | offMap hmap => exact hmap hs

end Sys2Proof.Machine

open Sys2Proof Sys2Proof.Machine

/-- Settles O56: the stages of an execution give its first clauses and its last; a copy goes on to the byte that it cannot
read or write. -/
theorem unimplementedAccessFaults : Obligations.UnimplementedAccessFaults := by
  refine ⟨fun i s hc => ⟨(execStages i s).operand hc, ?_, ?_⟩, fun ops s r => execCpy_of_copyPlan_error, ?_,
    fun i s => exec_ne_memoryAccess⟩
  · intro ls s1 l a n k hr hl hplace hk himp
    exact ((execStages i s).rest hc ls s1 hr).eq_memoryAccess (State.not_holds hplace hk himp) (.inl hl)
  · intro l a n k hl hdiv hplace hk himp
    obtain ⟨u, ls, hr⟩ := resolveAll_of_mem_destinations hl
    exact ((execStages i s).rest hc ls u hr).eq_memoryAccess (State.not_holds hplace hk himp) (.inr ⟨hl, hdiv⟩)
  · intro ops s s1 p n b hp hb hlim htotal hzero hmap hoff
    exact (execCpy_of_copyPlan hp).trans (copyLoop_offMap hb hlim htotal hzero hmap hoff)

/-- Settles O60: with the whole map implemented the operands resolve, and of what can stop an instruction after that a
zero divisor and the refusal of CPY are left; a copy with a count or a limit is not refused. -/
theorem everyInstructionCompletes : Obligations.EveryInstructionCompletes := by
  intro i s hs hc
  obtain ⟨ls, u, hr⟩ := resolveAll_of_wholeMap hs (operandClass_of_classCheck hc)
  refine ⟨fun hcpy hdiv => ?_, ?_⟩
  · have hend := (execStages i s).rest hc ls u hr
    cases ho : exec i s with
    | next t => exact ⟨t, rfl, State.wholeMap_congr (params_of_exec ho) hs⟩
    | refused r =>
      obtain ⟨-, ops, rfl⟩ := exec_eq_refused ho
      exact absurd rfl (hcpy ops)
    | fault r =>
      rw [ho] at hend
      cases hend with
      | goesOn ho _ => exact absurd rfl (ho r)
      | offMap hmap => exact absurd hs hmap
      | byZero hzero _ => exact absurd hzero hdiv
  · rintro ops rfl
    obtain ⟨⟨p, v⟩, hp, hv, hlim, -⟩ | ⟨-, hmap⟩ := mapOnly_copyPlan hc hr
    swap
    · exact absurd hs hmap
    refine ⟨p, v, hp, fun hends => ?_⟩
    have hloop : exec (.cpy ops) s = copyLoop p (copyFuel p.kind) 0 v := execCpy_of_copyPlan hp
    cases ho : copyLoop p (copyFuel p.kind) 0 v with
    | next t =>
      have ht := hloop.trans ho
      exact ⟨t, ht, State.wholeMap_congr (params_of_exec ht) hs⟩
    | fault r => exact absurd hs (copyLoop_eq_fault hv ho).2
    | refused r => exact absurd ho (copyLoop_ne_refused hlim hends v r)

end

section
/-! SUPPORT. What it is for a part of the decoder to read exactly what is spelled: it answers where bytes stand that spell
its answer, and nowhere else. Parts are put together by `Reads.bind`, and the first of them is the immediate (R41, R43). -/

namespace Sys2Proof

open Sys2Proof.Machine

/-! ## Bytes that stand in a source -/

/-- The bytes stand in the source, one after the other, from `p` on. -/
def Stands (src : Source) (p : Nat) (bytes : List Byte) : Prop := ∀ k < bytes.length, src (p + k) = bytes[k]?

section
variable {src : Source} {p : Nat}

theorem stands_nil : Stands src p [] := nofun

theorem stands_append {x y : List Byte} : Stands src p (x ++ y) ↔ Stands src p x ∧ Stands src (p + x.length) y := by
  refine ⟨fun h => ⟨fun k hk => ?_, fun k hk => ?_⟩, fun ⟨hx, hy⟩ k hk => ?_⟩
  · rw [h k (by simp; omega), List.getElem?_append_left hk]
  · rw [Nat.add_assoc, h _ (by simp; omega), List.getElem?_append_right (by omega), Nat.add_sub_cancel_left]
  · by_cases hlt : k < x.length
    · rw [hx k hlt, List.getElem?_append_left hlt]
    · rw [List.getElem?_append_right (by omega), ← hy _ (by simp at hk; omega)]
      exact congrArg src (by omega)

theorem stands_singleton {b : Byte} : Stands src p [b] ↔ src p = some b := by
  simp [Stands]

theorem stands_cons {b : Byte} {y : List Byte} : Stands src p (b :: y) ↔ src p = some b ∧ Stands src (p + 1) y := by
  rw [← List.singleton_append, stands_append, stands_singleton, List.length_singleton]

theorem stands_replicate {m : Nat} {b : Byte} :
    Stands src p (List.replicate m b) ↔ ∀ k < m, src (p + k) = some b := by
  simp +contextual [Stands]

end

/-! ## Parts of the decoder that read exactly what is spelled -/

section
variable {α β : Type} {src : Source}

/-- A part of the decoder that answers `a` exactly where bytes stand that spell `a`, as `S` says, and that then goes on
at the byte after them. -/
def Reads (src : Source) (S : List Byte → α → Prop) (x : Nat → Except DecodeError (α × Nat)) : Prop :=
  ∀ p a q, x p = .ok (a, q) ↔ ∃ y, S y a ∧ Stands src p y ∧ q = p + y.length

theorem Reads.ok (a : α) : Reads src (fun y b => y = [] ∧ b = a) fun p => .ok (a, p) := by
  intro p b q
  simp only [Except.ok.injEq, Prod.mk.injEq]
  constructor
  · rintro ⟨rfl, rfl⟩
    exact ⟨[], ⟨rfl, rfl⟩, stands_nil, rfl⟩
  · rintro ⟨y, ⟨rfl, rfl⟩, -, rfl⟩
    exact ⟨rfl, rfl⟩

/-- One part after the other reads bytes one after the other. -/
theorem Reads.bind {S : List Byte → α → Prop} {T : α → List Byte → β → Prop}
    {x : Nat → Except DecodeError (α × Nat)} {f : α → Nat → Except DecodeError (β × Nat)} (hx : Reads src S x)
    (hf : ∀ a, Reads src (T a) (f a)) :
    Reads src (fun y b => ∃ u v a, S u a ∧ T a v b ∧ y = u ++ v) fun p => x p >>= fun r => f r.1 r.2 := by
  intro p b q
  rw [bind_eq_ok]
  constructor
  · rintro ⟨⟨a, q'⟩, h1, h2⟩
    obtain ⟨u, hu, hsu, rfl⟩ := (hx p a q').1 h1
    obtain ⟨v, hv, hsv, rfl⟩ := (hf a _ b q).1 h2
    exact ⟨u ++ v, ⟨u, v, a, hu, hv, rfl⟩, stands_append.2 ⟨hsu, hsv⟩, by simp [Nat.add_assoc]⟩
  · rintro ⟨_, ⟨u, v, a, hu, hv, rfl⟩, hst, rfl⟩
    obtain ⟨hsu, hsv⟩ := stands_append.1 hst
    exact ⟨(a, p + u.length), (hx _ _ _).2 ⟨u, hu, hsu, rfl⟩,
      (hf a _ _ _).2 ⟨v, hv, hsv, by simp [Nat.add_assoc]⟩⟩

theorem Reads.congr {S T : List Byte → α → Prop} {x : Nat → Except DecodeError (α × Nat)} (hx : Reads src S x)
    (h : ∀ y a, S y a ↔ T y a) : Reads src T x := by
  obtain rfl : S = T := funext fun y => funext fun a => propext (h y a)
  exact hx

/-- What is done with an answer moves no byte. -/
theorem Reads.map {S : List Byte → α → Prop} {x : Nat → Except DecodeError (α × Nat)} (hx : Reads src S x)
    (g : α → β) :
    Reads src (fun y b => ∃ a, S y a ∧ b = g a) fun p => x p >>= fun r => .ok (g r.1, r.2) :=
  (hx.bind fun a => .ok (g a)).congr fun y b =>
    ⟨fun ⟨u, _, a, hu, ⟨rfl, hb⟩, hy⟩ => ⟨a, by rwa [hy, List.append_nil], hb⟩,
      fun ⟨a, hy, hb⟩ => ⟨y, [], a, hy, ⟨rfl, hb⟩, by simp⟩⟩

/-- What is read only where a condition holds. -/
theorem Reads.guard {S : List Byte → α → Prop} {x : Nat → Except DecodeError (α × Nat)} (hx : Reads src S x)
    (c : Prop) [Decidable c] (e : DecodeError) :
    Reads src (fun y a => c ∧ S y a) fun p => if c then x p else .error e := by
  intro p a q
  by_cases hc : c
  · simpa [hc] using hx p a q
  · simp [hc]

theorem reads_readByte : Reads src (fun y b => y = [b]) (readByte src) := by
  intro p b q
  simp [readByte_eq_ok, stands_singleton]

end

/-! ## Immediates (R41, R43, R73) -/

/-- A value whose lowest byte is `b` and whose other bytes are `w`. -/
theorem eq_byte_or_shiftLeft_iff {b : Byte} {v w : Word} (hw : w.toNat < 2 ^ 24) :
    v = b.setWidth 32 ||| (w <<< 8) ↔ v.setWidth 8 = b ∧ v >>> 8 = w := by
  have hb := b.isLt
  have hlow : b.toNat % 2 ^ 32 = b.toNat := Nat.mod_eq_of_lt (by omega)
  have hshift : w.toNat <<< 8 % 2 ^ 32 = w.toNat <<< 8 := Nat.mod_eq_of_lt (by rw [Nat.shiftLeft_eq]; omega)
  have hval : (b.setWidth 32 ||| (w <<< 8)).toNat = w.toNat * 2 ^ 8 + b.toNat := by
    rw [BitVec.toNat_or, BitVec.toNat_setWidth, BitVec.toNat_shiftLeft, hlow, hshift, Nat.or_comm,
      ← Nat.shiftLeft_add_eq_or_of_lt hb, Nat.shiftLeft_eq]
  rw [BitVec.toNat_eq, BitVec.toNat_eq, BitVec.toNat_eq, hval, BitVec.toNat_setWidth, BitVec.toNat_ushiftRight,
    Nat.shiftRight_eq_div_pow]
  omega

theorem toNat_shiftRight_lt_iff (v : Word) (n : Nat) :
    (v >>> 8).toNat < 2 ^ (8 * n) ↔ v.toNat < 2 ^ (8 * (n + 1)) := by
  rw [BitVec.toNat_ushiftRight, Nat.shiftRight_eq_div_pow, Nat.div_lt_iff_lt_mul (by decide), ← Nat.pow_add]
  rfl

/-- An immediate of at most four bytes. -/
theorem reads_readImm (src : Source) {n : Nat} (hn : n ≤ 4) :
    Reads src (fun y v => y = immBytes v n ∧ v.toNat < 2 ^ (8 * n)) (readImm src n) := by
  induction n with
  | zero =>
    refine (Reads.ok 0).congr fun y v => and_congr_right fun _ => ?_
    rw [Nat.mul_zero, Nat.pow_zero, Nat.lt_one_iff, BitVec.toNat_eq]
    rfl
  | succ n ih =>
    refine (reads_readByte.bind fun b => (ih (by omega)).map fun w => b.setWidth 32 ||| (w <<< 8)).congr fun y v => ?_
    have hfit {w : Word} (h : w.toNat < 2 ^ (8 * n)) : w.toNat < 2 ^ 24 :=
      h.trans_le (Nat.pow_le_pow_right (by decide) (by omega))
    constructor
    · rintro ⟨_, _, b, rfl, ⟨w, ⟨rfl, hw⟩, hv⟩, rfl⟩
      obtain ⟨rfl, rfl⟩ := (eq_byte_or_shiftLeft_iff (hfit hw)).1 hv
      exact ⟨rfl, (toNat_shiftRight_lt_iff v n).1 hw⟩
    · rintro ⟨rfl, hv⟩
      have hw := (toNat_shiftRight_lt_iff v n).2 hv
      exact ⟨_, _, _, rfl, ⟨_, ⟨rfl, hw⟩, (eq_byte_or_shiftLeft_iff (hfit hw)).2 ⟨rfl, rfl⟩⟩, rfl⟩

end Sys2Proof

end

section
/-! SUPPORT. A descriptor is read exactly where bytes stand that spell it (R66 to R84). -/

namespace Sys2Proof

open Sys2Proof.Machine

/-! ## The fields of a type byte (R66, R67, R70) -/

@[simp] theorem modeBits_typeByte (m : BitVec 4) (f g : BitVec 2) : modeBits (typeByte m f g) = m := by
  revert m f g
  decide

@[simp] theorem field1_typeByte (m : BitVec 4) (f g : BitVec 2) : field1 (typeByte m f g) = f := by
  revert m f g
  decide

@[simp] theorem field2_typeByte (m : BitVec 4) (f g : BitVec 2) : field2 (typeByte m f g) = g := by
  revert m f g
  decide

/-- A type byte is made of its mode and its two fields. -/
theorem typeByte_fields (b : Byte) : typeByte (modeBits b) (field1 b) (field2 b) = b := by
  revert b
  decide

@[simp] theorem Size.ofField_field (n : Size) : Size.ofField n.field = n := by
  cases n <;> rfl

@[simp] theorem Size.field_ofField (f : BitVec 2) : (Size.ofField f).field = f := by
  revert f
  decide

theorem Size.bytes_le (n : Size) : n.bytes ≤ 4 := by
  cases n <;> decide

@[simp] theorem Reg.ofNum_num (r : Reg) : Reg.ofNum r.num = r := by
  cases r <;> rfl

@[simp] theorem modeBits_registerByte (r : Reg) : modeBits (r.num.setWidth 8) = 0 := by
  cases r <;> rfl

@[simp] theorem lowNibble_registerByte (r : Reg) : lowNibble (r.num.setWidth 8) = r.num := by
  cases r <;> rfl

/-- A byte whose high nibble is 0 is a register byte (R71). -/
theorem eq_registerByte {b : Byte} (h : modeBits b = 0) : b = (Reg.ofNum (lowNibble b)).num.setWidth 8 := by
  revert b
  decide

/-! ## Registers (R70, R71) -/

/-! The four values of a register field: three registers, and the register byte that follows. -/
theorem readReg_zero (src : Source) (p : Nat) : readReg src 0b00 p = .ok (.r0, p) := rfl

theorem readReg_one (src : Source) (p : Nat) : readReg src 0b01 p = .ok (.r1, p) := rfl

theorem readReg_two (src : Source) (p : Nat) : readReg src 0b10 p = .ok (.pB, p) := rfl

theorem readReg_three (src : Source) (p : Nat) :
    readReg src 0b11 p = readByte src p >>= fun x =>
      if modeBits x.1 = 0 then .ok (Reg.ofNum (lowNibble x.1), x.2) else .error .reservedEncoding := rfl

theorem field_cases (f : BitVec 2) : f = 0b00 ∨ f = 0b01 ∨ f = 0b10 ∨ f = 0b11 := by
  revert f
  decide

theorem reads_readReg (src : Source) (f : BitVec 2) : Reads src (namesReg f) (readReg src f) := by
  obtain rfl | rfl | rfl | rfl := field_cases f
  · exact (Reads.ok Reg.r0).congr fun y r => by simp [namesReg]
  · exact (Reads.ok Reg.r1).congr fun y r => by simp [namesReg]
  · exact (Reads.ok Reg.pB).congr fun y r => by simp [namesReg]
  · refine (reads_readByte.bind fun b =>
      (Reads.ok (Reg.ofNum (lowNibble b))).guard (modeBits b = 0) .reservedEncoding).congr fun y r => ?_
    constructor
    · rintro ⟨_, _, b, rfl, ⟨hb, rfl, rfl⟩, rfl⟩
      exact .inr (.inr (.inr ⟨rfl, congrArg (fun c => [c]) (eq_registerByte hb)⟩))
    · intro h
      have hy : y = [r.num.setWidth 8] := by simpa [namesReg] using h
      exact ⟨y, [], _, hy, ⟨modeBits_registerByte r, rfl, by simp⟩, by simp⟩

theorem requireFixed_bind {α : Type} (b : Byte) (x : Except DecodeError α) :
    (requireFixed b >>= fun _ => x) = if field1 b = 0 then x else .error .reservedEncoding := by
  unfold requireFixed
  split <;> rfl

/-- An immediate after a fixed field. -/
theorem reads_fixedImm (src : Source) (b : Byte) (n : Size) (mk : Word → Body) :
    Reads src (fun y d => field1 b = 0 ∧ ∃ v, (y = immBytes v n.bytes ∧ v.toNat < 2 ^ (8 * n.bytes)) ∧ d = mk v)
      fun p => requireFixed b >>= fun _ => readImm src n.bytes p >>= fun x => .ok (mk x.1, x.2) := by
  simp only [requireFixed_bind]
  exact ((reads_readImm src n.bytes_le).map mk).guard _ _

/-! ## Descriptors (R72 to R84) -/

theorem eq_typeByte {b : Byte} {m : Nat} (h : (modeBits b).toNat = m) :
    b = typeByte (BitVec.ofNat 4 m) (field1 b) (field2 b) := by
  rw [← h, BitVec.ofNat_toNat, BitVec.setWidth_eq, typeByte_fields]

/-- A type byte whose second field is a size. -/
theorem eq_typeByte_size {b : Byte} {m : Nat} (h : (modeBits b).toNat = m) :
    b = typeByte (BitVec.ofNat 4 m) (field1 b) (Size.ofField (field2 b)).field := by
  rw [Size.field_ofField]
  exact eq_typeByte h

theorem eq_nybbleByte {b : Byte} (h : (modeBits b).toNat = 1) : b = 0b0001#4 ++ lowNibble b := by
  revert b
  decide

@[simp] theorem modeBits_nybbleByte (v : BitVec 4) : modeBits (0b0001#4 ++ v) = 0b0001 := by
  revert v
  decide

@[simp] theorem lowNibble_nybbleByte (v : BitVec 4) : lowNibble (0b0001#4 ++ v) = v := by
  revert v
  decide

theorem cons_typeByte {b : Byte} {m : Nat} (y : List Byte) (h : (modeBits b).toNat = m) :
    b :: y = typeByte (BitVec.ofNat 4 m) (field1 b) (Size.ofField (field2 b)).field :: y :=
  congrArg (· :: y) (eq_typeByte_size h)

/-- A mode that takes a register and nothing after it. -/
theorem spells_of_readReg {src : Source} {b : Byte} {p q : Nat} {d : Body} {mk : Reg → Body}
    (hmk : ∀ r y, namesReg (field1 b) y r → spellsBody (b :: y) (mk r) ∧ (mk r).wf = true)
    (h : (readReg src (field1 b) p >>= fun x => .ok (mk x.1, x.2)) = .ok (d, q)) :
    ∃ y, (spellsBody (b :: y) d ∧ d.wf = true) ∧ Stands src p y ∧ q = p + y.length := by
  obtain ⟨y, ⟨r, hr, rfl⟩, hst, rfl⟩ := ((reads_readReg src (field1 b)).map mk p d q).1 h
  exact ⟨y, hmk r y hr, hst, rfl⟩

/-- What a decoded type byte and the bytes after it spell. -/
theorem spellsBody_of_decodeBody {src : Source} {b : Byte} {p q : Nat} {d : Body}
    (h : decodeBody src b p = .ok (d, q)) :
    ∃ y, (spellsBody (b :: y) d ∧ d.wf = true) ∧ Stands src p y ∧ q = p + y.length := by
  have hfixed := fun mk => reads_fixedImm src b (Size.ofField (field2 b)) mk p d q
  have hindex := ((reads_readReg src (field1 b)).bind fun r =>
    (reads_readReg src (field2 b)).map (Body.index r)) p d q
  have hdisp := ((reads_readReg src (field1 b)).bind fun r =>
    (reads_readImm src (Size.ofField (field2 b)).bytes_le).map (Body.disp r)) p d q
  unfold decodeBody at h
  split at h
  · next hm =>
    cases h
    exact ⟨[], ⟨congrArg (fun c => [c]) (eq_nybbleByte hm), rfl⟩, stands_nil, rfl⟩
  · next hm =>
    obtain ⟨_, ⟨hf, v, ⟨rfl, hv⟩, rfl⟩, hst, rfl⟩ := (hfixed _).1 h
    exact ⟨_, ⟨congrArg (· :: _) (hf ▸ eq_typeByte_size hm), decide_eq_true hv⟩, hst, rfl⟩
  · next hm =>
    exact spells_of_readReg (mk := (.reg · _)) (fun r y hr => ⟨⟨_, y, hr, cons_typeByte y hm⟩, rfl⟩) h
  · next hm =>
    exact spells_of_readReg (mk := (.regInd · _)) (fun r y hr => ⟨⟨_, y, hr, cons_typeByte y hm⟩, rfl⟩) h
  · next hm =>
    obtain ⟨_, ⟨hf, a, ⟨rfl, ha⟩, rfl⟩, hst, rfl⟩ := (hfixed _).1 h
    exact ⟨_, ⟨⟨_, ha, congrArg (· :: _) (hf ▸ eq_typeByte_size hm)⟩, rfl⟩, hst, rfl⟩
  · next hm =>
    obtain ⟨_, ⟨x, z, r, hr, ⟨r', hr', rfl⟩, rfl⟩, hst, rfl⟩ := hindex.1 h
    exact ⟨_, ⟨⟨_, x, _, z, hr, hr', congrArg (· :: _) (eq_typeByte hm)⟩, rfl⟩, hst, rfl⟩
  · next hm =>
    obtain ⟨_, ⟨x, _, r, hr, ⟨v, ⟨rfl, hv⟩, rfl⟩, rfl⟩, hst, rfl⟩ := hdisp.1 h
    exact ⟨_, ⟨⟨_, x, _, hr, hv, cons_typeByte _ hm⟩, rfl⟩, hst, rfl⟩
  · next hm =>
    obtain ⟨_, ⟨hf, a, ⟨rfl, ha⟩, rfl⟩, hst, rfl⟩ := (hfixed _).1 h
    exact ⟨_, ⟨⟨_, ha, congrArg (· :: _) (hf ▸ eq_typeByte_size hm)⟩, rfl⟩, hst, rfl⟩
  · next hm =>
    exact spells_of_readReg (mk := (.postInc · _)) (fun r y hr => ⟨⟨_, y, hr, cons_typeByte y hm⟩, rfl⟩) h
  · next hm =>
    exact spells_of_readReg (mk := (.preDec · _)) (fun r y hr => ⟨⟨_, y, hr, cons_typeByte y hm⟩, rfl⟩) h
  · next hm =>
    exact spells_of_readReg (mk := (.preInc · _)) (fun r y hr => ⟨⟨_, y, hr, cons_typeByte y hm⟩, rfl⟩) h
  · next hm =>
    exact spells_of_readReg (mk := (.postDec · _)) (fun r y hr => ⟨⟨_, y, hr, cons_typeByte y hm⟩, rfl⟩) h
  · cases h
  · cases h
  · cases h

theorem reads_decodeBody (src : Source) (b : Byte) :
    Reads src (fun y d => spellsBody (b :: y) d ∧ d.wf = true) (decodeBody src b) := by
  refine fun p d q => ⟨spellsBody_of_decodeBody, ?_⟩
  rintro ⟨y, ⟨hs, hwf⟩, hst, rfl⟩
  cases d with
  | nyb v =>
    obtain ⟨rfl, rfl⟩ := List.cons.inj hs
    simp [decodeBody]
  | imm n v =>
    obtain ⟨rfl, rfl⟩ := List.cons.inj hs
    have hread := (reads_readImm src n.bytes_le p v _).2 ⟨_, ⟨rfl, of_decide_eq_true hwf⟩, hst, rfl⟩
    simp [decodeBody, requireFixed, hread]
  | memInd a | abs a =>
    obtain ⟨n, hv, hs⟩ := hs
    obtain ⟨rfl, rfl⟩ := List.cons.inj hs
    have hread := (reads_readImm src n.bytes_le p a _).2 ⟨_, ⟨rfl, hv⟩, hst, rfl⟩
    simp [decodeBody, requireFixed, hread]
  | reg r n | regInd r n | postInc r n | preDec r n | preInc r n | postDec r n =>
    obtain ⟨f, x, hr, hs⟩ := hs
    obtain ⟨rfl, rfl⟩ := List.cons.inj hs
    have hread := (reads_readReg src f p r _).2 ⟨_, hr, hst, rfl⟩
    simp [decodeBody, hread]
  | index r r' =>
    obtain ⟨f, x, g, z, hr, hr', hs⟩ := hs
    obtain ⟨rfl, rfl⟩ := List.cons.inj hs
    obtain ⟨hx, hz⟩ := stands_append.1 hst
    have hread := (reads_readReg src f p r _).2 ⟨_, hr, hx, rfl⟩
    have hread' := (reads_readReg src g _ r' _).2 ⟨_, hr', hz, rfl⟩
    simp [decodeBody, hread, hread', Nat.add_assoc]
  | disp r v =>
    obtain ⟨f, x, n, hr, hv, hs⟩ := hs
    obtain ⟨rfl, rfl⟩ := List.cons.inj hs
    obtain ⟨hx, hz⟩ := stands_append.1 hst
    have hread := (reads_readReg src f p r _).2 ⟨_, hr, hx, rfl⟩
    have hread' := (reads_readImm src n.bytes_le _ v _).2 ⟨_, ⟨rfl, hv⟩, hz, rfl⟩
    simp [decodeBody, hread, hread', Nat.add_assoc]

/-- A descriptor other than Scale begins with a type byte that is neither a control code nor a Scale's (R66). -/
theorem exists_typeByte_of_spellsBody {y : List Byte} {d : Body} (h : spellsBody y d) :
    ∃ b z, y = b :: z ∧ modeBits b ≠ 0 ∧ modeBits b ≠ 0b1011 := by
  cases d with
  | nyb v => exact ⟨_, _, h, by simp, by simp⟩
  | imm n v => exact ⟨_, _, h, by simp, by simp⟩
  | memInd a | abs a =>
    obtain ⟨n, -, rfl⟩ := h
    exact ⟨_, _, rfl, by simp, by simp⟩
  | reg r n | regInd r n | postInc r n | preDec r n | preInc r n | postDec r n =>
    obtain ⟨f, x, -, rfl⟩ := h
    exact ⟨_, _, rfl, by simp, by simp⟩
  | index r r' =>
    obtain ⟨f, x, g, z, -, -, rfl⟩ := h
    exact ⟨_, _, rfl, by simp, by simp⟩
  | disp r v =>
    obtain ⟨f, x, n, -, -, rfl⟩ := h
    exact ⟨_, _, rfl, by simp, by simp⟩

theorem exists_typeByte_of_spellsDesc {y : List Byte} {d : Desc} (h : spellsDesc y d) :
    ∃ b z, y = b :: z ∧ modeBits b ≠ 0 := by
  cases d with
  | plain d =>
    obtain ⟨b, z, rfl, hb, -⟩ := exists_typeByte_of_spellsBody h
    exact ⟨b, z, rfl, hb⟩
  | scale r n d =>
    obtain ⟨f, x, z, -, -, rfl⟩ := h
    exact ⟨_, _, rfl, by simp⟩

/-! ## Scale (R82) -/

theorem decodeDesc_scale (src : Source) {b : Byte} (p : Nat) (h : modeBits b = 0b1011) :
    decodeDesc src b p = readReg src (field1 b) p >>= fun x => readByte src x.2 >>= fun c =>
      decodeBody src c.1 c.2 >>= fun d => .ok (.scale x.1 (Size.ofField (field2 b)) d.1, d.2) :=
  if_pos h

theorem decodeDesc_plain (src : Source) {b : Byte} (p : Nat) (h : modeBits b ≠ 0b1011) :
    decodeDesc src b p = decodeBody src b p >>= fun x => .ok (.plain x.1, x.2) :=
  if_neg h

theorem reads_decodeDesc (src : Source) (b : Byte) :
    Reads src (fun y d => spellsDesc (b :: y) d ∧ d.wf = true) (decodeDesc src b) := by
  by_cases hb : modeBits b = 0b1011
  · rw [show decodeDesc src b = _ from funext fun p => decodeDesc_scale src p hb]
    refine ((reads_readReg src (field1 b)).bind fun r => reads_readByte.bind fun c =>
      (reads_decodeBody src c).map (Desc.scale r _)).congr fun y d => ⟨?_, fun ⟨hs, hwf⟩ => ?_⟩
    · rintro ⟨x, _, r, hr, ⟨_, z, c, rfl, ⟨inner, ⟨hs, hwf⟩, rfl⟩, rfl⟩, rfl⟩
      exact ⟨⟨_, x, _, hr, hs, cons_typeByte _ (congrArg BitVec.toNat hb)⟩, hwf⟩
    · cases d with
      | plain d =>
        obtain ⟨_, _, h, -, hne⟩ := exists_typeByte_of_spellsBody hs
        exact absurd ((List.cons.inj h).1 ▸ hb) hne
      | scale r n inner =>
        obtain ⟨f, x, z, hr, hz, hs⟩ := hs
        obtain ⟨rfl, rfl⟩ := List.cons.inj hs
        obtain ⟨c, z, rfl, -⟩ := exists_typeByte_of_spellsBody hz
        exact ⟨x, _, r, by simpa using hr, ⟨[c], z, c, rfl, ⟨inner, ⟨hz, hwf⟩, by simp⟩, rfl⟩, rfl⟩
  · rw [show decodeDesc src b = _ from funext fun p => decodeDesc_plain src p hb]
    refine ((reads_decodeBody src b).map Desc.plain).congr fun y d => ⟨?_, fun ⟨hs, hwf⟩ => ?_⟩
    · rintro ⟨d, h, rfl⟩
      exact h
    · cases d with
      | plain d => exact ⟨d, ⟨hs, hwf⟩, rfl⟩
      | scale r n inner =>
        obtain ⟨f, x, z, -, -, hs⟩ := hs
        rw [(List.cons.inj hs).1, modeBits_typeByte] at hb
        exact absurd rfl hb

end Sys2Proof

end

section
/-! SUPPORT. An operand slot and an operand list are read exactly where bytes stand that spell them (R60 to R65). -/

namespace Sys2Proof

open Sys2Proof.Machine

/-! ## Operand slots (R64, R65) -/

theorem skipControl_of_typeByte (src : Source) (fuel : Nat) (sx : Bool) {b : Byte} (p : Nat) (h : modeBits b ≠ 0) :
    skipControl src fuel sx b p = .ok (sx, b, p) := by
  cases fuel <;> exact if_pos h

/-- A sign-extend byte gives the mark, and the loop goes on with the next byte. -/
theorem skipControl_signExtend (src : Source) (fuel : Nat) (sx : Bool) (p : Nat) :
    skipControl src (fuel + 1) sx 0x01 p = readByte src p >>= fun x => skipControl src fuel true x.1 x.2 := by
  cases h : readByte src p <;> simp [skipControl, modeBits, lowNibble, h]

/-- Sign-extend bytes are taken one after the other. -/
theorem readByte_skipControl {src : Source} {m p : Nat} {c : Byte} (fuel : Nat) (sx : Bool)
    (h : Stands src p (List.replicate m 0x01 ++ [c])) :
    (readByte src p >>= fun x => skipControl src (fuel + m) sx x.1 x.2) =
      skipControl src fuel (sx || decide (0 < m)) c (p + m + 1) := by
  induction m generalizing p sx with
  | zero =>
    have hc : src p = some c := stands_singleton.1 h
    simp [readByte, hc]
  | succ m ih =>
    obtain ⟨hp, hrest⟩ := stands_cons.1 h
    rw [readByte_eq_ok.2 ⟨hp, rfl⟩, ok_bind, ← Nat.add_assoc]
    dsimp only
    rw [skipControl_signExtend, ih true hrest, Nat.add_assoc p 1 m, Nat.add_comm 1 m]
    simp

/-- Where the loop answers, it has taken sign-extend bytes and answers the type byte after them. -/
theorem skipControl_eq_ok {src : Source} {fuel p q : Nat} {sx sx' : Bool} {b c : Byte}
    (h : skipControl src fuel sx b p = .ok (sx', c, q)) :
    ∃ m y, m ≤ fuel ∧ b :: y = List.replicate m 0x01 ++ [c] ∧ Stands src p y ∧ modeBits c ≠ 0 := by
  induction fuel generalizing sx b p with
  | zero =>
    unfold skipControl at h
    split at h
    · next hmode =>
      cases h
      exact ⟨0, [], Nat.le_refl 0, rfl, stands_nil, hmode⟩
    · split at h
      · cases h
      · split at h <;> cases h
  | succ fuel ih =>
    by_cases hmode : modeBits b = 0
    · by_cases hlow : lowNibble b = 0b0001
      · obtain rfl := eq_signExtendByte hmode hlow
        rw [skipControl_signExtend] at h
        obtain ⟨⟨b', p'⟩, hread, h⟩ := bind_eq_ok.1 h
        obtain ⟨hp, rfl⟩ := readByte_eq_ok.1 hread
        obtain ⟨m, y, hm, hy, hst, hc⟩ := ih h
        exact ⟨m + 1, b' :: y, Nat.succ_le_succ hm, congrArg _ hy, stands_cons.2 ⟨hp, hst⟩, hc⟩
      · unfold skipControl at h
        rw [if_neg (not_not.2 hmode), if_neg hlow] at h
        split at h <;> cases h
    · rw [skipControl_of_typeByte src _ sx p hmode] at h
      cases h
      exact ⟨0, [], Nat.zero_le _, rfl, stands_nil, hmode⟩

theorem decodeSlot_null {src : Source} {p : Nat} (h : src p = some 0x00) : decodeSlot src p = .ok (none, p + 1) := by
  simp [decodeSlot, readByte, h]

/-- A slot that does not begin with the null byte is the loop and then a descriptor. -/
theorem decodeSlot_of_ne_null {src : Source} {p : Nat} {b : Byte} (h : src p = some b) (hb : b ≠ 0x00) :
    decodeSlot src p =
      (readByte src p >>= fun x => skipControl src controlFuel false x.1 x.2) >>= fun x =>
        decodeDesc src x.2.1 x.2.2 >>= fun d => .ok (some ⟨x.1, d.1⟩, d.2) := by
  simp only [decodeSlot, readByte, h, ok_bind, if_neg hb]

/-- After at most 2^32 sign-extend bytes it is the next byte that says what stands in the slot. -/
theorem decodeSlot_of_signExtends {src : Source} {p m : Nat} {c : Byte} (hm : m ≤ 2 ^ 32)
    (h : Stands src p (List.replicate m 0x01 ++ [c])) (hc : m = 0 → c ≠ 0x00) :
    decodeSlot src p = skipControl src (controlFuel - m) (decide (0 < m)) c (p + m + 1) >>= fun x =>
      decodeDesc src x.2.1 x.2.2 >>= fun d => .ok (some ⟨x.1, d.1⟩, d.2) := by
  have hfuel : controlFuel - m + m = controlFuel := Nat.sub_add_cancel hm
  have hloop := readByte_skipControl (controlFuel - m) false h
  rw [hfuel, Bool.false_or] at hloop
  rw [← hloop]
  cases m with
  | zero => exact decodeSlot_of_ne_null (stands_singleton.1 h) (hc rfl)
  | succ m => exact decodeSlot_of_ne_null (stands_cons.1 h).1 (by decide)

/-- After at most 2^32 sign-extend bytes a type byte begins the descriptor of a marked operand, after none that of an
operand without the mark. -/
theorem decodeSlot_of_typeByte {src : Source} {p m : Nat} {c : Byte} (hm : m ≤ 2 ^ 32)
    (h : Stands src p (List.replicate m 0x01 ++ [c])) (hc : modeBits c ≠ 0) :
    decodeSlot src p = decodeDesc src c (p + m + 1) >>= fun d => .ok (some ⟨decide (0 < m), d.1⟩, d.2) := by
  rw [decodeSlot_of_signExtends hm h (by rintro - rfl; exact hc rfl), skipControl_of_typeByte src _ _ _ hc, ok_bind]

/-- A slot that does not hold the null byte has a type byte after its sign-extend bytes. -/
theorem exists_typeByte_of_decodeSlot {src : Source} {p q : Nat} {slot : Option Operand}
    (h : decodeSlot src p = .ok (slot, q)) (hnull : src p ≠ some 0x00) :
    ∃ m c, m ≤ 2 ^ 32 ∧ Stands src p (List.replicate m 0x01 ++ [c]) ∧ modeBits c ≠ 0 := by
  obtain ⟨⟨b, p'⟩, hread, h⟩ := bind_eq_ok.1 h
  obtain ⟨hp, rfl⟩ := readByte_eq_ok.1 hread
  simp only [if_neg fun hb : b = 0x00 => hnull (hb ▸ hp)] at h
  obtain ⟨⟨sx, c, p'⟩, hloop, -⟩ := bind_eq_ok.1 h
  obtain ⟨m, y, hm, hy, hst, hc⟩ := skipControl_eq_ok hloop
  exact ⟨m, c, hm, hy ▸ stands_cons.2 ⟨hp, hst⟩, hc⟩

theorem stands_signExtends {src : Source} {p m : Nat} {c : Byte} {z : List Byte} :
    Stands src p (List.replicate m 0x01 ++ c :: z) ↔
      Stands src p (List.replicate m 0x01 ++ [c]) ∧ Stands src (p + m + 1) z := by
  rw [← List.singleton_append, ← List.append_assoc, stands_append (x := _ ++ [c])]
  simp [Nat.add_assoc]

/-- Bytes that spell what a slot holds: the null byte, or a well-formed operand. -/
def spellsSlot (bytes : List Byte) : Option Operand → Prop
  | none => bytes = [0x00]
  | some o => spellsOperand bytes o ∧ o.wf = true

theorem reads_decodeSlot (src : Source) : Reads src spellsSlot (decodeSlot src) := by
  have hread := fun m c => (reads_decodeDesc src c).map fun d => some (Operand.mk (decide (0 < m)) d)
  refine fun p slot q => ⟨fun h => ?_, ?_⟩
  · by_cases hnull : src p = some 0x00
    · rw [decodeSlot_null hnull] at h
      cases h
      exact ⟨[0x00], rfl, stands_singleton.2 hnull, rfl⟩
    · obtain ⟨m, c, hm, hst, hc⟩ := exists_typeByte_of_decodeSlot h hnull
      rw [decodeSlot_of_typeByte hm hst hc] at h
      obtain ⟨z, ⟨d, ⟨hz, hwf⟩, rfl⟩, hsz, rfl⟩ := (hread m c _ slot q).1 h
      refine ⟨List.replicate m 0x01 ++ c :: z, ⟨⟨m, _, hm, decide_eq_true_iff, hz, rfl⟩, hwf⟩,
        stands_signExtends.2 ⟨hst, hsz⟩, ?_⟩
      simp [Nat.add_assoc, Nat.add_comm]
  · rintro ⟨y, hy, hst, rfl⟩
    cases slot with
    | none =>
      obtain rfl : y = [0x00] := hy
      exact decodeSlot_null (stands_singleton.1 hst)
    | some o =>
      obtain ⟨sx, d⟩ := o
      obtain ⟨⟨m, _, hm, hsx, hz, rfl⟩, hwf⟩ := hy
      obtain rfl : sx = decide (0 < m) := Bool.eq_iff_iff.2 (hsx.trans decide_eq_true_iff.symm)
      obtain ⟨c, z, rfl, hc⟩ := exists_typeByte_of_spellsDesc hz
      obtain ⟨hprefix, hsz⟩ := stands_signExtends.1 hst
      rw [decodeSlot_of_typeByte hm hprefix hc]
      refine (hread m c _ _ _).2 ⟨z, ⟨d, ⟨hz, hwf⟩, rfl⟩, hsz, ?_⟩
      simp [Nat.add_assoc, Nat.add_comm]

/-! ## Operand lists (R60, R63) -/

/-- Bytes that spell an operand list of at most `max` operands, the null byte after it if there are fewer. -/
def spellsList (max : Nat) (bytes : List Byte) (ops : List Operand) : Prop :=
  ops.length ≤ max ∧ (∀ o ∈ ops, o.wf = true) ∧
    ∃ x, spellsOperands x ops ∧ bytes = x ++ if ops.length < max then [0x00] else []

theorem spellsList_zero {y : List Byte} {ops : List Operand} : spellsList 0 y ops ↔ y = [] ∧ ops = [] := by
  cases ops <;> simp [spellsList, spellsOperands]

theorem spellsList_succ_nil {max : Nat} {y : List Byte} : spellsList (max + 1) y [] ↔ spellsSlot y none := by
  simp [spellsList, spellsOperands, spellsSlot]

theorem spellsList_succ_cons {max : Nat} {y : List Byte} {o : Operand} {ops : List Operand} :
    spellsList (max + 1) y (o :: ops) ↔ ∃ u v, spellsSlot u (some o) ∧ spellsList max v ops ∧ y = u ++ v := by
  simp only [spellsList, spellsOperands, spellsSlot, List.length_cons, Nat.add_le_add_iff_right,
    Nat.add_lt_add_iff_right, List.forall_mem_cons]
  constructor
  · rintro ⟨hlen, ⟨ho, hops⟩, _, ⟨u, x, hu, hx, rfl⟩, rfl⟩
    exact ⟨u, _, ⟨hu, ho⟩, ⟨hlen, hops, x, hx, rfl⟩, List.append_assoc ..⟩
  · rintro ⟨u, _, ⟨hu, ho⟩, ⟨hlen, hops, x, hx, rfl⟩, rfl⟩
    exact ⟨hlen, ⟨ho, hops⟩, u ++ x, ⟨u, x, hu, hx, rfl⟩, (List.append_assoc ..).symm⟩

theorem reads_decodeOperands (src : Source) (max : Nat) : Reads src (spellsList max) (decodeOperands src max) := by
  induction max with
  | zero => exact (Reads.ok []).congr fun y ops => spellsList_zero.symm
  | succ max ih =>
    refine fun p ops q => ⟨fun h => ?_, ?_⟩
    · obtain ⟨⟨slot, p'⟩, hslot, h⟩ := bind_eq_ok.1 h
      obtain ⟨u, hu, hsu, rfl⟩ := (reads_decodeSlot src p slot p').1 hslot
      cases slot with
      | none =>
        cases h
        exact ⟨u, spellsList_succ_nil.2 hu, hsu, rfl⟩
      | some o =>
        obtain ⟨v, ⟨rest, hv, rfl⟩, hsv, rfl⟩ := (ih.map (o :: ·) _ ops q).1 h
        exact ⟨u ++ v, spellsList_succ_cons.2 ⟨u, v, hu, hv, rfl⟩, stands_append.2 ⟨hsu, hsv⟩,
          by simp [Nat.add_assoc]⟩
    · rintro ⟨y, hy, hst, rfl⟩
      cases ops with
      | nil =>
        have hslot := (reads_decodeSlot src p none _).2 ⟨y, spellsList_succ_nil.1 hy, hst, rfl⟩
        simp [decodeOperands, hslot]
      | cons o rest =>
        obtain ⟨u, v, hu, hv, rfl⟩ := spellsList_succ_cons.1 hy
        obtain ⟨hsu, hsv⟩ := stands_append.1 hst
        have hslot := (reads_decodeSlot src p (some o) _).2 ⟨u, hu, hsu, rfl⟩
        have hrest := (ih _ rest _).2 ⟨v, hv, hsv, rfl⟩
        simp [decodeOperands, hslot, hrest, Nat.add_assoc]

end Sys2Proof

end

section
/-! SUPPORT. An instruction is decoded exactly where bytes stand that spell it, and the encoder's bytes do
(R60 to R63). -/

namespace Sys2Proof

open Sys2Proof.Machine

/-! ## Instructions (R62, R63, R90) -/

theorem Opcode.ofByte_byte (o : Opcode) : Opcode.ofByte o.byte = some o := by
  cases o <;> decide

theorem Opcode.ofByte_eq_some {b : Byte} {o : Opcode} : Opcode.ofByte b = some o ↔ b = o.byte := by
  refine ⟨fun h => ?_, fun h => h ▸ o.ofByte_byte⟩
  have hfound := List.find?_some h
  exact (beq_iff_eq.1 hfound).symm

/-- The bytes that are no opcode are the unspecified ones (R90, R106). -/
theorem Opcode.ofByte_eq_none {b : Byte} : Opcode.ofByte b = none ↔ isUnspecified b = true := by
  revert b
  decide

/-- The operands of every instruction are a form of its opcode, and make the instruction again (R62, R63). -/
theorem operandForms (i : Instr) : Laws.OperandForms.Statement i := by
  cases i with
  | hlt => exact Laws.OperandForms.hlt
  | nop => exact Laws.OperandForms.nop
  | clr a => exact Laws.OperandForms.clr a
  | dmp a => exact Laws.OperandForms.dmp a
  | out ops => exact Laws.OperandForms.out ops
  | add ops => exact Laws.OperandForms.add ops
  | sub ops => exact Laws.OperandForms.sub ops
  | mul ops => exact Laws.OperandForms.mul ops
  | div ops => exact Laws.OperandForms.div ops
  | mod a b c => exact Laws.OperandForms.mod a b c
  | and ops => exact Laws.OperandForms.and ops
  | or ops => exact Laws.OperandForms.or ops
  | xor ops => exact Laws.OperandForms.xor ops
  | cmp ops => exact Laws.OperandForms.cmp ops
  | inc a => exact Laws.OperandForms.inc a
  | dec a => exact Laws.OperandForms.dec a
  | mov a b => exact Laws.OperandForms.mov a b
  | swp a b => exact Laws.OperandForms.swp a b
  | cpy ops => exact Laws.OperandForms.cpy ops
  | jmp a => exact Laws.OperandForms.jmp a
  | jal a => exact Laws.OperandForms.jal a
  | ret => exact Laws.OperandForms.ret
  | beq ops => exact Laws.OperandForms.beq ops
  | bne ops => exact Laws.OperandForms.bne ops
  | bgt ops => exact Laws.OperandForms.bgt ops
  | bge ops => exact Laws.OperandForms.bge ops
  | bie ops => exact Laws.OperandForms.bie ops
  | bde ops => exact Laws.OperandForms.bde ops
  | bao a => exact Laws.OperandForms.bao a
  | bac a => exact Laws.OperandForms.bac a
  | unspecified b => exact Laws.OperandForms.unspecified b

theorem exists_ofList_oneOrTwo {ops : List Operand} (h : ops.length ∈ [1, 2]) :
    ∃ x, OneOrTwo.ofList ops = some x ∧ x.toList = ops := by
  obtain h | h := List.mem_pair.1 h
  · obtain ⟨a, rfl⟩ := List.length_eq_one_iff.1 h
    exact ⟨.one a, rfl, rfl⟩
  · obtain ⟨a, b, rfl⟩ := List.length_eq_two.1 h
    exact ⟨.two a b, rfl, rfl⟩

theorem exists_ofList_twoOrThree {ops : List Operand} (h : ops.length ∈ [2, 3]) :
    ∃ x, TwoOrThree.ofList ops = some x ∧ x.toList = ops := by
  obtain h | h := List.mem_pair.1 h
  · obtain ⟨a, b, rfl⟩ := List.length_eq_two.1 h
    exact ⟨.two a b, rfl, rfl⟩
  · obtain ⟨a, b, c, rfl⟩ := List.length_eq_three.1 h
    exact ⟨.three a b c, rfl, rfl⟩

theorem exists_ofList_twoToFour {ops : List Operand} (h : ops.length ∈ [2, 3, 4]) :
    ∃ x, TwoToFour.ofList ops = some x ∧ x.toList = ops := by
  obtain h | h := List.mem_cons.1 h
  · obtain ⟨a, b, rfl⟩ := List.length_eq_two.1 h
    exact ⟨.two a b, rfl, rfl⟩
  obtain h | h := List.mem_pair.1 h
  · obtain ⟨a, b, c, rfl⟩ := List.length_eq_three.1 h
    exact ⟨.three a b c, rfl, rfl⟩
  · obtain ⟨a, b, c, d, rfl⟩ := List.length_eq_four.1 h
    exact ⟨.four a b c d, rfl, rfl⟩

/-- An operand list of a listed length makes an instruction with those operands (R62, R63). -/
theorem exists_assemble {o : Opcode} {ops : List Operand} (h : ops.length ∈ o.forms) :
    ∃ i, assemble o ops = some i ∧ i.head = .defined o ∧ i.operands = ops := by
  cases o with
  | hlt | nop | ret =>
    obtain rfl := List.length_eq_zero_iff.1 (List.mem_singleton.1 h)
    exact ⟨_, rfl, rfl, rfl⟩
  | clr | dmp | inc | dec | jmp | jal | bao | bac =>
    obtain ⟨a, rfl⟩ := List.length_eq_one_iff.1 (List.mem_singleton.1 h)
    exact ⟨_, rfl, rfl, rfl⟩
  | mov | swp =>
    obtain ⟨a, b, rfl⟩ := List.length_eq_two.1 (List.mem_singleton.1 h)
    exact ⟨_, rfl, rfl, rfl⟩
  | mod =>
    obtain ⟨a, b, c, rfl⟩ := List.length_eq_three.1 (List.mem_singleton.1 h)
    exact ⟨_, rfl, rfl, rfl⟩
  | out | cmp =>
    obtain ⟨x, hx, hops⟩ := exists_ofList_oneOrTwo h
    exact ⟨_, congrArg (Option.map _) hx, rfl, hops⟩
  | add | sub | and | or | xor | beq | bne | bgt | bge | bie | bde =>
    obtain ⟨x, hx, hops⟩ := exists_ofList_twoOrThree h
    exact ⟨_, congrArg (Option.map _) hx, rfl, hops⟩
  | mul | div | cpy =>
    obtain ⟨x, hx, hops⟩ := exists_ofList_twoToFour h
    exact ⟨_, congrArg (Option.map _) hx, rfl, hops⟩

theorem length_of_assembleNone {i j : Instr} {ops : List Operand} (h : assembleNone i ops = some j) :
    ops.length = 0 := by
  unfold assembleNone at h
  split at h
  · rfl
  · cases h

theorem length_of_assembleOne {mk : Operand → Instr} {i : Instr} {ops : List Operand}
    (h : assembleOne mk ops = some i) : ops.length = 1 := by
  unfold assembleOne at h
  split at h
  · rfl
  · cases h

theorem length_of_assembleTwo {mk : Operand → Operand → Instr} {i : Instr} {ops : List Operand}
    (h : assembleTwo mk ops = some i) : ops.length = 2 := by
  unfold assembleTwo at h
  split at h
  · rfl
  · cases h

theorem length_of_assembleThree {mk : Operand → Operand → Operand → Instr} {i : Instr} {ops : List Operand}
    (h : assembleThree mk ops = some i) : ops.length = 3 := by
  unfold assembleThree at h
  split at h
  · rfl
  · cases h

theorem length_of_oneOrTwo {x : OneOrTwo} {ops : List Operand} (h : OneOrTwo.ofList ops = some x) :
    ops.length ∈ [1, 2] := by
  unfold OneOrTwo.ofList at h
  split at h
  · simp
  · simp
  · cases h

theorem length_of_twoOrThree {x : TwoOrThree} {ops : List Operand} (h : TwoOrThree.ofList ops = some x) :
    ops.length ∈ [2, 3] := by
  unfold TwoOrThree.ofList at h
  split at h
  · simp
  · simp
  · cases h

theorem length_of_twoToFour {x : TwoToFour} {ops : List Operand} (h : TwoToFour.ofList ops = some x) :
    ops.length ∈ [2, 3, 4] := by
  unfold TwoToFour.ofList at h
  split at h
  · simp
  · simp
  · simp
  · cases h

/-- An operand list that makes an instruction has a listed length (R62, R63). -/
theorem length_of_assemble {o : Opcode} {ops : List Operand} {i : Instr} (h : assemble o ops = some i) :
    ops.length ∈ o.forms := by
  cases o with
  | hlt | nop | ret => exact List.mem_singleton.2 (length_of_assembleNone h)
  | clr | dmp | inc | dec | jmp | jal | bao | bac => exact List.mem_singleton.2 (length_of_assembleOne h)
  | mov | swp => exact List.mem_singleton.2 (length_of_assembleTwo h)
  | mod => exact List.mem_singleton.2 (length_of_assembleThree h)
  | out | cmp =>
    obtain ⟨x, hx, -⟩ := Option.map_eq_some_iff.1 h
    exact length_of_oneOrTwo hx
  | add | sub | and | or | xor | beq | bne | bgt | bge | bie | bde =>
    obtain ⟨x, hx, -⟩ := Option.map_eq_some_iff.1 h
    exact length_of_twoOrThree hx
  | mul | div | cpy =>
    obtain ⟨x, hx, -⟩ := Option.map_eq_some_iff.1 h
    exact length_of_twoToFour hx

/-- An opcode and an operand list make the instruction that has them (R62, R63). -/
theorem assemble_eq_some {o : Opcode} {ops : List Operand} {i : Instr} :
    assemble o ops = some i ↔ i.head = .defined o ∧ i.operands = ops := by
  constructor
  · intro h
    obtain ⟨j, hj, hhead, hops⟩ := exists_assemble (length_of_assemble h)
    obtain rfl := Option.some.inj (h.symm.trans hj)
    exact ⟨hhead, hops⟩
  · rintro ⟨hhead, rfl⟩
    obtain ⟨-, hforms, -⟩ := operandForms i
    exact (hforms o hhead).2

theorem eq_unspecified_of_head {i : Instr} {b : Byte} (h : i.head = .unspecified b) : i = .unspecified b := by
  cases i with
  | unspecified c => exact congrArg _ (Head.unspecified.inj h)
  | _ => cases h

theorem decode_unspecified {src : Source} {b : Byte} (h : src 0 = some b) (hb : isUnspecified b = true) :
    decode src = .ok (.unspecified b, 1) := by
  simp [decode, readByte, h, Opcode.ofByte_eq_none.2 hb]

/-- After a defined opcode byte comes the operand list, which makes the instruction or does not (R63). -/
theorem decode_of_assemble {src : Source} {o : Opcode} {ops : List Operand} {p : Nat} {i : Instr}
    (h : src 0 = some o.byte) (hops : decodeOperands src o.maxOps 1 = .ok (ops, p)) (hi : assemble o ops = some i) :
    decode src = .ok (i, p) := by
  simp [decode, readByte, h, Opcode.ofByte_byte, hops, hi]

theorem decode_of_not_assemble {src : Source} {o : Opcode} {ops : List Operand} {p : Nat}
    (h : src 0 = some o.byte) (hops : decodeOperands src o.maxOps 1 = .ok (ops, p)) (hi : assemble o ops = none) :
    decode src = .error .operandCount := by
  simp [decode, readByte, h, Opcode.ofByte_byte, hops, hi]

theorem wf_unspecified {b : Byte} : (Instr.unspecified b).wf = true ↔ isUnspecified b = true := by
  simp [Instr.wf, Instr.opcodeOk, Instr.operands]

theorem wf_defined {i : Instr} {o : Opcode} (h : i.head = .defined o) :
    i.wf = true ↔ ∀ a ∈ i.operands, a.wf = true := by
  cases i with
  | unspecified b => cases h
  | _ => simp [Instr.wf, Instr.opcodeOk]

theorem spells_unspecified {bytes : List Byte} {b : Byte} : spells bytes (.unspecified b) ↔ bytes = [b] := by
  simp [spells, Instr.operands, spellsOperands, Instr.opcodeByte, Instr.head, Instr.terminator, Instr.maxOps]

/-- The bytes of a defined instruction are its opcode byte and its operand list (R60, R63). -/
theorem spells_defined {bytes : List Byte} {i : Instr} {o : Opcode} (h : i.head = .defined o) :
    i.wf = true ∧ spells bytes i ↔ ∃ y, bytes = o.byte :: y ∧ spellsList o.maxOps y i.operands := by
  have hbyte : i.opcodeByte = o.byte := by simp [Instr.opcodeByte, h]
  have hmax : i.maxOps = o.maxOps := by simp [Instr.maxOps, h]
  obtain ⟨hlen, -, -⟩ := operandForms i
  rw [wf_defined h, spells, Instr.terminator, hbyte, hmax]
  rw [hmax] at hlen
  constructor
  · rintro ⟨hops, x, hx, rfl⟩
    exact ⟨_, rfl, hlen, hops, x, hx, rfl⟩
  · rintro ⟨_, rfl, -, hops, x, hx, rfl⟩
    exact ⟨hops, x, hx, rfl⟩

/-- The decoder answers an instruction exactly where bytes stand that spell it, and it is well formed (R60 to R84). -/
theorem decode_eq_ok {src : Source} {i : Instr} {n : Nat} :
    decode src = .ok (i, n) ↔ ∃ bytes, (i.wf = true ∧ spells bytes i) ∧ Stands src 0 bytes ∧ bytes.length = n := by
  constructor
  · intro h
    obtain ⟨⟨b, p⟩, hread, hrest⟩ := bind_eq_ok.1 h
    obtain ⟨h0, rfl⟩ := readByte_eq_ok.1 hread
    cases ho : Opcode.ofByte b with
    | none =>
      have hb := Opcode.ofByte_eq_none.1 ho
      obtain ⟨rfl, rfl⟩ := Prod.mk.inj (Except.ok.inj ((decode_unspecified h0 hb).symm.trans h))
      exact ⟨[b], ⟨wf_unspecified.2 hb, spells_unspecified.2 rfl⟩, stands_singleton.2 h0, rfl⟩
    | some o =>
      obtain rfl := Opcode.ofByte_eq_some.1 ho
      simp only [ho] at hrest
      obtain ⟨⟨ops, p⟩, hops, -⟩ := bind_eq_ok.1 hrest
      cases hi : assemble o ops with
      | none => cases (decode_of_not_assemble h0 hops hi).symm.trans h
      | some j =>
        obtain ⟨rfl, rfl⟩ := Prod.mk.inj (Except.ok.inj ((decode_of_assemble h0 hops hi).symm.trans h))
        obtain ⟨hhead, rfl⟩ := assemble_eq_some.1 hi
        obtain ⟨y, hy, hst, rfl⟩ := (reads_decodeOperands src o.maxOps 1 _ p).1 hops
        exact ⟨_, (spells_defined hhead).2 ⟨y, rfl, hy⟩, stands_cons.2 ⟨h0, hst⟩, Nat.add_comm ..⟩
  · rintro ⟨bytes, hs, hst, rfl⟩
    cases hhead : i.head with
    | unspecified b =>
      obtain rfl := eq_unspecified_of_head hhead
      obtain ⟨hwf, hs⟩ := hs
      obtain rfl := spells_unspecified.1 hs
      exact decode_unspecified (stands_singleton.1 hst) (wf_unspecified.1 hwf)
    | defined o =>
      obtain ⟨y, rfl, hy⟩ := (spells_defined hhead).1 hs
      obtain ⟨h0, hsy⟩ := stands_cons.1 hst
      have hops := (reads_decodeOperands src o.maxOps 1 i.operands _).2 ⟨y, hy, hsy, rfl⟩
      rw [decode_of_assemble h0 hops (assemble_eq_some.2 ⟨hhead, rfl⟩), List.length_cons, Nat.add_comm]

/-! ## The encoder's spelling (log 14) -/

theorem namesReg_field_extra (r : Reg) : namesReg r.field r.extra r := by
  cases r <;> simp [namesReg, Reg.field, Reg.extra]

/-- An address or a displacement fits the fewest bytes. -/
theorem Size.lt_of_fitting (v : Word) : v.toNat < 2 ^ (8 * (Size.fitting v).bytes) := by
  have hv := v.isLt
  unfold Size.fitting
  split_ifs <;> simpa [Size.bytes]

theorem spellsBody_encodeBody (d : Body) : spellsBody (encodeBody d) d := by
  cases d with
  | nyb v | imm n v => rfl
  | memInd a | abs a => exact ⟨_, Size.lt_of_fitting a, rfl⟩
  | reg r n | regInd r n | postInc r n | preDec r n | preInc r n | postDec r n =>
    exact ⟨_, _, namesReg_field_extra r, rfl⟩
  | index r r' => exact ⟨_, _, _, _, namesReg_field_extra r, namesReg_field_extra r', rfl⟩
  | disp r v => exact ⟨_, _, _, namesReg_field_extra r, Size.lt_of_fitting v, rfl⟩

theorem spellsDesc_encodeDesc (d : Desc) : spellsDesc (encodeDesc d) d := by
  cases d with
  | plain d => exact spellsBody_encodeBody d
  | scale r n inner => exact ⟨_, _, _, namesReg_field_extra r, spellsBody_encodeBody inner, rfl⟩

theorem spellsOperand_encodeOperand (o : Operand) : spellsOperand (encodeOperand o) o := by
  obtain ⟨sx, d⟩ := o
  cases sx with
  | false => exact ⟨0, _, by decide, by simp, spellsDesc_encodeDesc d, rfl⟩
  | true => exact ⟨1, _, by decide, by simp, spellsDesc_encodeDesc d, rfl⟩

theorem spellsOperands_flatMap (ops : List Operand) : spellsOperands (ops.flatMap encodeOperand) ops := by
  induction ops with
  | nil => rfl
  | cons o rest ih => exact ⟨_, _, spellsOperand_encodeOperand o, ih, rfl⟩

theorem spells_encode (i : Instr) : spells (encode i) i :=
  ⟨_, spellsOperands_flatMap i.operands, rfl⟩

theorem stands_getElem (bytes rest : List Byte) : Stands (fun k => (bytes ++ rest)[k]?) 0 bytes := by
  intro k hk
  dsimp only
  rw [Nat.zero_add, List.getElem?_append_left hk]

end Sys2Proof

open Sys2Proof Sys2Proof.Machine

/-- Settles O1: the decoder answers an instruction wherever bytes stand that spell it, and the encoder's bytes do. -/
theorem decodeOfEncodeIsTheInstruction : Obligations.DecodeOfEncodeIsTheInstruction := by
  have hdecode (i : Instr) (bytes rest : List Byte) (hwf : i.wf = true) (hs : spells bytes i) :
      decodeBytes (bytes ++ rest) = .ok (i, bytes.length) :=
    decode_eq_ok.2 ⟨bytes, ⟨hwf, hs⟩, stands_getElem bytes rest, rfl⟩
  exact ⟨hdecode, fun i rest hwf => ⟨spells_encode i, hdecode i _ rest hwf (spells_encode i)⟩⟩

/-- Settles O2: the decoder answers an instruction only where bytes stand that spell it, and it is well formed. -/
theorem decodedInstructionIsWellFormed : Obligations.DecodedInstructionIsWellFormed := by
  intro src i n h
  obtain ⟨bytes, ⟨hwf, hs⟩, hst, rfl⟩ := decode_eq_ok.1 h
  exact ⟨hwf, bytes, rfl, hs, fun k hk => by rw [← hst k hk, Nat.zero_add]⟩

end

section
/-! SUPPORT. The number of operands, the shapes of a slot, and the bytes of a slot that have no meaning (R62 to R85). -/

namespace Sys2Proof

open Sys2Proof.Machine

section
variable {src : Source} {f : BitVec 2} {b : Byte} {p q : Nat} {e : DecodeError}

/-! ## Bytes without a meaning (R65, R68, R71, R82, R85) -/

theorem readReg_of_badReg (h : badReg src f p) : readReg src f p = .error .reservedEncoding := by
  obtain ⟨rfl, b, hp, hb⟩ := h
  rw [readReg_three, readByte_eq_ok.2 ⟨hp, rfl⟩]
  exact if_neg hb

theorem readReg_of_regThen (h : regThen src f p q) : ∃ r, readReg src f p = .ok (r, q) := by
  obtain ⟨hf, rfl⟩ | ⟨rfl, rfl, b, hp, hb⟩ := h
  · obtain rfl | rfl | rfl | rfl := field_cases f
    · exact ⟨_, readReg_zero src q⟩
    · exact ⟨_, readReg_one src q⟩
    · exact ⟨_, readReg_two src q⟩
    · exact absurd rfl hf
  · rw [readReg_three, readByte_eq_ok.2 ⟨hp, rfl⟩]
    exact ⟨_, if_pos hb⟩

/-- Where no Scale may stand, its type byte and a control code have no meaning (R82). -/
theorem decodeBody_malformed (src : Source) (p : Nat) (h : modeBits b = 0 ∨ modeBits b = 0b1011) :
    decodeBody src b p = .error .malformedOperand := by
  obtain h | h := h <;> simp [decodeBody, h]

theorem decodeBody_of_badBody (h : badBody src b p e) : decodeBody src b p = .error e := by
  obtain ⟨rfl, hmode | hmode⟩ | ⟨rfl, ⟨hmode, hfixed⟩ | ⟨hmode, hreg⟩ | ⟨hmode, q, hthen, hreg⟩⟩ := h
  · simp [decodeBody, hmode]
  · simp [decodeBody, hmode]
  · have hrequire : requireFixed b = .error .reservedEncoding := if_neg hfixed
    obtain hmode | hmode | hmode : modeBits b = 0b0010 ∨ modeBits b = 0b0101 ∨ modeBits b = 0b1000 := by
      simpa [fixedModes] using hmode
    all_goals simp [decodeBody, hmode, hrequire]
  · have hread := readReg_of_badReg hreg
    simp only [regModes, List.mem_cons, List.not_mem_nil, or_false] at hmode
    obtain hmode | hmode | hmode | hmode | hmode | hmode | hmode | hmode := hmode
    all_goals simp [decodeBody, hmode, hread]
  · obtain ⟨r, hr⟩ := readReg_of_regThen hthen
    simp [decodeBody, hmode, hr, readReg_of_badReg hreg]

/-- A type byte without a meaning is no control code and no Scale's: these give another reason. -/
theorem mode_of_badBody (h : badBody src b p e) : ¬ (modeBits b = 0 ∨ modeBits b = 0b1011) := by
  intro hmode
  obtain rfl := Except.error.inj ((decodeBody_malformed src p hmode).symm.trans (decodeBody_of_badBody h))
  obtain ⟨h, -⟩ | ⟨h, -⟩ := h <;> cases h

theorem decodeDesc_of_badBody (h : badBody src b p e) : decodeDesc src b p = .error e := by
  rw [decodeDesc_plain src p fun hmode => mode_of_badBody h (.inr hmode), decodeBody_of_badBody h]
  rfl

theorem decodeDesc_of_badReg (hb : modeBits b = 0b1011) (h : badReg src (field1 b) p) :
    decodeDesc src b p = .error .reservedEncoding := by
  rw [decodeDesc_scale src p hb, readReg_of_badReg h]
  rfl

/-- A Scale fails as its second operand does (R82). -/
theorem decodeDesc_of_inner {c : Byte} (hb : modeBits b = 0b1011) (h : regThen src (field1 b) p q) (hc : src q = some c)
    (he : decodeBody src c (q + 1) = .error e) : decodeDesc src b p = .error e := by
  obtain ⟨r, hr⟩ := readReg_of_regThen h
  rw [decodeDesc_scale src p hb, hr, ok_bind]
  dsimp only
  rw [readByte_eq_ok.2 ⟨hc, rfl⟩, ok_bind]
  dsimp only
  rw [he]
  rfl

theorem skipControl_null (src : Source) (fuel : Nat) (sx : Bool) (p : Nat) :
    skipControl src fuel sx 0x00 p = .error .malformedOperand := by
  cases fuel <;> rfl

theorem skipControl_reserved (src : Source) (fuel : Nat) (sx : Bool) (p : Nat) (hmode : modeBits b = 0)
    (hlow : 2 ≤ (lowNibble b).toNat) : skipControl src fuel sx b p = .error .reservedControlCode := by
  have h0 : lowNibble b ≠ 0b0000 := by rintro h; simp [h] at hlow
  have h1 : lowNibble b ≠ 0b0001 := by rintro h; simp [h] at hlow
  unfold skipControl
  rw [if_neg (not_not.2 hmode), if_neg h1, if_neg h0]

/-- After at most 2^32 sign-extend bytes the slot fails as the descriptor does that a type byte begins. -/
theorem decodeSlot_of_decodeDesc_error {m : Nat} (hm : m ≤ 2 ^ 32) (h : Stands src p (List.replicate m 0x01 ++ [b]))
    (hb : modeBits b ≠ 0) (he : decodeDesc src b (p + m + 1) = .error e) : decodeSlot src p = .error e := by
  rw [decodeSlot_of_typeByte hm h hb, he]
  rfl

end

theorem bind_ok_eq_map {α β : Type} (x : Except DecodeError α) (f : α → β) :
    (x >>= fun a => .ok (f a)) = x.map f := by
  cases x <;> rfl

end Sys2Proof

open Sys2Proof Sys2Proof.Machine

/-- Settles O5: `assemble` answers an instruction exactly for the listed lengths. -/
theorem operandCountDecides : Obligations.OperandCountDecides := by
  intro src o ops p h0 hops
  refine ⟨fun hlen => ?_, fun hlen => ?_⟩
  · obtain ⟨i, hi, hhead, hoperands⟩ := exists_assemble hlen
    exact ⟨i, decode_of_assemble h0 hops hi, hhead, hoperands⟩
  · refine decode_of_not_assemble h0 hops (Option.eq_none_iff_forall_ne_some.2 fun i hi => hlen ?_)
    exact length_of_assemble hi

/-- Settles O6: the byte after the sign-extend bytes is a type byte, and their number decides the mark alone. -/
theorem operandSlotShapes : Obligations.OperandSlotShapes := by
  refine fun src p => ⟨decodeSlot_null, fun b hb hmode => ?_, fun m b hpos hm hones hb hmode => ?_⟩
  · rw [decodeSlot_of_typeByte (m := 0) (Nat.zero_le _) (stands_singleton.2 hb) hmode]
    exact bind_ok_eq_map _ _
  · have hst := stands_append.2 ⟨stands_replicate.2 hones, stands_singleton.2 (by rwa [List.length_replicate])⟩
    rw [decodeSlot_of_typeByte hm hst hmode, decide_eq_true (show 0 < m from hpos)]
    exact bind_ok_eq_map _ _

/-- Settles O7: a control code stops the loop over sign-extend bytes, and any other byte begins a descriptor, which fails
for its own reason. -/
theorem reservedOperandBytesFault : Obligations.ReservedOperandBytesFault := by
  intro src p m b hm hones hb
  have hst := stands_append.2 ⟨stands_replicate.2 hones, stands_singleton.2 (by rwa [List.length_replicate])⟩
  refine ⟨fun hmode hlow => ?_, fun hpos hnull => ?_, fun e he => ?_, fun hmode => ?_⟩
  · rw [decodeSlot_of_signExtends hm hst (by rintro - rfl; exact absurd hlow (by decide)),
      skipControl_reserved src _ _ _ hmode hlow]
    rfl
  · subst hnull
    rw [decodeSlot_of_signExtends hm hst (by omega), skipControl_null]
    rfl
  · exact decodeSlot_of_decodeDesc_error hm hst (fun h => mode_of_badBody he (.inl h)) (decodeDesc_of_badBody he)
  · have hslot := fun e => decodeSlot_of_decodeDesc_error (e := e) hm hst (by rw [hmode]; decide)
    refine ⟨fun hbad => hslot _ (decodeDesc_of_badReg hmode hbad), fun q c hthen hc => ⟨fun h => ?_, fun e he => ?_⟩⟩
    · exact hslot _ (decodeDesc_of_inner hmode hthen hc (decodeBody_malformed src _ h))
    · exact hslot _ (decodeDesc_of_inner hmode hthen hc (decodeBody_of_badBody he))

/-- Settles O9: the bytes at PC are a spelling of the instruction, so the fetch decodes them to it. -/
theorem encodedInstructionAtPcRuns : Obligations.EncodedInstructionAtPcRuns := by
  intro s i hs hwf hbytes
  have hst : Stands (fetchSource s) 0 (encode i) := fun k hk => by
    obtain ⟨himp, hbyte⟩ := hbytes k hk
    simp [fetchSource, himp, hbyte]
  have hfetch : fetch s = .ok (i, (encode i).length) := decode_eq_ok.2 ⟨_, ⟨hwf, spells_encode i⟩, hst, rfl⟩
  exact (stepRunsTheDecodedInstruction s i _ hs hfetch).1

/-- Settles O3: eleven runs of the decoder. -/
theorem workedEncodingsDecode : Obligations.WorkedEncodingsDecode := by
  unfold Obligations.WorkedEncodingsDecode
  decide

/-- Settles O4: the rows of the table one by one, and all 256 bytes. -/
theorem opcodeMapIsComplete : Obligations.OpcodeMapIsComplete := by
  refine ⟨by decide, fun o => ?_, fun b => ⟨?_, Opcode.ofByte_eq_none⟩⟩
  · cases o <;> decide
  · revert b
    decide

end

section
/-! SUPPORT. The faults of decoding and of the class check, and that no later stage gives one of the latter. -/

namespace Sys2Proof.Machine

/-! ## Faults of decoding and of the class check (R89, R160, R161) -/

theorem step_of_fetch_error {s : State} {e : DecodeError} (hs : s.running) (h : fetch s = .error e) :
    step s = decodeFailure e := by
  simp [step, hs.1, hs.2, h]

theorem settle_of_fault {s : State} {r : Fault} (h : step s = .fault r) : settle s = { s with fault := some r } := by
  simp [settle, h, State.raise]

/-- Requirements are checked in order (R89). -/
theorem checkOperands_append (p : Params) (l l' : List (Operand × Requirement)) :
    checkOperands p (l ++ l') = checkOperands p l >>= fun _ => checkOperands p l' := by
  induction l with
  | nil => rfl
  | cons x rest ih =>
    rw [List.cons_append, checkOperands, checkOperands, ih]
    cases checkOperand p x.1 x.2 <;> rfl

/-- The first operand that fails gives the reason (R89). -/
theorem checkOperands_first_error {p : Params} {before after : List (Operand × Requirement)} {o : Operand}
    {q : Requirement} {r : Fault} (hbefore : ∀ x ∈ before, checkOperand p x.1 x.2 = .ok ())
    (h : checkOperand p o q = .error r) : checkOperands p (before ++ (o, q) :: after) = .error r := by
  rw [checkOperands_append, checkOperands_eq_ok.2 hbefore, ok_bind, checkOperands, h]
  rfl

theorem memRead_eq_error {a : Word} {n : Nat} {s : State} {r : Fault} (h : memRead a n s = .error r) :
    r = .memoryAccess := by
  unfold memRead at h
  split at h
  · cases h
  · exact (Except.error.inj h).symm

/-- An operand that has a class fails to resolve at the memory map alone (R41, R86). -/
theorem resolve_eq_error {o : Operand} {s : State} {r : Fault} (h : resolve o s = .error r)
    (ho : operandClass s.params o ≠ none) : r = .memoryAccess := by
  obtain ⟨sx, d⟩ := o
  obtain h | ⟨_, -, h⟩ := bind_eq_error.1 h
  swap
  · cases h
  cases d with
  | plain b =>
    cases b with
    | memInd a =>
      obtain h | ⟨_, -, h⟩ := bind_eq_error.1 h
      · exact memRead_eq_error h
      · cases h
    | _ => cases h
  | scale q n inner =>
    simp only [resolveDesc] at h
    split at h
    · next hrule => simp [operandClass, hrule] at ho
    · dsimp only [resolveScale] at h
      split at h
      · cases h
      · exact (Except.error.inj h).symm

theorem resolveAll_eq_error {ops : List Operand} {s : State} {r : Fault} (h : resolveAll ops s = .error r)
    (hops : ∀ o ∈ ops, operandClass s.params o ≠ none) : r = .memoryAccess := by
  induction ops generalizing s with
  | nil => cases h
  | cons o rest ih =>
    obtain ⟨ho, hrest⟩ := List.forall_mem_cons.1 hops
    obtain h | ⟨⟨l, t⟩, hl, h⟩ := bind_eq_error.1 h
    · exact resolve_eq_error h ho
    · obtain h | ⟨_, -, h⟩ := bind_eq_error.1 h
      · exact ih h (by rwa [params_of_resolve hl])
      · cases h

/-- An instruction that has passed its class check meets the memory map and a zero divisor alone (R163). -/
theorem fault_of_classCheck_ok {i : Instr} {s : State} {r : Fault} (hc : classCheck s.params i = .ok ())
    (h : exec i s = .fault r) : r = .memoryAccess ∨ r = .divideByZero := by
  have hstages := execStages i s
  cases hr : resolveAll i.operands s with
  | error r' =>
    rw [hstages.operand hc r' hr] at h
    cases h
    exact .inl (resolveAll_eq_error hr (operandClass_of_classCheck hc))
  | ok x =>
    have hend := hstages.rest hc x.1 x.2 hr
    rw [h] at hend
    cases hend with
    | goesOn ho _ => exact absurd rfl (ho r)
    | offMap _ => exact .inl rfl
    | byZero _ _ => exact .inr rfl

end Sys2Proof.Machine

open Sys2Proof Sys2Proof.Machine

/-- Settles O10: the first two branches of `step`. -/
theorem haltedOrFaultedTakesNoStep : Obligations.HaltedOrFaultedTakesNoStep := by
  refine fun s => ⟨fun r h => ?_, fun hfault hhalted => ?_⟩
  · simp [step, h]
  · simp [step, hfault, hhalted]

/-- Settles O11: a fetch that fails is the fault of its name, and the class check is the first stage of an execution. -/
theorem earlyFaultsGoByTheirNames : Obligations.EarlyFaultsGoByTheirNames := by
  refine fun s hs => ⟨fun e r hr hfetch => ?_, fun i len r hfetch hc => ?_⟩
  · have hname : decodeFailure e = .fault r := by
      fin_cases hr <;> rfl
    have hstep := (step_of_fetch_error hs hfetch).trans hname
    exact ⟨hstep, settle_of_fault hstep⟩
  · have hstep : step s = .fault r :=
      (stepRunsTheDecodedInstruction s i len hs hfetch).1.trans ((execStages i (s.advancePc len)).check r hc)
    exact ⟨classCheck_eq_error hc, hstep, settle_of_fault hstep⟩

/-- Settles O12: the class check is the first stage of an execution, and the later ones fault for other reasons. -/
theorem classFaultIsTheClassCheck : Obligations.ClassFaultIsTheClassCheck := by
  refine ⟨fun i s r hr => ⟨fun h => ?_, (execStages i s).check r⟩, fun P before after o q hbefore => ⟨?_, ?_⟩,
    fun P sx r n inner b => ⟨rfl, ?_, ?_⟩⟩
  · cases hc : classCheck s.params i with
    | error r' =>
      have h' := (execStages i s).check r' hc
      exact congrArg _ (Host.Outcome.fault.inj (h'.symm.trans h))
    | ok _ =>
      obtain rfl | rfl := hr <;> obtain h | h := fault_of_classCheck_ok hc h <;> cases h
  · intro hcls
    exact checkOperands_first_error hbefore (by simp [checkOperand, hcls])
  · intro c hcls hmeets
    exact checkOperands_first_error hbefore (by simp [checkOperand, hcls, hmeets])
  · intro hrule
    simp [operandClass, hrule]
  · intro hrule
    simp [operandClass, hrule]

end

section
/-! SUPPORT. What an operand's location is, and what it reads and stores, bit by bit (R72 to R88). -/

namespace Sys2Proof.Machine

theorem widen_false_toNat {w : Nat} (hw : w ≤ 32) (raw : Word) : (widen false w raw).toNat = raw.toNat % 2 ^ w := by
  have hlt : raw.toNat % 2 ^ w < 2 ^ 32 :=
    (Nat.mod_lt _ (Nat.two_pow_pos w)).trans_le (Nat.pow_le_pow_right (by decide) hw)
  rw [widen, if_neg Bool.false_ne_true, BitVec.toNat_setWidth, BitVec.toNat_setWidth, Nat.mod_eq_of_lt hlt]

/-- Under the mark the raw bits are read in two's complement (R7, R87). -/
theorem widen_true_toInt {w : Nat} (hpos : 0 < w) (hw : w ≤ 32) (raw : Word) :
    (widen true w raw).toInt =
      if raw.toNat % 2 ^ w < 2 ^ (w - 1) then ((raw.toNat % 2 ^ w : Nat) : Int)
      else ((raw.toNat % 2 ^ w : Nat) : Int) - 2 ^ w := by
  have hhalf : 2 ^ w = 2 * 2 ^ (w - 1) := by
    rw [← Nat.pow_succ', Nat.succ_eq_add_one, Nat.sub_add_cancel hpos]
  rw [widen, if_pos rfl, BitVec.toInt_signExtend_of_le hw, BitVec.toInt_eq_toNat_cond, BitVec.toNat_setWidth]
  congr 1
  rw [eq_iff_iff]
  omega

/-- The mask of `n` bytes has their bits. -/
theorem getLsbD_lowMask (n : Size) (j : Nat) : (lowMask n).getLsbD j = decide (j < 8 * n.bytes) := by
  have hn := n.bytes_le
  rw [lowMask, BitVec.getLsbD_ofNat, Nat.testBit_two_pow_sub_one, Bool.and_eq_right_iff_imp, decide_eq_true_iff,
    decide_eq_true_iff]
  omega

/-- A store of `n` bytes to a register takes their bits from the value and the others from the register (R88). -/
theorem getLsbD_mergeLow (n : Size) (old v : Word) (j : Nat) :
    (mergeLow n old v).getLsbD j = if j < 8 * n.bytes then v.getLsbD j else old.getLsbD j := by
  simp only [mergeLow, BitVec.getLsbD_or, BitVec.getLsbD_and, BitVec.getLsbD_not, getLsbD_lowMask]
  by_cases hj : j < 8 * n.bytes
  · simp [hj]
  · simpa [hj] using fun h => BitVec.lt_of_getLsbD h

end Sys2Proof.Machine

open Sys2Proof Sys2Proof.Machine

/-- Settles O18: each mode is one branch of `Resolve`; Memory Indirect reads its pointer first, and what `SCALE_RESOLVE`
reads decides whether it answers. -/
theorem addressModesResolve : Obligations.AddressModesResolve := by
  intro sx s r r' n a v y inner
  refine ⟨rfl, rfl, rfl, rfl, fun w hw => ?_, fun f hf => ?_, rfl, rfl, rfl, rfl, rfl, rfl, rfl, fun hrule => ?_,
    fun hrule => ⟨fun hreads => ?_, fun z hz himp => ?_⟩, rfl, rfl, rfl, ?_, rfl⟩
  · simp [resolve, resolveDesc, resolveBody, hw]
  · simp [resolve, resolveDesc, resolveBody, hf]
  · simp [resolve, resolveDesc, hrule]
  · simp [resolve, resolveDesc, hrule, resolveScale, List.all_eq_true.2 hreads]
  · have hall : (Config.scaleResolve r n inner s.reg s.byteAt).reads.all s.implemented = false :=
      List.all_eq_false.2 ⟨z, hz, by simp [himp]⟩
    simp [resolve, resolveDesc, hrule, resolveScale, hall]
  · cases n <;> rfl

/-- Settles O19: the raw bits fill the low part, and the mark says how the high part is filled. -/
theorem valWidensByTheMark : Obligations.ValWidensByTheMark := by
  refine ⟨fun w raw hw => ?_, fun sx s w v a r n => ⟨rfl, rfl, fun raw hraw => ?_, fun f hf => ?_⟩⟩
  · have hle : w ≤ 32 := by omega
    exact ⟨widen_false_toNat hle raw, widen_true_toInt (by omega) hle raw⟩
  · simp [val, hraw]
  · simp [val, hf]

/-- Settles O20: a store to a register writes that one register, with its low bits merged in. -/
theorem storeTruncatesToItsLocation : Obligations.StoreTruncatesToItsLocation := by
  refine fun sx s v a r n => ⟨⟨_, rfl, fun j => ?_, fun q hq => s.reg_setReg_ne _ hq, rfl⟩, rfl⟩
  rw [State.reg_setReg_same, getLsbD_mergeLow]

end

section
/-! SUPPORT. The step of an instruction that is its opcode byte alone, and the step whose opcode byte cannot be fetched
(R63, R94). -/

namespace Sys2Proof.Machine

/-- A step at an implemented byte that is a whole instruction runs it, with PC advanced by one (R94). -/
theorem step_of_encode_singleton {s : State} {i : Instr} {b : Byte} (hs : s.running) (hwf : i.wf = true)
    (henc : encode i = [b]) (himp : s.implemented (s.reg .pc) = true) (hbyte : s.byteAt (s.reg .pc) = b) :
    step s = exec i (s.advancePc 1) := by
  have hstep := encodedInstructionAtPcRuns s i hs hwf
  rw [henc] at hstep
  refine hstep fun k hk => ?_
  obtain rfl : k = 0 := by simpa using hk
  simp [himp, hbyte]

/-- A step at an address that is not implemented faults: the opcode byte cannot be fetched (R41, R63). -/
theorem step_of_pc_not_implemented {s : State} (hs : s.running) (himp : s.implemented (s.reg .pc) = false) :
    step s = .fault .memoryAccess := by
  have hsource : fetchSource s 0 = none := by simp [fetchSource, himp]
  have hread : readByte (fetchSource s) 0 = .error .unreadable := by simp [readByte, hsource]
  have hfetch : fetch s = .error .unreadable := by
    rw [fetch, decode, hread]
    rfl
  exact step_of_fetch_error hs hfetch

end Sys2Proof.Machine

open Sys2Proof Sys2Proof.Machine

/-- Settles O21: HLT is its opcode byte alone, and `step` looks at the halted bit before it fetches. -/
theorem hltHalts : Obligations.HltHalts := by
  refine fun s => ⟨rfl, fun hs himp hbyte => ⟨?_, ?_⟩, step_of_pc_not_implemented⟩
  · exact step_of_encode_singleton (i := .hlt) hs rfl rfl himp hbyte
  · exact (haltedOrFaultedTakesNoStep (s.advancePc 1).halt).2 hs.2 rfl

/-- Settles O22: NOP is its opcode byte alone and has no effect after the advance of PC. -/
theorem nopOnlyAdvances : Obligations.NopOnlyAdvances := by
  refine fun s => ⟨rfl, fun hs himp hbyte => ?_, step_of_pc_not_implemented⟩
  exact step_of_encode_singleton (i := .nop) hs rfl rfl himp hbyte

/-- Settles O23: the ranges are those that `isUnspecified` tests, and an unspecified opcode is its byte alone, with no
effect after the advance of PC. -/
theorem unspecifiedOpcodesOnlyAdvance : Obligations.UnspecifiedOpcodesOnlyAdvance := by
  refine ⟨fun b => ?_, fun s b => ⟨rfl, fun hs himp hbyte hb => ?_⟩⟩
  · have hlt := b.isLt
    simp only [isUnspecified, Bool.or_eq_true, Bool.and_eq_true, decide_eq_true_eq, List.mem_append, List.mem_range'_1]
    omega
  · exact step_of_encode_singleton hs (wf_unspecified.2 hb) rfl himp hbyte

end

section
/-! SUPPORT. What CLR, DMP and OUT do, given what the stages before their effect answer (R102 to R104). -/

open Sys2Proof Sys2Proof.Machine

/-- Settles O24: the store is the last stage of CLR. -/
theorem clrStoresZero : Obligations.ClrStoresZero := by
  intro a s s1 t l hc hr hstore
  change execClr a s = _
  simp only [execClr, hc, hr, hstore, ok_bind, finish_ok]

/-- Settles O25: DMP appends to the trace of the state that resolving its operand leaves, which keeps the trace. -/
theorem dmpAppendsToTheTrace : Obligations.DmpAppendsToTheTrace := by
  intro a s s1 l v hc hr hv
  have hexec : execDmp a s = .next (s1.dump v) := by simp [execDmp, hc, hr, hv]
  rw [← (sameRecords_of_dataOps (dataOps_resolve hr)).trace]
  exact hexec

/-- Settles O26: OUT appends to the output of the state that resolving its operands leaves, which keeps the output. -/
theorem outSendsToItsPort : Obligations.OutSendsToItsPort := by
  constructor
  · intro a s s1 l v hc hr hv
    have hexec : execOut (.one a) s = .next (s1.send 0 v) := by simp [execOut, hc, hr, hv]
    rw [← (sameRecords_of_dataOps (dataOps_resolve hr)).output]
    exact hexec
  · intro a b s s1 l1 l2 v port hc hr hv hport
    have hexec : execOut (.two a b) s = .next (s1.send port v) := by simp [execOut, hc, hr, hv, hport]
    rw [← (sameRecords_of_dataOps (dataOps_resolve2 hr)).output]
    exact hexec

end

section
/-! SUPPORT. The arithmetic of MUL, DIV and MOD: the product and its parts (R113), and quotient and remainder as the
library's division of bit vectors (R122). -/

namespace Sys2Proof.Machine

/-! ## The product (R113) -/

/-- The product of two signed words fits 64 bits (R113). -/
theorem toInt_product (x y : Word) : (product true x y).toInt = x.toInt * y.toInt := by
  have hlow : -2 ^ 62 ≤ x.toInt * y.toInt := BitVec.le_toInt_mul_toInt
  have hhigh : x.toInt * y.toInt ≤ 2 ^ 62 := BitVec.toInt_mul_toInt_le
  exact BitVec.toInt_ofInt_eq_self (by decide) (by omega) (by omega)

/-- The product of two unsigned words fits 64 bits (R113). -/
theorem toNat_product (x y : Word) : (product false x y).toNat = x.toNat * y.toNat :=
  (BitVec.toNat_ofNat ..).trans (Nat.mod_eq_of_lt BitVec.toNat_mul_toNat_lt)

/-- The low part of an integer in two's complement is the integer in fewer bits. -/
theorem setWidth_ofInt_of_le {v w : Nat} (h : v ≤ w) (z : Int) : (BitVec.ofInt w z).setWidth v = BitVec.ofInt v z := by
  have hdvd : ((2 ^ v : Nat) : Int) ∣ ((2 ^ w : Nat) : Int) := Int.natCast_dvd_natCast.2 (Nat.pow_dvd_pow 2 h)
  have hpos : ((2 ^ w : Nat) : Int) ≠ 0 := Int.natCast_ne_zero.2 (Nat.two_pow_pos w).ne'
  apply BitVec.eq_of_toNat_eq
  rw [BitVec.toNat_setWidth, BitVec.toNat_ofInt, BitVec.toNat_ofInt, ← Int.emod_emod_of_dvd z hdvd,
    Int.toNat_emod (Int.emod_nonneg z hpos) (Int.natCast_nonneg _), Int.toNat_natCast]

/-- The low word of the product is the product of the words, signed or not (R113, D21). -/
theorem setWidth_product (signed : Bool) (x y : Word) : (product signed x y).setWidth 32 = x * y := by
  cases signed with
  | true => rw [product, if_pos rfl, setWidth_ofInt_of_le (by decide), BitVec.ofInt_mul, BitVec.ofInt_toInt,
      BitVec.ofInt_toInt]
  | false =>
    rw [product, if_neg Bool.false_ne_true, BitVec.setWidth_ofNat_of_le (by decide), BitVec.ofNat_mul,
      BitVec.ofNat_toNat, BitVec.ofNat_toNat, BitVec.setWidth_eq, BitVec.setWidth_eq]

theorem extractLsb'_product (signed : Bool) (x y : Word) : (product signed x y).extractLsb' 0 32 = x * y := by
  rw [← BitVec.setWidth_eq_extractLsb' (by decide), setWidth_product]

/-! ## Quotient and remainder (R122) -/

/-- Signed, `DivRem` is the division of bit vectors that rounds toward zero (R122). -/
theorem divRem_signed (x y : Word) : divRem true x y = (x.sdiv y, x.srem y) := by
  refine Prod.ext (BitVec.eq_of_toInt_eq ?_) (BitVec.eq_of_toInt_eq ?_)
  · rw [BitVec.toInt_sdiv]
    exact BitVec.toInt_ofInt _
  · have hrem : x.toInt - x.toInt.tdiv y.toInt * y.toInt = (x.srem y).toInt := by
      rw [BitVec.toInt_srem, Int.tmod_def, mul_comm]
    rw [← BitVec.ofInt_toInt (x := x.srem y), ← hrem]
    rfl

/-- Unsigned, `DivRem` is the division of bit vectors as natural numbers (R122). -/
theorem divRem_unsigned (x y : Word) : divRem false x y = (x / y, x % y) := by
  refine Prod.ext (BitVec.eq_of_toNat_eq ?_) (BitVec.eq_of_toNat_eq ?_)
  · have hlt : x.toNat / y.toNat < 2 ^ 32 := (Nat.div_le_self ..).trans_lt x.isLt
    rw [BitVec.toNat_udiv]
    exact (BitVec.toNat_ofNat ..).trans (Nat.mod_eq_of_lt hlt)
  · have hrem : x.toNat - x.toNat / y.toNat * y.toNat = x.toNat % y.toNat := by
      rw [Nat.mod_def, mul_comm]
    have hlt : x.toNat % y.toNat < 2 ^ 32 := (Nat.mod_le ..).trans_lt x.isLt
    rw [BitVec.toNat_umod, ← Nat.mod_eq_of_lt hlt, ← hrem]
    exact BitVec.toNat_ofNat ..

end Sys2Proof.Machine

open Sys2Proof Sys2Proof.Machine

/-- Settles O29: both products are exact, and their low part is the product modulo 2^32. -/
theorem productLaws : Obligations.ProductLaws := by
  refine fun x y => ⟨extractLsb'_product true x y, extractLsb'_product false x y, toInt_product x y, toNat_product x y,
    fun b => ?_⟩
  exact BitVec.extractLsb'_append_extractLsb' (w := 32) (len := 32)

/-- Settles O34: the laws are those of the division of bit vectors. -/
theorem divRemLaws : Obligations.DivRemLaws := by
  intro x y hy
  have hy0 : y.toInt.natAbs ≠ 0 := fun h => hy (BitVec.eq_of_toInt_eq (Int.natAbs_eq_zero.1 h))
  rw [divRem_signed, divRem_unsigned]
  simp only [BitVec.toInt_srem]
  refine ⟨fun hfits => ?_, ?_, Int.tmod_nonneg y.toInt, fun hx => ?_, ?_, BitVec.toNat_udiv, BitVec.toNat_umod⟩
  · have hquot : (x.sdiv y).toInt = x.toInt.tdiv y.toInt :=
      BitVec.toInt_sdiv_of_ne_or_ne x y (not_and_or.1 hfits)
    rw [hquot, mul_comm, Int.mul_tdiv_add_tmod]
  · rw [Int.natAbs_tmod]
    exact Nat.mod_lt _ (Nat.pos_of_ne_zero hy0)
  · have hneg : 0 ≤ (-x.toInt).tmod y.toInt := Int.tmod_nonneg y.toInt (by omega)
    rw [Int.neg_tmod] at hneg
    omega
  · rintro rfl rfl
    decide

end

section
/-! SUPPORT. What the instructions of 41_arithmetic_logic.md do, given what the stages before their effect answer: one
lemma for each meaning, in the terms of the locations that its operand forms resolve to. -/

namespace Sys2Proof.Machine

/-! ## Operand forms (R110, R113, R114, R119) -/

section
variable {a b c e : Operand} {s u : State} {la lb lc le : Location}

theorem resolveBin_two (hc : checkOperands s.params [(a, .regOrMem), (b, .any)] = .ok ())
    (hr : resolve2 a b s = .ok (la, lb, u)) : resolveBin (.two a b) s = .ok (⟨la, la, lb⟩, u) := by
  simp only [resolveBin, hc, hr, ok_bind]

theorem resolveBin_three (hc : checkOperands s.params [(a, .regOrMem), (b, .any), (c, .any)] = .ok ())
    (hr : resolve3 a b c s = .ok (la, lb, lc, u)) : resolveBin (.three a b c) s = .ok (⟨la, lb, lc⟩, u) := by
  simp only [resolveBin, hc, hr, ok_bind]

theorem resolveMul_two (hc : checkOperands s.params [(a, .regOrMem), (b, .any)] = .ok ())
    (hr : resolve2 a b s = .ok (la, lb, u)) : resolveMul (.two a b) s = .ok (⟨la, none, la, lb⟩, u) := by
  simp only [resolveMul, hc, hr, ok_bind]

theorem resolveMul_three (hc : checkOperands s.params [(a, .regOrMem), (b, .any), (c, .any)] = .ok ())
    (hr : resolve3 a b c s = .ok (la, lb, lc, u)) : resolveMul (.three a b c) s = .ok (⟨la, none, lb, lc⟩, u) := by
  simp only [resolveMul, hc, hr, ok_bind]

theorem resolveMul_four
    (hc : checkOperands s.params [(a, .regOrMem), (b, .regOrMem), (c, .any), (e, .any)] = .ok ())
    (hr : resolve4 a b c e s = .ok (la, lb, lc, le, u)) :
    resolveMul (.four a b c e) s = .ok (⟨la, some lb, lc, le⟩, u) := by
  simp only [resolveMul, hc, hr, ok_bind]

/-- A 2-operand DIV that has a place for a result resolves: each result goes to its operand unless that is an
immediate (R114). -/
theorem resolveDiv_two_of_place {imm1 imm2 : Bool} (hc : checkOperands s.params [(a, .any), (b, .any)] = .ok ())
    (hr : resolve2 a b s = .ok (la, lb, u)) (ha : isImm s.params a = imm1) (hb : isImm s.params b = imm2)
    (hplace : (imm1 && imm2) = false) :
    resolveDiv (.two a b) s = .ok (⟨if imm1 then none else some la, if imm2 then [] else [lb], la, lb⟩, u) := by
  rw [resolveDiv_two, ha, hb, hplace, if_neg Bool.false_ne_true, hc, ok_bind, hr, ok_bind]

theorem resolveDiv_three (hc : checkOperands s.params [(a, .regOrMem), (b, .any), (c, .any)] = .ok ())
    (hr : resolve3 a b c s = .ok (la, lb, lc, u)) :
    resolveDiv (.three a b c) s = .ok (⟨some la,
      div3Remainder s.params.div3ModRule (isImm s.params b) (isImm s.params c) lb lc, lb, lc⟩, u) := by
  simp only [resolveDiv, hc, hr, ok_bind]

theorem resolveDiv_four
    (hc : checkOperands s.params [(a, .regOrMem), (b, .regOrMem), (c, .any), (e, .any)] = .ok ())
    (hr : resolve4 a b c e s = .ok (la, lb, lc, le, u)) :
    resolveDiv (.four a b c e) s = .ok (⟨some la, [lb], lc, le⟩, u) := by
  simp only [resolveDiv, hc, hr, ok_bind]

theorem resolveCmp_one (hc : checkOperands s.params [(a, .regOrMem)] = .ok ()) (hr : resolve a s = .ok (la, u)) :
    resolveCmp (.one a) s = .ok (la, la, u) := by
  simp only [resolveCmp, hc, hr, ok_bind]

theorem resolveCmp_two (hc : checkOperands s.params [(a, .regOrMem), (b, .any)] = .ok ())
    (hr : resolve2 a b s = .ok (la, lb, u)) : resolveCmp (.two a b) s = .ok (la, lb, u) := by
  simp only [resolveCmp, hc, hr, ok_bind]

end

/-! ## Several stores of one value -/

theorem storeAll_singleton {v : Word} {l : Location} {s t : State} (h : store l v s = .ok t) :
    storeAll v [l] s = .ok t :=
  bind_eq_ok.2 ⟨t, h, rfl⟩

theorem storeAll_pair {v : Word} {l m : Location} {s t u : State} (h : store l v s = .ok t) (k : store m v t = .ok u) :
    storeAll v [l, m] s = .ok u :=
  bind_eq_ok.2 ⟨t, h, storeAll_singleton k⟩

/-! ## Meanings (R111 to R121) -/

section
variable {s s1 s2 t : State} {x y : Word}

theorem execBin_eq_next {op : FlagOp} {f : Word → Word → Word} {ops : TwoOrThree} {l : BinPlaces}
    (hr : resolveBin ops s = .ok (l, s1)) (hx : val l.src1 s1 = .ok x) (hy : val l.src2 s1 = .ok y)
    (ht : store l.dst (f x y) s1 = .ok t) :
    execBin op f ops s = .next (writeFlags op x y (destSize l.dst) t) := by
  simp only [execBin, hr, hx, hy, ht, ok_bind, finish_ok]

/-- MUL stores the low word of the product, then its upper part where a place for it is given (R113). -/
theorem execMul_eq_next {ops : TwoToFour} {l : MulPlaces} {p : BitVec 64} (hr : resolveMul ops s = .ok (l, s1))
    (hx : val l.src1 s1 = .ok x) (hy : val l.src2 s1 = .ok y) (hp : product s.params.mulDivSigned x y = p)
    (hlow : store l.dst (p.setWidth 32) s1 = .ok s2)
    (hhigh : storeAll ((p >>> (8 * (destSize l.dst).bytes)).setWidth 32) l.ovf.toList s2 = .ok t) :
    execMul ops s = .next (writeFlags .mul x y (destSize l.dst) t) := by
  have hparams : s1.params = s.params := (sameRecords_of_dataOps (dataOps_resolveMul hr)).params
  rw [BitVec.setWidth_eq_extractLsb' (by decide)] at hlow
  rw [BitVec.setWidth_ushiftRight_eq_extractLsb] at hhigh
  simp only [execMul, hr, hx, hy, hparams, hp, hlow, productHigh, hhigh, ok_bind, finish_ok]

/-- DIV by a divisor that is not zero stores the quotient, then the remainder (R114). -/
theorem execDiv_eq_next {ops : TwoToFour} {l : DivPlaces} (hr : resolveDiv ops s = .ok (l, s1))
    (hx : val l.src1 s1 = .ok x) (hy : val l.src2 s1 = .ok y) (hy0 : y ≠ 0)
    (hquot : storeAll (divRem s.params.mulDivSigned x y).1 l.quotient.toList s1 = .ok s2)
    (hrem : storeAll (divRem s.params.mulDivSigned x y).2 l.remainder s2 = .ok t) :
    execDiv ops s = .next (writeFlags .div x y (quotientSize l.quotient) t) := by
  have hparams : s1.params = s.params := (sameRecords_of_dataOps (dataOps_resolveDiv hr)).params
  simp only [execDiv, hr, hx, hy, if_neg hy0, hparams, hquot, hrem, ok_bind, finish_ok]

/-- DIV by zero faults once both sources are read (R114, R163). -/
theorem execDiv_of_zero {ops : TwoToFour} {l : DivPlaces} (hr : resolveDiv ops s = .ok (l, s1))
    (hx : val l.src1 s1 = .ok x) (hy : val l.src2 s1 = .ok 0) : execDiv ops s = .fault .divideByZero := by
  simp only [execDiv, hr, hx, hy, ok_bind, if_true, finish_error]

section
variable {a b c : Operand} {d l2 l3 : Location}

/-- MOD by a divisor that is not zero stores the remainder (R115). -/
theorem execMod_eq_next (hc : checkOperands s.params [(a, .regOrMem), (b, .any), (c, .any)] = .ok ())
    (hr : resolve3 a b c s = .ok (d, l2, l3, s1)) (hx : val l2 s1 = .ok x) (hy : val l3 s1 = .ok y) (hy0 : y ≠ 0)
    (ht : store d (divRem s.params.mulDivSigned x y).2 s1 = .ok t) :
    execMod a b c s = .next (writeFlags .mod x y (destSize d) t) := by
  have hparams : s1.params = s.params := (sameRecords_of_dataOps (dataOps_resolve3 hr)).params
  simp only [execMod, hc, hr, hx, hy, if_neg hy0, hparams, ht, ok_bind, finish_ok]

/-- MOD by zero faults once both sources are read (R115, R163). -/
theorem execMod_of_zero (hc : checkOperands s.params [(a, .regOrMem), (b, .any), (c, .any)] = .ok ())
    (hr : resolve3 a b c s = .ok (d, l2, l3, s1)) (hx : val l2 s1 = .ok x) (hy : val l3 s1 = .ok 0) :
    execMod a b c s = .fault .divideByZero := by
  simp only [execMod, hc, hr, hx, hy, ok_bind, if_true, finish_error]

end

theorem execCmp_eq_next {ops : OneOrTwo} {d l : Location} (hr : resolveCmp ops s = .ok (d, l, s1))
    (hx : val l s1 = .ok x) (ht : store d (~~~ x) s1 = .ok t) :
    execCmp ops s = .next (writeFlags .cmp x 0 (destSize d) t) := by
  simp only [execCmp, hr, hx, ht, ok_bind, finish_ok]

theorem execUpdate_eq_next {op : FlagOp} {f : Word → Word} {a : Operand} {l : Location}
    (hc : checkOperands s.params [(a, .regOrMem)] = .ok ()) (hr : resolve a s = .ok (l, s1)) (hx : val l s1 = .ok x)
    (ht : store l (f x) s1 = .ok t) : execUpdate op f a s = .next (writeFlags op x 1 (destSize l) t) := by
  simp only [execUpdate, hc, hr, hx, ht, ok_bind, finish_ok]

end

/-- Where an execution faults with `DivideByZero`, all stages before the effect have answered and the divisor read is
zero (R163). -/
theorem divisor_of_divideByZero {i : Instr} {s : State} (h : exec i s = .fault .divideByZero) :
    divisor i s = some 0 := by
  have hstages := execStages i s
  cases hc : classCheck s.params i with
  | error r =>
    have hr : r = .divideByZero := Host.Outcome.fault.inj ((hstages.check r hc).symm.trans h)
    obtain rfl | rfl := classCheck_eq_error hc <;> cases hr
  | ok _ =>
    cases hres : resolveAll i.operands s with
    | error r =>
      have hr : r = .divideByZero := Host.Outcome.fault.inj ((hstages.operand hc r hres).symm.trans h)
      obtain rfl := resolveAll_eq_error hres (operandClass_of_classCheck hc)
      cases hr
    | ok x =>
      have hend := hstages.rest hc x.1 x.2 hres
      rw [h] at hend
      cases hend with
      | goesOn ho _ => exact absurd rfl (ho _)
      | byZero hdiv _ => exact hdiv

/-! ## The remainder's places in a 3-operand DIV whose divisor is an immediate, under either rule (R114, C9) -/

section
variable (rule : Div3ModRule) (l2 l3 : Location)

theorem div3Remainder_of_imm3 : div3Remainder rule false true l2 l3 = [l2] := by cases rule <;> rfl

theorem div3Remainder_of_imms : div3Remainder rule true true l2 l3 = [] := by cases rule <;> rfl

end

end Sys2Proof.Machine

open Sys2Proof Sys2Proof.Machine

/-- Settles O33: DIV and MOD test the divisor once both sources are read, and no other stage gives that fault. -/
theorem zeroDivisorFaults : Obligations.ZeroDivisorFaults :=
  ⟨fun _ _ _ _ _ hr hx hy => execDiv_of_zero hr hx hy,
    fun _ _ _ _ _ _ _ _ _ hc hr hx hy => execMod_of_zero hc hr hx hy, fun _ _ => divisor_of_divideByZero⟩

/-- Settles O27: both forms name a destination and two sources, and the five instructions differ in the operation. -/
theorem twoSourceResults : Obligations.TwoSourceResults := by
  intro s s1 t d l1 l2 x y ops hform hx hy
  have hr : resolveBin ops s = .ok (⟨d, l1, l2⟩, s1) := by
    obtain ⟨a, b, rfl, hc, hr, rfl⟩ | ⟨a, b, c, rfl, hc, hr⟩ := hform
    · exact resolveBin_two hc hr
    · exact resolveBin_three hc hr
  have hexec := fun op f => execBin_eq_next (t := t) (op := op) (f := f) hr hx hy
  exact ⟨hexec .add (· + ·), hexec .sub (· - ·), hexec .and (· &&& ·), hexec .or (· ||| ·), hexec .xor (· ^^^ ·)⟩

/-- Settles O28: the three forms differ in where the upper part of the product goes. -/
theorem mulResults : Obligations.MulResults := by
  intro s s1 t d l1 l2 x y hx hy p low high
  have hp : product s.params.mulDivSigned x y = p := rfl
  refine ⟨fun a b hc hr hd ht => ?_, fun a b c hc hr ht => ?_, fun a b c e o s2 hc hr hlow hhigh => ?_⟩
  · subst hd
    exact (execMul_eq_next (resolveMul_two hc hr) hx hy hp ht rfl :)
  · exact (execMul_eq_next (resolveMul_three hc hr) hx hy hp ht rfl :)
  · exact (execMul_eq_next (resolveMul_four hc hr) hx hy hp hlow (storeAll_singleton hhigh) :)

/-- Settles O30: the forms differ in which operands receive quotient and remainder. -/
theorem divTwoAndFourOperandResults : Obligations.DivTwoAndFourOperandResults := by
  intro s s1 s2 t l1 l2 x y hx hy hy0 q r
  refine ⟨fun a b hc hr => ⟨fun ha hb hq hm => ?_, fun ha hb hq => ?_, fun ha hb hm => ?_⟩,
    fun a b c e d m hc hr hq hm => ?_⟩
  · exact execDiv_eq_next (resolveDiv_two_of_place hc hr ha hb rfl) hx hy hy0 (storeAll_singleton hq)
      (storeAll_singleton hm)
  · exact execDiv_eq_next (resolveDiv_two_of_place hc hr ha hb rfl) hx hy hy0 (storeAll_singleton hq) rfl
  · exact execDiv_eq_next (resolveDiv_two_of_place hc hr ha hb rfl) hx hy hy0 rfl (storeAll_singleton hm)
  · exact execDiv_eq_next (resolveDiv_four hc hr) hx hy hy0 (storeAll_singleton hq) (storeAll_singleton hm)

/-- Settles O31: the quotient goes to the first operand in every case, and the rule and the immediates say where the
remainder goes. -/
theorem divThreeOperandResults : Obligations.DivThreeOperandResults := by
  intro s s1 s2 s3 t d l2 l3 x y a b c hcheck hr hx hy hy0 q r answer
  have hanswer : ∀ {u v : State}, store d q s1 = .ok u →
      storeAll r (div3Remainder s.params.div3ModRule (isImm s.params b) (isImm s.params c) l2 l3) u = .ok v →
      answer = .next (writeFlags .div x y (destSize d) v) := fun hq hm =>
    execDiv_eq_next (resolveDiv_three hcheck hr) hx hy hy0 (storeAll_singleton hq) hm
  refine ⟨fun hb hc hq hm => hanswer hq ?_, fun hb hc hq => hanswer hq ?_, fun hrule hb hc hq hm hm' => hanswer hq ?_,
    fun hrule hb hc hq => hanswer hq ?_, fun hrule hb hc hq hm => hanswer hq ?_,
    fun hrule hb hc hq hm => hanswer hq ?_⟩
  · rw [hb, hc, div3Remainder_of_imm3]
    exact storeAll_singleton hm
  · rw [hb, hc, div3Remainder_of_imms]
    rfl
  · rw [hrule, hb, hc]
    exact storeAll_pair hm hm'
  · rw [hrule, hb, hc]
    rfl
  · rw [hrule, hb, hc]
    exact storeAll_singleton hm
  · rw [hrule, hb, hc]
    exact storeAll_singleton hm

/-- Settles O32: MOD stores the remainder of its two sources. -/
theorem modResult : Obligations.ModResult :=
  fun _ _ _ _ _ _ _ _ _ _ _ hc hr hx hy hy0 ht => execMod_eq_next hc hr hx hy hy0 ht

/-- Settles O35: the two forms differ in whether source and destination are one operand. -/
theorem cmpComplements : Obligations.CmpComplements :=
  ⟨fun _ _ _ _ _ _ hc hr hx ht => execCmp_eq_next (resolveCmp_one hc hr) hx ht,
    fun _ _ _ _ _ _ _ _ hc hr hx ht => execCmp_eq_next (resolveCmp_two hc hr) hx ht⟩

/-- Settles O36: INC and DEC are one update with two operations. -/
theorem incAndDecResults : Obligations.IncAndDecResults :=
  fun _ _ _ _ _ _ hc hr hx => ⟨execUpdate_eq_next hc hr hx (f := (· + 1)), execUpdate_eq_next hc hr hx (f := (· - 1))⟩

end

section
/-! SUPPORT. What MOV and SWP do, given what the stages before their effect answer, and what the operands of CPY ask for
(R130 to R132). -/

namespace Sys2Proof.Machine

section
variable {a b : Operand} {s s1 s2 t : State} {l1 l2 : Location} {v x y : Word}

theorem execMov_eq_next (hc : checkOperands s.params [(a, .regOrMem), (b, .any)] = .ok ())
    (hr : resolve2 a b s = .ok (l1, l2, s1)) (hv : val l2 s1 = .ok v) (ht : store l1 v s1 = .ok t) :
    execMov a b s = .next t := by
  simp only [execMov, hc, hr, hv, ht, ok_bind, finish_ok]

theorem execSwp_eq_next (hc : checkOperands s.params [(a, .regOrMem), (b, .regOrMem)] = .ok ())
    (hr : resolve2 a b s = .ok (l1, l2, s1)) (hx : val l1 s1 = .ok x) (hy : val l2 s1 = .ok y)
    (hs2 : store l1 y s1 = .ok s2) (ht : store l2 x s2 = .ok t) : execSwp a b s = .next t := by
  simp only [execSwp, hc, hr, hx, hy, hs2, ht, ok_bind, finish_ok]

end

/-! ## A full register as a location (R87, R88) -/

theorem widen_full (sx : Bool) (raw : Word) : widen sx 32 raw = raw := by
  cases sx <;> simp [widen]

theorem mergeLow_full (old v : Word) : mergeLow .b4 old v = v := by
  refine BitVec.eq_of_getLsbD_eq fun j hj => ?_
  rw [getLsbD_mergeLow]
  exact if_pos hj

theorem val_full (sx : Bool) (r : Reg) (s : State) : val ⟨sx, .reg r .b4⟩ s = .ok (s.reg r) :=
  congrArg Except.ok (widen_full sx (s.reg r))

theorem store_full (sx : Bool) (r : Reg) (v : Word) (s : State) : store ⟨sx, .reg r .b4⟩ v s = .ok (s.setReg r v) := by
  simp only [store, mergeLow_full]

/-! ## The plan of a copy (R132) -/

theorem effectiveAddress_of_mem {l : Location} {x : Word} {n : Size} (h : l.place = .mem x n) :
    effectiveAddress l = .ok x := by
  simp only [effectiveAddress, h]

section
variable {a b c e : Operand} {s u : State} {la lb lc le : Location} {d f sel lim : Word} {limit : Nat}

theorem copyPlan_two (hc : checkOperands s.params [(a, .mem), (b, .mem)] = .ok ())
    (hr : resolve2 a b s = .ok (la, lb, u)) (hd : effectiveAddress la = .ok d) (hf : effectiveAddress lb = .ok f) :
    copyPlan (.two a b) s = .ok (⟨d, f, .cString, 0⟩, u) := by
  simp only [copyPlan, hc, hr, hd, hf, ok_bind]

theorem copyPlan_three (hc : checkOperands s.params [(a, .mem), (b, .mem), (c, .any)] = .ok ())
    (hr : resolve3 a b c s = .ok (la, lb, lc, u)) (hd : effectiveAddress la = .ok d) (hf : effectiveAddress lb = .ok f)
    (hsel : val lc u = .ok sel) :
    copyPlan (.three a b c) s = copyKind sel f u >>= fun k => .ok (⟨d, f, k, 0⟩, u) := by
  simp only [copyPlan, hc, hr, hd, hf, hsel, ok_bind]

theorem copyPlan_four (hc : checkOperands s.params [(a, .mem), (b, .mem), (c, .any), (e, .any)] = .ok ())
    (hr : resolve4 a b c e s = .ok (la, lb, lc, le, u)) (hd : effectiveAddress la = .ok d)
    (hf : effectiveAddress lb = .ok f) (hsel : val lc u = .ok sel) (hlim : val le u = .ok lim) :
    copyPlan (.four a b c e) s = copyKind sel f u >>= fun k => .ok (⟨d, f, k, lim.toNat⟩, u) := by
  simp only [copyPlan, hc, hr, hd, hf, hsel, hlim, ok_bind]

/-- What the selector makes of a copy, whatever its limit (R132). -/
theorem plan_of_selector {plan : Except Fault (CopyPlan × State)}
    (h : plan = copyKind sel f u >>= fun k => .ok (⟨d, f, k, limit⟩, u)) :
    (sel = 0 → plan = .ok (⟨d, f, .cString, limit⟩, u)) ∧
    (∀ len, sel = 1 → memRead f 4 u = .ok len → plan = .ok (⟨d, f, .counted (4 + len.toNat), limit⟩, u)) ∧
    (∀ r, sel = 1 → memRead f 4 u = .error r → plan = .error r) ∧
    (sel ≠ 0 → sel ≠ 1 → plan = .ok (⟨d, f, .counted sel.toNat, limit⟩, u)) := by
  subst h
  refine ⟨fun h0 => ?_, fun len h1 hlen => ?_, fun r h1 hr => ?_, fun h0 h1 => ?_⟩
  · simp [copyKind, h0]
  · simp [copyKind, h1, hlen]
  · simp [copyKind, h1, hr]
  · simp only [copyKind, if_neg h0, if_neg h1, ok_bind]

end

/-- A limit is a 32-bit value (R132). -/
theorem limit_lt_of_copyPlan {ops : TwoToFour} {s u : State} {p : CopyPlan} (h : copyPlan ops s = .ok (p, u)) :
    p.limit < 2 ^ 32 := by
  have hplan := afterOperands_copyPlan ops s
  rw [AfterOperands, h] at hplan
  split at hplan
  · cases hplan
  · obtain ⟨y, hy, -, hlim, -⟩ | ⟨hy, -⟩ := hplan
    · cases hy
      exact hlim
    · cases hy

end Sys2Proof.Machine

open Sys2Proof Sys2Proof.Machine

/-- Settles O39: the store is the last stage of MOV. -/
theorem movStoresItsSource : Obligations.MovStoresItsSource :=
  fun _ _ _ _ _ _ _ _ hc hr hv ht => execMov_eq_next hc hr hv ht

/-- Settles O40: the stores are the last stages of SWP; a full register is read and stored whole, so that the second
store leaves what the first put elsewhere, and where both are one register it stores that register's own value. -/
theorem swpExchanges : Obligations.SwpExchanges := by
  refine ⟨fun _ _ _ _ _ _ _ _ _ _ hc hr hx hy hs2 ht => execSwp_eq_next hc hr hx hy hs2 ht, fun s r q m k => ?_⟩
  refine ⟨(s.setReg r (s.reg q)).setReg q (s.reg r), ?_, ?_, State.reg_setReg_same _ _ _⟩
  · exact execSwp_eq_next rfl rfl (val_full m r s) (val_full k q s) (store_full m r _ s) (store_full k q _ _)
  · obtain rfl | hne := eq_or_ne r q
    · exact State.reg_setReg_same _ _ _
    · rw [State.reg_setReg_ne _ _ hne, State.reg_setReg_same]

/-- Settles O41: the three forms differ in which of selector and limit they have, and the selector says what is
copied. -/
theorem cpySelectorAndLimit : Obligations.CpySelectorAndLimit := by
  intro s s1 l1 l2 l3 l4 d f sel lim n m a b c e hd hf
  have hdst := effectiveAddress_of_mem hd
  have hsrc := effectiveAddress_of_mem hf
  exact ⟨fun hc hr => copyPlan_two hc hr hdst hsrc,
    fun hc hr hsel => plan_of_selector (copyPlan_three hc hr hdst hsrc hsel),
    fun hc hr hsel hlim => plan_of_selector (copyPlan_four hc hr hdst hsrc hsel hlim)⟩

end

section
/-! SUPPORT. Where the loop of a copy stops: there is one sequence of bytes that a copy reads, and these, the limit and
the count say where it stops (R132, R133). -/

namespace Sys2Proof.Machine

/-! ## The bytes that a copy reads -/

/-- The state after some bytes have been copied one by one, each read after the writes before it (R132). -/
def copied (dst src : Word) (s : State) : Nat → State
  | 0 => s
  | k + 1 =>
    let t := copied dst src s k
    { t with mem := t.mem.write (dst + BitVec.ofNat 32 k).toNat (t.byteAt (src + BitVec.ofNat 32 k)) }

/-- Byte number `k` of a copy, as the copy reads it. -/
def copyData (dst src : Word) (s : State) (k : Nat) : Byte :=
  (copied dst src s k).byteAt (src + BitVec.ofNat 32 k)

theorem copyWrites_copied (dst src : Word) (s : State) (n : Nat) :
    copyWrites dst n s (copied dst src s n) (copyData dst src s) := by
  induction n with
  | zero => exact ⟨nofun, fun _ _ => rfl⟩
  | succ n ih => exact copyWrites_succ ih

theorem copyReads_copyData (dst src : Word) (s : State) (n : Nat) : copyReads dst src n s (copyData dst src s) := by
  intro k _
  obtain ⟨hwritten, hkept⟩ := copyWrites_copied dst src s k
  refine ⟨fun hfresh => hkept _ fun j hj => (hfresh j hj).symm, fun j hj haddr hlast => ?_⟩
  rw [← hwritten j hj fun m hm hgt => haddr ▸ hlast m hm hgt, haddr]
  rfl

/-- A block of 2^32 bytes holds every address. -/
theorem exists_offset (a x : Word) : ∃ j < 2 ^ 32, a + BitVec.ofNat 32 j = x := by
  refine ⟨(x - a).toNat, BitVec.isLt _, ?_⟩
  rw [BitVec.ofNat_toNat, BitVec.setWidth_eq, BitVec.add_comm, BitVec.sub_add_cancel]

section
variable {dst src : Word} {n k : Nat} {s t : State} {b : Nat → Byte}

/-- After 2^32 bytes a copy reads only what it has written itself: a byte that it has read before (log 12). -/
theorem exists_earlier_byte (hb : copyReads dst src n s b) (hk : k < n) (hround : 2 ^ 32 ≤ k) : ∃ j < k, b k = b j := by
  obtain ⟨i, hi, hwritten⟩ := exists_offset dst (src + BitVec.ofNat 32 k)
  have hex : ∃ j < k, dst + BitVec.ofNat 32 j = src + BitVec.ofNat 32 k := ⟨i, hi.trans_le hround, hwritten⟩
  obtain ⟨j, hj, haddr, hlast⟩ := exists_last_lt hex
  exact ⟨j, hj, (hb k hk).2 j hj haddr hlast⟩

/-- A copy that has read no zero byte in 2^32 bytes reads none later (log 12). -/
theorem ne_zero_of_round (hb : copyReads dst src n s b) (hround : ∀ k < 2 ^ 32, b k ≠ 0) (hk : k < n) : b k ≠ 0 := by
  induction k using Nat.strong_induction_on with
  | _ k ih =>
    by_cases hlt : k < 2 ^ 32
    · exact hround k hlt
    · obtain ⟨j, hj, heq⟩ := exists_earlier_byte hb hk (Nat.le_of_not_lt hlt)
      rw [heq]
      exact ih j hj (hj.trans hk)

/-- Where no byte written is one that is read, each byte arrives (R133). -/
theorem byteAt_of_disjoint (hb : copyReads dst src n s b) (ht : copyWrites dst n s t b)
    (hdisj : ∀ j k, j < n → k < n → dst + BitVec.ofNat 32 j ≠ src + BitVec.ofNat 32 k) (hk : k < n) :
    t.byteAt (dst + BitVec.ofNat 32 k) = s.byteAt (src + BitVec.ofNat 32 k) := by
  have hsmall : n ≤ 2 ^ 32 := by
    by_contra hlarge
    obtain ⟨j, hj, haddr⟩ := exists_offset dst (src + BitVec.ofNat 32 k)
    exact hdisj j k (by omega) hk haddr
  have hlast : ∀ m < n, k < m → dst + BitVec.ofNat 32 m ≠ dst + BitVec.ofNat 32 k := fun m hm hgt haddr => by
    have hnum := congrArg BitVec.toNat ((BitVec.add_right_inj dst).1 haddr)
    simp only [BitVec.toNat_ofNat] at hnum
    omega
  rw [ht.1 k hk hlast, (hb k hk).1 fun j hj => hdisj j k (hj.trans hk) hk]

end

/-! ## Where a copy stops -/

theorem copyDone_eq_true {p : CopyPlan} {n : Nat} :
    copyDone p n = true ↔ p.limit ≠ 0 ∧ n = p.limit ∨ p.kind = .counted n := by
  simp [copyDone]

/-- A copy that reads the bytes `b` moves `n` of them: the loop stops at its head first with `n` bytes moved, or its byte
`n - 1` is the first zero byte of a C string (R132). -/
structure CopyLength (p : CopyPlan) (b : Nat → Byte) (n : Nat) : Prop where
  notDone : ∀ k < n, copyDone p k = false
  notZero : p.kind = .cString → ∀ k, k + 1 < n → b k ≠ 0
  stops : copyDone p n = true ∨ p.kind = .cString ∧ 1 ≤ n ∧ b (n - 1) = 0

section
variable {p : CopyPlan} {b : Nat → Byte} {n total : Nat}

theorem copyLength_iff_of_counted (h : p.kind = .counted total) :
    CopyLength p b n ↔ n = if p.limit = 0 then total else min total p.limit := by
  have hdone : ∀ k, copyDone p k = true ↔ p.limit ≠ 0 ∧ k = p.limit ∨ total = k := fun k => by
    simp [copyDone_eq_true, h]
  constructor
  · rintro ⟨hbefore, -, hstop⟩
    have hlim : ¬ (p.limit < n ∧ p.limit ≠ 0) := fun ⟨hlt, hne⟩ =>
      Bool.eq_false_iff.1 (hbefore _ hlt) ((hdone _).2 (.inl ⟨hne, rfl⟩))
    have htotal : ¬ total < n := fun hlt => Bool.eq_false_iff.1 (hbefore _ hlt) ((hdone _).2 (.inr rfl))
    have hat := (hdone n).1 (hstop.resolve_right fun hz => by simp [h] at hz)
    split_ifs <;> omega
  · intro hn
    refine ⟨fun k hk => Bool.eq_false_iff.2 fun hd => ?_, fun hz => by simp [h] at hz, .inl ((hdone n).2 ?_)⟩
    · have hat := (hdone k).1 hd
      split_ifs at hn <;> omega
    · split_ifs at hn <;> omega

theorem copyLength_iff_of_cString (h : p.kind = .cString) :
    CopyLength p b n ↔
      1 ≤ n ∧ (p.limit = 0 ∨ n ≤ p.limit) ∧ (∀ k, k + 1 < n → b k ≠ 0) ∧ (b (n - 1) = 0 ∨ n = p.limit) := by
  have hdone : ∀ k, copyDone p k = true ↔ p.limit ≠ 0 ∧ k = p.limit := fun k => by simp [copyDone_eq_true, h]
  constructor
  · rintro ⟨hbefore, hzero, hstop⟩
    have hlim : ¬ (p.limit < n ∧ p.limit ≠ 0) := fun ⟨hlt, hne⟩ =>
      Bool.eq_false_iff.1 (hbefore _ hlt) ((hdone _).2 ⟨hne, rfl⟩)
    rw [hdone] at hstop
    obtain ⟨hne, hn⟩ | ⟨-, hpos, hz⟩ := hstop
    · exact ⟨by omega, by omega, hzero h, .inr hn⟩
    · exact ⟨hpos, by omega, hzero h, .inl hz⟩
  · rintro ⟨hpos, hlim, hzero, hstop⟩
    refine ⟨fun k hk => Bool.eq_false_iff.2 fun hd => ?_, fun _ => hzero, ?_⟩
    · have hat := (hdone k).1 hd
      omega
    · exact hstop.symm.imp (fun hn => (hdone n).2 ⟨by omega, hn⟩) fun hz => ⟨h, hpos, hz⟩

/-- A copy has fuel for the bytes that it moves: a C string that ends has ended after 2^32 bytes (log 12). -/
theorem CopyLength.le_copyFuel {s : State} (hlen : CopyLength p b n) (hb : copyReads p.dst p.src n s b)
    (hlim : p.limit < 2 ^ 32) : n ≤ copyFuel p.kind := by
  cases hkind : p.kind with
  | counted total =>
    have hn := (copyLength_iff_of_counted hkind).1 hlen
    change n ≤ total
    split_ifs at hn <;> omega
  | cString =>
    obtain ⟨hpos, -, hzero, hstop⟩ := (copyLength_iff_of_cString hkind).1 hlen
    by_contra hlarge
    have hlarge : 2 ^ 32 < n := Nat.lt_of_not_le hlarge
    have hlast : b (n - 1) ≠ 0 := ne_zero_of_round hb (fun k hk => hzero k (by omega)) (by omega)
    have hn := hstop.resolve_left hlast
    omega

end

/-! ## What the loop does -/

/-- Turn `k` of the loop reads and writes implemented bytes. -/
def CopyMapped (p : CopyPlan) (s : State) (k : Nat) : Prop :=
  s.implemented (p.src + BitVec.ofNat 32 k) = true ∧ s.implemented (p.dst + BitVec.ofNat 32 k) = true

section
variable {p : CopyPlan} {s : State} {b : Nat → Byte} {n : Nat}

/-- A copy whose bytes are implemented ends after the bytes that it moves. -/
theorem CopyLength.copyLoop_eq_next (hlen : CopyLength p b n) (hb : copyReads p.dst p.src n s b)
    (hmap : ∀ k < n, CopyMapped p s k) :
    ∃ t, t = { s with mem := t.mem } ∧ copyWrites p.dst n s t b ∧ ∀ fuel, n ≤ fuel → copyLoop p fuel 0 s = .next t := by
  by_cases hlast : p.kind = .cString ∧ 1 ≤ n ∧ b (n - 1) = 0
  · obtain ⟨hkind, hpos, hzero⟩ := hlast
    obtain ⟨m, rfl⟩ := Nat.exists_eq_add_of_le' hpos
    obtain ⟨t, ht, hwrites, hloop⟩ := copyLoop_prefix (n := m) (fun k hk => hb k (by omega))
      (fun k hk => hlen.notDone k (by omega)) (fun h k hk => hlen.notZero h k (by omega))
      (fun k hk => hmap k (by omega)) (Nat.le_refl m)
    have himp : t.implemented = s.implemented := State.implemented_congr (by rw [ht])
    obtain ⟨hsrc, hdst⟩ := hmap m (by omega)
    have hbyte := copyByte_of_implemented (himp ▸ hsrc) (himp ▸ hdst)
    rw [byteAt_of_copyWrites hb (Nat.lt_succ_self m) hwrites] at hbyte
    refine ⟨_, by rw [ht], copyWrites_succ hwrites, fun fuel hfuel => ?_⟩
    obtain ⟨rest, rfl⟩ := Nat.exists_eq_add_of_le hfuel
    rw [Nat.add_right_comm, Nat.add_assoc, hloop]
    exact copyLoop_of_zero (hlen.notDone m (by omega)) hbyte ⟨hkind, hzero⟩
  · obtain ⟨t, ht, hwrites, hloop⟩ := copyLoop_prefix hb hlen.notDone
      (fun h k hk hz => by
        obtain hlt | heq : k + 1 < n ∨ k = n - 1 := by omega
        · exact hlen.notZero h k hlt hz
        · exact hlast ⟨h, by omega, heq ▸ hz⟩) hmap (Nat.le_refl n)
    refine ⟨t, ht, hwrites, fun fuel hfuel => ?_⟩
    obtain ⟨rest, rfl⟩ := Nat.exists_eq_add_of_le hfuel
    rw [hloop]
    exact copyLoop_of_done (hlen.stops.resolve_right hlast)

/-- The loop goes past its turn `k`. -/
structure GoesPast (p : CopyPlan) (s : State) (b : Nat → Byte) (k : Nat) : Prop where
  notDone : copyDone p k = false
  mapped : CopyMapped p s k
  notZero : p.kind = .cString → b k ≠ 0

/-- The turns that a loop goes past, all that it has fuel for or those before the first at which it does not. -/
theorem exists_goesPast (p : CopyPlan) (s : State) (b : Nat → Byte) (fuel : Nat) :
    ∃ n ≤ fuel, (∀ k < n, GoesPast p s b k) ∧ (n = fuel ∨ ¬ GoesPast p s b n) := by
  induction fuel with
  | zero => exact ⟨0, le_rfl, nofun, .inl rfl⟩
  | succ fuel ih =>
    obtain ⟨n, hn, hpast, rfl | hstop⟩ := ih
    · by_cases hgo : GoesPast p s b n
      · exact ⟨n + 1, le_rfl, Nat.forall_lt_succ_right.2 ⟨hpast, hgo⟩, .inl rfl⟩
      · exact ⟨n, hn.trans (Nat.le_succ n), hpast, .inr hgo⟩
    · exact ⟨n, hn.trans (Nat.le_succ fuel), hpast, .inr hstop⟩

/-- A loop that goes past turns has used up fuel for them. -/
theorem exists_copyLoop_of_goesPast (hb : copyReads p.dst p.src n s b) (h : ∀ k < n, GoesPast p s b k) :
    ∃ t, t = { s with mem := t.mem } ∧ ∀ fuel, copyLoop p (n + fuel) 0 s = copyLoop p fuel n t := by
  obtain ⟨t, ht, -, hloop⟩ := copyLoop_prefix hb (fun k hk => (h k hk).notDone) (fun hz k hk => (h k hk).notZero hz)
    (fun k hk => (h k hk).mapped) (Nat.le_refl n)
  exact ⟨t, ht, hloop⟩

/-- A copy that does not end within its fuel is refused. -/
theorem copyLoop_of_goesPast (hb : copyReads p.dst p.src n s b) (h : ∀ k < n, GoesPast p s b k)
    (hdone : copyDone p n = false) : copyLoop p n 0 s = .refused .copyNeverEnds := by
  obtain ⟨t, -, hloop⟩ := exists_copyLoop_of_goesPast hb h
  refine (hloop 0).trans ?_
  unfold copyLoop
  simp only [hdone, Bool.false_eq_true, if_false]

/-- Everything the loop can do: move a copy's length of bytes, all implemented, fault, or go past every turn that it has
fuel for and be refused. -/
theorem copyLoop_cases (hb : ∀ n, copyReads p.dst p.src n s b) (fuel : Nat) :
    (∃ n ≤ fuel, CopyLength p b n ∧ ∀ k < n, CopyMapped p s k) ∨
    (∃ r, copyLoop p fuel 0 s = .fault r) ∨
    (∀ k < fuel, GoesPast p s b k) ∧ copyLoop p fuel 0 s = .refused .copyNeverEnds := by
  obtain ⟨n, hn, hpast, hstop⟩ := exists_goesPast p s b fuel
  have hzero : p.kind = .cString → ∀ k, k + 1 < n + 1 → b k ≠ 0 :=
    fun hz k hk => (hpast k (by omega)).notZero hz
  cases hdone : copyDone p n with
  | true =>
    exact .inl ⟨n, hn, ⟨fun k hk => (hpast k hk).notDone, fun hz k hk => hzero hz k (by omega), .inl hdone⟩,
      fun k hk => (hpast k hk).mapped⟩
  | false =>
    obtain rfl | hlt := hn.eq_or_lt
    · exact .inr (.inr ⟨hpast, copyLoop_of_goesPast (hb n) hpast hdone⟩)
    have hnot := hstop.resolve_left hlt.ne
    by_cases hmap : CopyMapped p s n
    · have hlast : p.kind = .cString ∧ b n = 0 := by
        by_contra hne
        exact hnot ⟨hdone, hmap, fun hk hz => hne ⟨hk, hz⟩⟩
      have hturns : ∀ k < n + 1, copyDone p k = false ∧ CopyMapped p s k :=
        Nat.forall_lt_succ_right.2 ⟨fun k hk => ⟨(hpast k hk).notDone, (hpast k hk).mapped⟩, hdone, hmap⟩
      exact .inl ⟨n + 1, hlt, ⟨fun k hk => (hturns k hk).1, hzero, .inr ⟨hlast.1, Nat.le_add_left 1 n, hlast.2⟩⟩,
        fun k hk => (hturns k hk).2⟩
    · obtain ⟨t, ht, hloop⟩ := exists_copyLoop_of_goesPast (hb n) hpast
      have himp : t.implemented = s.implemented := State.implemented_congr (by rw [ht])
      obtain ⟨rest, rfl⟩ := Nat.exists_eq_add_of_lt hlt
      refine .inr (.inl ⟨.memoryAccess, ?_⟩)
      rw [Nat.add_assoc, hloop]
      refine copyLoop_of_error hdone (copyByte_of_not_implemented ?_)
      rw [himp, ← Bool.not_eq_true, ← Bool.not_eq_true]
      exact not_and_or.1 hmap

/-- A C string copy without a limit that goes past 2^32 turns goes past every turn (log 12). -/
theorem goesPast_of_round (hb : ∀ n, copyReads p.dst p.src n s b) (hkind : p.kind = .cString) (hlim : p.limit = 0)
    (hround : ∀ k < 2 ^ 32, GoesPast p s b k) (k : Nat) : GoesPast p s b k := by
  have hwrap : BitVec.ofNat 32 k = BitVec.ofNat 32 (k % 2 ^ 32) :=
    BitVec.eq_of_toNat_eq (by simp only [BitVec.toNat_ofNat, Nat.mod_mod])
  refine ⟨by simp [copyDone, hkind, hlim], ?_, fun _ => ?_⟩
  · rw [CopyMapped, hwrap]
    exact (hround _ (Nat.mod_lt _ (Nat.two_pow_pos 32))).mapped
  · exact ne_zero_of_round (hb (k + 1)) (fun j hj => (hround j hj).notZero hkind) (Nat.lt_succ_self k)

end

/-! ## CPY (R132, R133) -/

/-- A CPY whose bytes are implemented completes with the bytes that it moves. -/
theorem CopyLength.exec_eq_next {ops : TwoToFour} {s u : State} {p : CopyPlan} {b : Nat → Byte} {n : Nat}
    (hlen : CopyLength p b n) (hp : copyPlan ops s = .ok (p, u)) (hb : copyReads p.dst p.src n u b)
    (hmap : ∀ k < n, CopyMapped p u k) :
    ∃ t, exec (.cpy ops) s = .next t ∧ t = { u with mem := t.mem } ∧ copyWrites p.dst n u t b := by
  obtain ⟨t, ht, hwrites, hloop⟩ := hlen.copyLoop_eq_next hb hmap
  exact ⟨t, (execCpy_of_copyPlan hp).trans (hloop _ (hlen.le_copyFuel hb (limit_lt_of_copyPlan hp))), ht, hwrites⟩

/-- A CPY goes on from its plan to its loop unless it faults. -/
theorem exists_copyPlan {ops : TwoToFour} {s : State} (h : ∀ r, exec (.cpy ops) s ≠ .fault r) :
    ∃ p u, copyPlan ops s = .ok (p, u) ∧ exec (.cpy ops) s = copyLoop p (copyFuel p.kind) 0 u := by
  cases hp : copyPlan ops s with
  | error r => exact absurd (execCpy_of_copyPlan_error hp) (h r)
  | ok x => exact ⟨x.1, x.2, rfl, execCpy_of_copyPlan hp⟩

end Sys2Proof.Machine

open Sys2Proof Sys2Proof.Machine

/-- Settles O42: the count and the limit give the number of bytes, whatever they are. -/
theorem countedCopyMovesItsBytes : Obligations.CountedCopyMovesItsBytes := by
  intro ops s s1 p total n hp hkind hn hmap
  have hb := copyReads_copyData p.dst p.src s1 n
  obtain ⟨t, hexec, ht, hwrites⟩ := ((copyLength_iff_of_counted hkind).2 hn).exec_eq_next hp hb hmap
  exact ⟨t, _, hexec, ht, hb, hwrites, fun hdisj k hk => byteAt_of_disjoint hb hwrites hdisj hk⟩

/-- Settles O43: the first zero byte or the limit gives the number of bytes. -/
theorem cStringCopyMovesItsBytes : Obligations.CStringCopyMovesItsBytes := by
  intro ops s s1 p n b hp hkind hpos hlim hb hzero hstop hmap
  obtain ⟨t, hexec, ht, hwrites⟩ :=
    ((copyLength_iff_of_cString hkind).2 ⟨hpos, hlim, hzero, hstop⟩).exec_eq_next hp hb hmap
  exact ⟨t, hexec, ht, hwrites, fun hdisj k hk => byteAt_of_disjoint hb hwrites hdisj hk⟩

/-- Settles O44: a loop that ends has moved a copy's length of bytes, and the plan before it has changed registers
alone. -/
theorem cpyFrame : Obligations.CpyFrame := by
  intro ops s t h
  obtain ⟨p, u, hp, hloop⟩ := exists_copyPlan (ops := ops) (s := s) (by simp [h])
  have hb := copyReads_copyData p.dst p.src u
  obtain ⟨n, hfuel, hlen, hmap⟩ | ⟨r, hfault⟩ | ⟨-, hrefused⟩ := copyLoop_cases hb (copyFuel p.kind)
  · obtain ⟨t', ht, hwrites, hnext⟩ := hlen.copyLoop_eq_next (hb n) hmap
    obtain rfl : t = t' := Host.Outcome.next.inj (h.symm.trans (hloop.trans (hnext _ hfuel)))
    have hmodes := modeWrites_of_resolveAll (resolveAll_of_copyPlan hp)
    have hregs : t.regs = u.regs := by rw [ht]
    have hmem : u.mem = s.mem := by rw [hmodes.eq]
    refine ⟨p, u, n, _, hp, ht, hmodes.eq, fun q hq => ?_,
      fun total hkind => (copyLength_iff_of_counted hkind).1 hlen, fun hkind => ?_, hb n, hwrites, fun x hx => ?_⟩
    · exact (congrArg (Regs.get · q) hregs).trans (hmodes.reg q hq)
    · obtain ⟨hpos, hlim, hzero, hstop⟩ := (copyLength_iff_of_cString hkind).1 hlen
      rw [hkind] at hfuel
      exact ⟨hpos, hfuel, hlim, hzero, hstop⟩
    · exact (hwrites.2 x hx).trans (congrArg (Memory.read · x.toNat) hmem)
  · simp [hloop, hfault] at h
  · simp [hloop, hrefused] at h

/-- Settles O45: a refused loop has gone past 2^32 turns of a C string copy without a limit, and so goes past any number
of them. -/
theorem copyNeverEndsIsExact : Obligations.CopyNeverEndsIsExact := by
  intro ops s
  constructor
  · intro h
    obtain ⟨p, u, hp, hloop⟩ := exists_copyPlan (ops := ops) (s := s) (by simp [h])
    rw [h] at hloop
    have hends : ¬ (p.kind ≠ .cString ∨ p.limit ≠ 0) := fun hends =>
      copyLoop_ne_refused (limit_lt_of_copyPlan hp) hends u _ hloop.symm
    obtain ⟨hkind, hlim⟩ := (not_or.1 hends).imp not_not.1 not_not.1
    have hb := copyReads_copyData p.dst p.src u
    rw [hkind] at hloop
    obtain ⟨n, hfuel, hlen, hmap⟩ | ⟨r, hfault⟩ | ⟨hpast, -⟩ := copyLoop_cases hb (copyFuel .cString)
    · obtain ⟨t, -, -, hnext⟩ := hlen.copyLoop_eq_next (hb n) hmap
      cases hloop.trans (hnext _ hfuel)
    · cases hloop.trans hfault
    · have hall := goesPast_of_round hb hkind hlim hpast
      exact ⟨p, u, hp, hkind, hlim, fun fuel => copyLoop_of_goesPast (hb fuel) (fun k _ => hall k) (hall fuel).notDone⟩
  · rintro ⟨p, u, hp, -, -, hloop⟩
    exact (execCpy_of_copyPlan hp).trans (hloop _)

end

section
/-! SUPPORT. Words of memory, and what the instructions of 43_change_of_location.md do, given what the stages before
their effect answer (R140 to R151). -/

namespace Sys2Proof.Machine

/-- What a register reads after a write to any register. -/
theorem Regs.get_set (g : Regs) (r q : Reg) (v : Word) : (g.set r v).get q = if q = r then v else g.get q := by
  split
  · next h => rw [h, Regs.get_set_same]
  · next h => rw [Regs.get_set_ne g v h]

/-! ## Words of memory (R41, R42) -/

theorem State.accessOk_add (s : State) (a : Word) (m n : Nat) :
    s.accessOk a (m + n) = (s.accessOk a m && s.accessOk (a + BitVec.ofNat 32 m) n) := by
  induction m generalizing a with
  | zero => simp [State.accessOk]
  | succ m ih => rw [Nat.add_right_comm, State.accessOk, State.accessOk, ih, add_ofNat_succ, Bool.and_assoc]

/-- An access of eight bytes is one to each of its two words. -/
theorem State.accessOk_two_words {s : State} {a b : Word} (h : a + 4 = b) :
    s.accessOk a 8 = true ↔ s.accessOk a 4 = true ∧ s.accessOk b 4 = true := by
  subst h
  rw [s.accessOk_add a 4 4, Bool.and_eq_true]
  rfl

/-- A value of several bytes depends on those bytes alone. -/
theorem State.bytesAt_congr {s t : State} {a : Word} {n : Nat}
    (h : ∀ k < n, t.byteAt (a + BitVec.ofNat 32 k) = s.byteAt (a + BitVec.ofNat 32 k)) :
    t.bytesAt a n = s.bytesAt a n := by
  induction n generalizing a with
  | zero => rfl
  | succ n ih =>
    simp only [Nat.forall_lt_succ_left, BitVec.add_zero, add_ofNat_succ] at h
    rw [State.bytesAt, State.bytesAt, h.1, ih h.2]

/-- A word reads back as written. -/
theorem State.bytesAt_writeBytes {t : State} {m : Memory} {a v : Word} (h : t.mem = m.writeBytes a 4 v) :
    t.bytesAt a 4 = v := by
  have hbyte : ∀ k < 4, t.byteAt (a + BitVec.ofNat 32 k) = v.extractLsb' (8 * k) 8 := fun k hk => by
    rw [State.byteAt, h, Memory.read_writeBytes_inside _ _ _ (by decide) hk]
  have h0 : t.byteAt a = v.extractLsb' 0 8 := by simpa using hbyte 0 (by decide)
  have h1 : t.byteAt (a + 1) = v.extractLsb' 8 8 := hbyte 1 (by decide)
  have h2 : t.byteAt (a + 2) = v.extractLsb' 16 8 := hbyte 2 (by decide)
  have h3 : t.byteAt (a + 3) = v.extractLsb' 24 8 := hbyte 3 (by decide)
  have hlow : 8 = 0 + 8 := rfl
  have hmid : 16 = 8 + 8 := rfl
  have hhigh : 24 = 16 + 8 := rfl
  rw [State.bytesAt_four, h0, h1, h2, h3, BitVec.extractLsb'_append_extractLsb'_eq_extractLsb' hhigh,
    BitVec.extractLsb'_append_extractLsb'_eq_extractLsb' hmid, BitVec.extractLsb'_append_extractLsb'_eq_extractLsb' hlow,
    BitVec.extractLsb'_eq_self]

/-- The addresses of the upper one of two words side by side. -/
theorem add_ofNat_of_add_four {a b : Word} (h : a + 4 = b) (k : Nat) :
    b + BitVec.ofNat 32 k = a + BitVec.ofNat 32 (4 + k) := by
  rw [BitVec.ofNat_add, ← BitVec.add_assoc, ← h]
  rfl

/-- Two words written side by side read back as written, and no other byte is written. -/
theorem State.bytesAt_of_two_words {s t : State} {a b low high : Word} (hb : a + 4 = b)
    (h : t.mem = (s.mem.writeBytes b 4 high).writeBytes a 4 low) :
    t.bytesAt a 4 = low ∧ t.bytesAt b 4 = high ∧
      ∀ x, (∀ k < 8, x ≠ a + BitVec.ofNat 32 k) → t.byteAt x = s.byteAt x := by
  have hkeeps : ∀ x, (∀ k < 4, x ≠ a + BitVec.ofNat 32 k) → t.byteAt x = (s.mem.writeBytes b 4 high).read x.toNat :=
    fun x hx => by rw [State.byteAt, h, Memory.read_writeBytes_outside _ _ _ _ _ hx]
  refine ⟨State.bytesAt_writeBytes h, ?_, fun x hx => ?_⟩
  · have hhigh := State.bytesAt_writeBytes (t := { s with mem := s.mem.writeBytes b 4 high }) rfl
    refine (State.bytesAt_congr fun k hk => hkeeps _ fun j hj e => ?_).trans hhigh
    rw [add_ofNat_of_add_four hb, BitVec.add_right_inj] at e
    have hkj := congrArg BitVec.toNat e
    simp only [BitVec.toNat_ofNat] at hkj
    omega
  · rw [hkeeps x fun k hk => hx k (by omega)]
    refine Memory.read_writeBytes_outside _ _ _ _ _ fun k hk => ?_
    rw [add_ofNat_of_add_four hb]
    exact hx (4 + k) (by omega)

theorem State.bytesAt_setReg (s : State) (r : Reg) (v a : Word) (n : Nat) :
    (s.setReg r v).bytesAt a n = s.bytesAt a n :=
  State.bytesAt_congr fun _ _ => s.setReg_byteAt r v _

@[simp] theorem memRead_setReg (a : Word) (n : Nat) (s : State) (r : Reg) (v : Word) :
    memRead a n (s.setReg r v) = memRead a n s := by
  rw [memRead, State.accessOk_congr (s.setReg_params r v), s.bytesAt_setReg, memRead]

@[simp] theorem memRead_jump (a : Word) (n : Nat) (s : State) (target : Word) :
    memRead a n (s.jump target) = memRead a n s :=
  memRead_setReg a n s .pc target

/-! ## Jumps and branches on a flag (R140, R150, R151) -/

theorem effectiveAddress_eq_ok {l : Location} {target : Word} :
    effectiveAddress l = .ok target ↔ ∃ n, l.place = .mem target n := by
  obtain ⟨sx, p⟩ := l
  cases p <;> simp [effectiveAddress]

section
variable {a : Operand} {s u : State} {l : Location} {target : Word}

/-- A one-operand jump answers the address of its operand, which is Mem (R140). -/
theorem resolveTarget_eq_ok :
    resolveTarget a s = .ok (target, u) ↔
      checkOperands s.params [(a, .mem)] = .ok () ∧ ∃ l n, resolve a s = .ok (l, u) ∧ l.place = .mem target n := by
  simp only [resolveTarget, bind_eq_ok, Prod.exists, Except.ok.injEq, Prod.mk.injEq, effectiveAddress_eq_ok]
  constructor
  · rintro ⟨⟨⟩, hc, l, u', hr, x, ⟨n, hl⟩, rfl, rfl⟩; exact ⟨hc, l, n, hr, hl⟩
  · rintro ⟨hc, l, n, hr, hl⟩; exact ⟨(), hc, l, u, hr, target, ⟨n, hl⟩, rfl, rfl⟩

theorem execJmp_eq_next (h : resolveTarget a s = .ok (target, u)) : execJmp a s = .next (u.jump target) := by
  simp only [execJmp, h, ok_bind, finish_ok]

theorem execFlagBranch_eq_next (flag : Bool) (h : resolveTarget a s = .ok (target, u)) :
    execFlagBranch flag a s = .next (branchIf flag target u) := by
  simp only [execFlagBranch, h, ok_bind, finish_ok]

theorem execJal_eq_finish (h : resolveTarget a s = .ok (target, u)) : execJal a s = finish (call target u) := by
  simp only [execJal, h, ok_bind]

end

/-! ## JAL (R141) -/

theorem sub_eight_add_four (a : Word) : a - 8 + 4 = a - 4 := by bv_omega

theorem sub_four_sub_four (a : Word) : a - 4 - 4 = a - 8 := by bv_omega

/-- What JAL leaves when the eight bytes below its stack pointer are implemented: both words pushed, then four
registers written. -/
def called (target : Word) (s : State) : State :=
  let sp := s.reg .pS
  { s with
    regs := (((s.regs.set .pB (sp - 4)).set .pS (sp - 8)).set .pR (s.reg .pc)).set .pc target
    mem := (s.mem.writeBytes (sp - 4) 4 (s.reg .pB)).writeBytes (sp - 8) 4 (s.reg .pR) }

theorem reg_called (target : Word) (s : State) (q : Reg) :
    (called target s).reg q =
      if q = .pc then target else if q = .pR then s.reg .pc else if q = .pS then s.reg .pS - 8
      else if q = .pB then s.reg .pS - 4 else s.reg q := by
  simp only [State.reg, called, Regs.get_set]

theorem params_called (target : Word) (s : State) : (called target s).params = s.params := by simp only [called]

theorem call_eq_ok {target : Word} {s t : State} :
    call target s = .ok t ↔ s.accessOk (s.reg .pS - 8) 8 = true ∧ t = called target s := by
  rw [State.accessOk_two_words (sub_eight_add_four _)]
  simp only [call, bind_eq_ok, memWrite_eq_ok, Except.ok.injEq]
  constructor
  · rintro ⟨_, ⟨hB, rfl⟩, _, ⟨hR, rfl⟩, rfl⟩
    refine ⟨⟨hR, hB⟩, ?_⟩
    simp [called, State.jump, State.setReg, State.reg, Regs.get_set]
  · rintro ⟨⟨hR, hB⟩, rfl⟩
    refine ⟨_, ⟨hB, rfl⟩, _, ⟨hR, rfl⟩, ?_⟩
    simp [called, State.jump, State.setReg, State.reg, Regs.get_set]

/-- A call that has a stack byte outside the map faults: only the map can stop it (R141). -/
theorem call_eq_error (target : Word) {s : State} (h : s.accessOk (s.reg .pS - 8) 8 = false) :
    call target s = .error .memoryAccess := by
  obtain ⟨t, ht, -⟩ | ⟨herr, -⟩ := mapOnly_call (s := s) rfl target
  · rw [(call_eq_ok.1 ht).1] at h
    cases h
  · exact herr

/-! ## RET (R142) -/

/-- What RET leaves: four registers written, the two words it has read around the old pB among their values. -/
def returned (sp : Word) (s : State) : State :=
  let low := s.bytesAt (s.reg .pB - 4) 4
  let high := s.bytesAt (s.reg .pB) 4
  { s with regs := (((s.regs.set .pc (s.reg .pR)).set .pR low).set .pS sp).set .pB high }

theorem reg_returned (sp : Word) (s : State) (q : Reg) :
    (returned sp s).reg q =
      if q = .pB then s.bytesAt (s.reg .pB) 4 else if q = .pS then sp
      else if q = .pR then s.bytesAt (s.reg .pB - 4) 4 else if q = .pc then s.reg .pR else s.reg q := by
  simp only [State.reg, returned, Regs.get_set]

theorem mem_returned (sp : Word) (s : State) : (returned sp s).mem = s.mem := by simp only [returned]

@[simp] theorem returnedStackPointer_setReg (bp : Word) (s : State) (r : Reg) (v : Word) :
    returnedStackPointer bp (s.setReg r v) = returnedStackPointer bp s := by
  simp only [returnedStackPointer, State.setReg_params, memRead_setReg]

@[simp] theorem returnedStackPointer_jump (bp : Word) (s : State) (target : Word) :
    returnedStackPointer bp (s.jump target) = returnedStackPointer bp s :=
  returnedStackPointer_setReg bp s .pc target

theorem execRet_eq_next {s t : State} :
    execRet s = .next t ↔ s.accessOk (s.reg .pB - 4) 8 = true ∧
      ∃ sp, returnedStackPointer (s.reg .pB) s = .ok sp ∧ t = returned sp s := by
  rw [State.accessOk_two_words (BitVec.sub_add_cancel _ _)]
  simp only [execRet, finish_eq_next, bind_eq_ok, memRead_setReg, memRead_jump, returnedStackPointer_setReg,
    returnedStackPointer_jump, memRead_eq_ok, Except.ok.injEq]
  constructor
  · rintro ⟨_, ⟨hR, rfl⟩, sp, hS, _, ⟨hB, rfl⟩, rfl⟩
    refine ⟨⟨hR, hB⟩, sp, hS, ?_⟩
    simp only [returned, State.jump, State.setReg]
  · rintro ⟨⟨hR, hB⟩, sp, hS, rfl⟩
    refine ⟨_, ⟨hR, rfl⟩, sp, hS, _, ⟨hB, rfl⟩, ?_⟩
    simp only [returned, State.jump, State.setReg]

/-- A RET that does not complete has met an address that is not implemented (R142). -/
theorem execRet_eq_fault {s : State} (h : ∀ t, execRet s ≠ .next t) : execRet s = .fault .memoryAccess := by
  obtain ⟨x, hx, ⟨t, rfl, -⟩ | ⟨rfl, -⟩⟩ := chain_ret s
  · exact absurd hx (h t)
  · exact hx

/-! ## Branches that compare (R143 to R149) -/

theorem branchIf_decide (p : Prop) [Decidable p] (target : Word) (s : State) :
    branchIf (decide p) target s = if p then s.jump target else s := by
  by_cases h : p <;> simp [branchIf, h]

section
variable {s s1 s2 u : State} {x y old target : Word} {q : Requirement} {l1 l2 lt : Location} {ops : TwoOrThree}

/-- Both forms name a first source and a target, and either a second source or the number 0 (R143, R148). -/
theorem exists_resolveBranch
    (h : (∃ a b, ops = .two a b ∧ checkOperands s.params [(a, q), (b, .mem)] = .ok () ∧
        resolve2 a b s = .ok (l1, lt, s1) ∧ y = 0) ∨
      (∃ a b c, ops = .three a b c ∧ checkOperands s.params [(a, q), (b, .any), (c, .mem)] = .ok () ∧
        resolve3 a b c s = .ok (l1, l2, lt, s1) ∧ val l2 u = .ok y)) :
    ∃ src2, resolveBranch q ops s = .ok (⟨l1, src2, lt⟩, s1) ∧ valOrZero src2 u = .ok y := by
  obtain ⟨a, b, rfl, hc, hr, rfl⟩ | ⟨a, b, c, rfl, hc, hr, hy⟩ := h
  · exact ⟨none, by simp only [resolveBranch, hc, hr, ok_bind], rfl⟩
  · exact ⟨some l2, by simp only [resolveBranch, hc, hr, ok_bind], hy⟩

theorem execCompare_eq_next {src2 : Option Location} (cond : Word → Word → Bool)
    (hr : resolveBranch .any ops s = .ok (⟨l1, src2, lt⟩, s1)) (hx : val l1 s1 = .ok x)
    (hy : valOrZero src2 s1 = .ok y) (ht : effectiveAddress lt = .ok target) :
    execCompare cond ops s = .next (branchIf (cond x y) target s1) := by
  simp only [execCompare, hr, hx, hy, ht, ok_bind, finish_ok]

/-- A loop branch reads the second source, and the first one again, after its store (R148, D39). -/
theorem execLoop_eq_next {src2 : Option Location} {op : FlagOp} {f : Word → Word}
    (hr : resolveBranch .regOrMem ops s = .ok (⟨l1, src2, lt⟩, s1)) (hold : val l1 s1 = .ok old)
    (hstore : store l1 (f old) s1 = .ok s2) (hx : val l1 s2 = .ok x) (hy : valOrZero src2 s2 = .ok y)
    (ht : effectiveAddress lt = .ok target) :
    execLoop op f ops s =
      .next (writeFlags op old 1 (destSize l1) (if x = y then s2.jump target else s2)) := by
  simp only [execLoop, hr, hold, hstore, hx, hy, ht, ok_bind, finish_ok, branchIf_decide]

end

end Sys2Proof.Machine

open Sys2Proof Sys2Proof.Machine

/-- Settles O46: the jump is the last stage of JMP. -/
theorem jmpGoesToTheEffectiveAddress : Obligations.JmpGoesToTheEffectiveAddress :=
  fun _ _ _ l _ n hc hr hl => execJmp_eq_next (resolveTarget_eq_ok.2 ⟨hc, l, n, hr, hl⟩)

/-- Settles O47: the eight stack bytes are implemented, and JAL pushes both words side by side, or one of them is not,
and the call faults. -/
theorem jalPushesAndJumps : Obligations.JalPushesAndJumps := by
  intro a s s1 l tgt n hc hr hl S
  have hexec : exec (.jal a) s = finish (call tgt s1) := execJal_eq_finish (resolveTarget_eq_ok.2 ⟨hc, l, n, hr, hl⟩)
  refine ⟨fun himp => ⟨called tgt s1, ?_, ?_⟩, fun k hk himp => ?_⟩
  · rw [hexec, call_eq_ok.2 ⟨State.accessOk_iff.2 himp, rfl⟩, finish_ok]
  · obtain ⟨hlow, hhigh, hframe⟩ := State.bytesAt_of_two_words (t := called tgt s1) (sub_eight_add_four S) rfl
    refine ⟨hhigh, hlow, ?_, ?_, ?_, ?_, fun q hB hS hR hpc => ?_, hframe, ?_⟩
    · simp [reg_called, S]
    · simp [reg_called, S]
    · simp [reg_called]
    · simp [reg_called]
    · simp [reg_called, hB, hS, hR, hpc]
    · rfl
  · rw [hexec, call_eq_error tgt (State.accessOk_eq_false hk himp), finish_error]

/-- Settles O48: RET is its opcode byte alone; it completes where the words around the old pB are implemented and, under
the literal rule, the word above them, and faults elsewhere. -/
theorem retRestores : Obligations.RetRestores := by
  intro s B
  refine ⟨fun src h => ?_, fun himp hlit => ?_, fun k hk himp => ?_, fun hrule k hk himp => ?_⟩
  · exact decode_of_assemble (o := .ret) (ops := []) h rfl rfl
  · obtain ⟨sp, hsp, hliteral, harith⟩ : ∃ sp, returnedStackPointer B s = .ok sp ∧
        (s.params.retPsRule = .literal → sp = s.bytesAt (B + 4) 4) ∧
        (s.params.retPsRule = .arithmetic → sp = B + 4) := by
      cases hrule : s.params.retPsRule with
      | literal =>
        refine ⟨_, ?_, fun _ => rfl, nofun⟩
        rw [returnedStackPointer, hrule]
        exact memRead_of_accessOk (State.accessOk_iff.2 (hlit hrule))
      | arithmetic => exact ⟨B + 4, by rw [returnedStackPointer, hrule], nofun, fun _ => rfl⟩
    refine ⟨returned sp s, ?_, ?_, ?_, ?_, ?_, ?_, fun q hpc hR hS hB => ?_, ?_⟩
    · exact execRet_eq_next.2 ⟨State.accessOk_iff.2 himp, sp, hsp, rfl⟩
    · simp [reg_returned]
    · simp [reg_returned, B]
    · simp [reg_returned, B]
    · simpa [reg_returned] using hliteral
    · simpa [reg_returned] using harith
    · simp [reg_returned, hB, hS, hR, hpc]
    · rfl
  · refine execRet_eq_fault fun t ht => ?_
    obtain ⟨hok, -⟩ := execRet_eq_next.1 ht
    cases hok.symm.trans (State.accessOk_eq_false hk himp)
  · refine execRet_eq_fault fun t ht => ?_
    obtain ⟨-, sp, hsp, -⟩ := execRet_eq_next.1 ht
    rw [returnedStackPointer, hrule] at hsp
    cases hsp.symm.trans (memRead_of_not_accessOk (State.accessOk_eq_false hk himp))

/-- Settles O49: the words that RET reads are those that JAL has pushed, and the word above them is the one that pS
pointed to. -/
theorem retUndoesJal : Obligations.RetUndoesJal := by
  intro a s s1 t u l hr hjal hparams hB hR hbytes hlit
  obtain ⟨⟨tgt, w⟩, htarget, hcall⟩ := bind_eq_ok.1 (finish_eq_next.1 hjal)
  obtain ⟨-, _, -, hr', -⟩ := resolveTarget_eq_ok.1 htarget
  obtain ⟨-, rfl⟩ := Prod.mk.inj (Except.ok.inj (hr.symm.trans hr'))
  obtain ⟨hok, rfl⟩ := call_eq_ok.1 hcall
  have hsides := sub_eight_add_four (s1.reg .pS)
  obtain ⟨hlow, hhigh, -⟩ := State.bytesAt_of_two_words (t := called tgt s1) hsides rfl
  replace hB : u.reg .pB = s1.reg .pS - 4 := by simpa [reg_called] using hB
  replace hR : u.reg .pR = s1.reg .pc := by simpa [reg_called] using hR
  rw [params_called] at hparams
  have hpR : u.bytesAt (s1.reg .pS - 8) 4 = s1.reg .pR :=
    (State.bytesAt_congr fun k hk => hbytes k (by omega)).trans hlow
  have hpB : u.bytesAt (s1.reg .pS - 4) 4 = s1.reg .pB := by
    refine (State.bytesAt_congr fun k hk => ?_).trans hhigh
    rw [add_ofNat_of_add_four hsides]
    exact hbytes (4 + k) (by omega)
  have hpS : returnedStackPointer (s1.reg .pS - 4) u = .ok (s1.reg .pS) := by
    rw [returnedStackPointer, BitVec.sub_add_cancel]
    cases hrule : u.params.retPsRule with
    | literal => exact hlit hrule
    | arithmetic => rfl
  have haccess : u.accessOk (s1.reg .pS - 8) 8 = true := (State.accessOk_congr hparams _ _).trans hok
  rw [← sub_four_sub_four, ← hB] at haccess hpR
  rw [← hB] at hpB hpS
  refine ⟨returned (s1.reg .pS) u, ?_, ?_, ?_, ?_, ?_, ?_⟩
  · exact execRet_eq_next.2 ⟨haccess, _, hpS, rfl⟩
  · simpa [reg_returned] using hR
  · simpa [reg_returned] using hpB
  · simpa [reg_returned] using hpR
  · simp [reg_returned]
  · exact mem_returned _ _

/-- Settles O50: the four branches differ in their condition, and the two forms in the second source. -/
theorem comparingBranches : Obligations.ComparingBranches := by
  intro s s1 x y tgt n l1 l2 lt ops hform hx hl taken
  obtain ⟨src2, hr, hy⟩ := exists_resolveBranch hform
  have hexec : ∀ (cond : Word → Word → Bool) (p : Prop) [Decidable p], cond x y = decide p →
      execCompare cond ops s = .next (if p then taken else s1) := fun cond p _ hp => by
    rw [execCompare_eq_next cond hr hx hy (effectiveAddress_of_mem hl), hp, branchIf_decide]
    rfl
  refine ⟨hexec _ _ rfl, ?_, fun hsigned => ⟨hexec _ _ ?_, hexec _ _ ?_⟩, fun hsigned => ⟨hexec _ _ ?_, hexec _ _ ?_⟩⟩
  · rw [← ite_not]
    exact hexec _ _ rfl
  all_goals
    rw [hsigned]
    rfl

/-- Settles O51: BIE and BDE are one loop branch with two operations. -/
theorem loopBranches : Obligations.LoopBranches := by
  intro s s1 s2 old x y tgt n l1 l2 lt ops hform hold hx hl after
  obtain ⟨src2, hr, hy⟩ := exists_resolveBranch hform
  have ht := effectiveAddress_of_mem hl
  exact ⟨fun h => execLoop_eq_next (f := (· + 1)) hr hold h hx hy ht,
    fun h => execLoop_eq_next (f := (· - 1)) hr hold h hx hy ht⟩

/-- Settles O52: BAO and BAC are one branch on two flags, and resolving an operand writes registers alone. -/
theorem flagBranches : Obligations.FlagBranches := by
  intro a s s1 l tgt n hc hr hl taken
  have htarget := resolveTarget_eq_ok.2 ⟨hc, l, n, hr, hl⟩
  have hflags : s1.flags = s.flags := by
    obtain ⟨-, hs1, -⟩ := resolve_cases hr
    rw [hs1]
  exact ⟨execFlagBranch_eq_next s.flags.ovf htarget, execFlagBranch_eq_next s.flags.carry htarget, hflags, hflags⟩

end
